-- ==== Sys2Proof/Word.lean ====
section
/-! DEFINITION. The bit-vector types of the spec's values (00_scope.md rule R6). -/

namespace Sys2Proof

/-- One byte of memory or of an instruction (R25, R30). -/
abbrev Byte := BitVec 8

/-- A general register, an opmask register, an address or a control register (R10, R11, R14 to R18, R23). -/
abbrev Word := BitVec 64

/-- A full vector register: MAXVL = 512 bits (R5, R20). -/
abbrev Vec := BitVec 512

/-- The number of a vector register, 0 to 31 (R20). -/
abbrev VReg := BitVec 5

/-- The number of a general register, 0 to 15 (R10). -/
abbrev GReg := BitVec 4

/-- The number of an opmask register, 0 to 7 (R23); `000b` in an encoding means "no writemask" (R58). -/
abbrev KReg := BitVec 3

end Sys2Proof
end

