-- ==== Sys2Proof/Syntax.lean ====
section
/-! DEFINITION. The instructions as syntax: one constructor per row of spec/opcode_table.json (30_encoding.md R67). -/

namespace Sys2Proof

/-- A byte that may stand before the opcode: the legacy prefixes of R51, and a byte 40H to 4FH (R52), which is a REX
prefix when it stands immediately before the 0FH escape and is ignored when another prefix follows it. -/
inductive Prefix where
  | opSize   -- 66H
  | repne    -- F2H
  | rep      -- F3H
  | lock     -- F0H
  | addrSize -- 67H
  | segFs    -- 64H
  | segGs    -- 65H
  | segCs    -- 2EH
  | segSs    -- 36H
  | segDs    -- 3EH
  | segEs    -- 26H
  | rex (wrxb : BitVec 4) -- 40H to 4FH
deriving DecidableEq, Repr

/-- A displacement (R61): none, 8 bits or 32 bits, as it stands in the instruction. -/
inductive Disp where
  | zero
  | d8 (d : BitVec 8)
  | d32 (d : BitVec 32)
deriving DecidableEq, Repr

/-- The address forms of ModRM and SIB (R59 to R65). In a SIB form the index number `0100b` means no index. -/
inductive Addr where
  | base (b : GReg) (d : Disp)
  | sib (b x : GReg) (scale : BitVec 2) (d : Disp)
  | sibNoBase (x : GReg) (scale : BitVec 2) (d : BitVec 32)
  | ripRel (d : BitVec 32)
deriving DecidableEq, Repr

/-- The ModRM `r/m` operand (R59): a vector register (register-copy form) or a memory operand. -/
inductive Operand where
  | reg (n : VReg)
  | mem (a : Addr)
deriving DecidableEq, Repr

/-- The vector length of an encoding (R5, R57). -/
inductive VLen where
  | v128
  | v256
  | v512
deriving DecidableEq, Repr

/-- A `LEG` instruction (R53): the bytes before REX and 0FH, whether a REX prefix stands before 0FH, and the two
operands. -/
structure LegOps where
  pre : List Prefix
  rex : Bool
  reg : VReg
  rm : Operand
deriving DecidableEq, Repr

/-- A `VEX` instruction (R54, R55): the bytes before the VEX prefix, whether it has the three-byte form, and the two
operands. -/
structure VexOps where
  pre : List Prefix
  three : Bool
  reg : VReg
  rm : Operand
deriving DecidableEq, Repr

/-- An `EVEX` instruction (R56, R58): the bytes before the EVEX prefix, the two operands, the opmask field `aaa` and
the masking mode `z`. -/
structure EvexOps where
  pre : List Prefix
  reg : VReg
  rm : Operand
  aaa : KReg
  z : Bool
deriving DecidableEq, Repr

/-- The 18 rows of the opcode table, in its order (R67). -/
inductive Instr where
  | movdqaLoad (o : LegOps)
  | movdqaStore (o : LegOps)
  | vmovdqaXmmLoad (o : VexOps)
  | vmovdqaXmmStore (o : VexOps)
  | vmovdqaYmmLoad (o : VexOps)
  | vmovdqaYmmStore (o : VexOps)
  | vmovdqa32XmmLoad (o : EvexOps)
  | vmovdqa32YmmLoad (o : EvexOps)
  | vmovdqa32ZmmLoad (o : EvexOps)
  | vmovdqa32XmmStore (o : EvexOps)
  | vmovdqa32YmmStore (o : EvexOps)
  | vmovdqa32ZmmStore (o : EvexOps)
  | vmovdqa64XmmLoad (o : EvexOps)
  | vmovdqa64YmmLoad (o : EvexOps)
  | vmovdqa64ZmmLoad (o : EvexOps)
  | vmovdqa64XmmStore (o : EvexOps)
  | vmovdqa64YmmStore (o : EvexOps)
  | vmovdqa64ZmmStore (o : EvexOps)
deriving DecidableEq, Repr

end Sys2Proof
end

