-- ==== Sys2Proof/Decode.lean ====
section
/-! DEFINITION. Decoding (30_encoding.md rules R50 to R73, procedure R78), total on any bytes, and the encoder. -/

namespace Sys2Proof

/-! ## Bit fields and byte order -/

/-- The 4-bit register number `e ## r` (R63). -/
def ext4 (e : Bool) (r : BitVec 3) : BitVec 4 := BitVec.ofBool e ++ r

/-- The 5-bit register number `h ## e ## r` (R63). -/
def ext5 (h e : Bool) (r : BitVec 3) : BitVec 5 := BitVec.ofBool h ++ ext4 e r

/-- The four bytes of a 32-bit displacement, first byte = bits 7:0 (R61). -/
def le32 (d : BitVec 32) : List Byte :=
  [d.extractLsb' 0 8, d.extractLsb' 8 8, d.extractLsb' 16 8, d.extractLsb' 24 8]

/-- Read a 4-byte displacement (R61); `none` when the bytes run out. -/
def parse32 : List Byte → Option (BitVec 32)
  | b0 :: b1 :: b2 :: b3 :: _ => some (b3 ++ (b2 ++ (b1 ++ b0)))
  | _ => none

/-! ## Legacy prefixes and REX (R51, R52) -/

/-- The byte of a prefix (R51, R52). -/
def Prefix.byte : Prefix → Byte
  | .opSize => 0x66
  | .repne => 0xF2
  | .rep => 0xF3
  | .lock => 0xF0
  | .addrSize => 0x67
  | .segFs => 0x64
  | .segGs => 0x65
  | .segCs => 0x2E
  | .segSs => 0x36
  | .segDs => 0x3E
  | .segEs => 0x26
  | .rex w => 0x4#4 ++ w

/-- The prefix a byte is, if it is one (R51, R52). -/
def Prefix.ofByte (b : Byte) : Option Prefix :=
  if b.extractLsb' 4 4 = 0x4#4 then some (.rex (b.extractLsb' 0 4))
  else if b = 0x66 then some .opSize
  else if b = 0xF2 then some .repne
  else if b = 0xF3 then some .rep
  else if b = 0xF0 then some .lock
  else if b = 0x67 then some .addrSize
  else if b = 0x64 then some .segFs
  else if b = 0x65 then some .segGs
  else if b = 0x2E then some .segCs
  else if b = 0x36 then some .segSs
  else if b = 0x3E then some .segDs
  else if b = 0x26 then some .segEs
  else none

/-- R78 step 1: read bytes while they are legacy prefixes or 40H to 4FH. -/
def scanPrefixes : List Byte → List Prefix × List Byte
  | [] => ([], [])
  | b :: bs =>
    match Prefix.ofByte b with
    | some p => (p :: (scanPrefixes bs).1, (scanPrefixes bs).2)
    | none => ([], b :: bs)

/-- R78 step 1: `rex` is the byte read last if it is in 40H to 4FH. -/
def splitRex (ps : List Prefix) : List Prefix × Option (BitVec 4) :=
  match ps.getLast? with
  | some (.rex w) => (ps.dropLast, some w)
  | _ => (ps, none)

/-- Whether a REX prefix stands last, immediately before the opcode bytes (R52, R78). -/
def endsInRex (ps : List Prefix) : Bool := (splitRex ps).2.isSome

/-- A 66H, F2H, F3H, F0H or REX prefix before a VEX or EVEX prefix (R69, R70): #UD. -/
def forbiddenBeforeVex (ps : List Prefix) : Bool :=
  ps.contains .opSize || ps.contains .repne || ps.contains .rep || ps.contains .lock || endsInRex ps

/-! ## ModRM, SIB and displacement (R59 to R61) -/

/-- The number of displacement bytes (R61). -/
def Disp.size : Disp → Nat
  | .zero => 0
  | .d8 _ => 1
  | .d32 _ => 4

/-- The displacement's `mod` field (R61). -/
def Disp.mod : Disp → BitVec 2
  | .zero => 0
  | .d8 _ => 1
  | .d32 _ => 2

/-- The displacement's bytes (R61). -/
def Disp.bytes : Disp → List Byte
  | .zero => []
  | .d8 d => [d]
  | .d32 d => le32 d

/-- The number of bytes of ModRM, SIB and displacement (R73). -/
def Operand.size : Operand → Nat
  | .reg _ => 1
  | .mem (.base _ d) => 1 + d.size
  | .mem (.sib _ _ _ d) => 2 + d.size
  | .mem (.sibNoBase _ _ _) => 6
  | .mem (.ripRel _) => 5

/-- Whether the operand is memory (`mod` != 11b, R59). -/
def Operand.isMem : Operand → Bool
  | .reg _ => false
  | .mem _ => true

/-- A displacement under `mod` = 00b, 01b or 10b (R61). -/
def parseDisp (md : BitVec 2) (bs : List Byte) : Option Disp :=
  if md = 0 then some .zero
  else if md = 1 then
    match bs with
    | [] => none
    | d :: _ => some (.d8 d)
  else (parse32 bs).map .d32

/-- Read SIB and displacement after a ModRM byte with `rm` = 100b (R60, R61, R64). -/
def parseSib (x b : Bool) (md : BitVec 2) : List Byte → Option Addr
  | [] => none
  | sib :: bs =>
    if md = 0 ∧ sib.extractLsb' 0 3 = 5 then
      (parse32 bs).map (.sibNoBase (ext4 x (sib.extractLsb' 3 3)) (sib.extractLsb' 6 2))
    else
      (parseDisp md bs).map
        (.sib (ext4 b (sib.extractLsb' 0 3)) (ext4 x (sib.extractLsb' 3 3)) (sib.extractLsb' 6 2))

/-- Read ModRM, SIB and displacement: the 3-bit `reg` field and the `r/m` operand (R59 to R61, R63). `x` and `b`
extend index and base; `x4` is bit 4 of a register operand (EVEX.X; 0 in the other formats). -/
def parseOperand (x b x4 : Bool) : List Byte → Option (BitVec 3 × Operand)
  | [] => none
  | m :: bs =>
    if m.extractLsb' 6 2 = 3 then
      some (m.extractLsb' 3 3, .reg (ext5 x4 b (m.extractLsb' 0 3)))
    else if m.extractLsb' 0 3 = 4 then
      (parseSib x b (m.extractLsb' 6 2) bs).map fun a => (m.extractLsb' 3 3, .mem a)
    else if m.extractLsb' 6 2 = 0 ∧ m.extractLsb' 0 3 = 5 then
      (parse32 bs).map fun d => (m.extractLsb' 3 3, .mem (.ripRel d))
    else
      (parseDisp (m.extractLsb' 6 2) bs).map fun d =>
        (m.extractLsb' 3 3, .mem (.base (ext4 b (m.extractLsb' 0 3)) d))

/-! ## Instruction length (R73) -/

/-- Length of a `LEG` instruction (R73): prefixes (an ignored byte 40H to 4FH counts, log 8), REX, `0F op`, ModRM to
displacement. -/
def LegOps.len (o : LegOps) : Nat := o.pre.length + (if o.rex then 1 else 0) + 2 + o.rm.size

/-- Length of a `VEX` instruction (R73). -/
def VexOps.len (o : VexOps) : Nat := o.pre.length + (if o.three then 4 else 3) + o.rm.size

/-- Length of an `EVEX` instruction (R73). -/
def EvexOps.len (o : EvexOps) : Nat := o.pre.length + 5 + o.rm.size

/-- `len` of R73. -/
def Instr.len : Instr → Nat
  | .movdqaLoad o => o.len
  | .movdqaStore o => o.len
  | .vmovdqaXmmLoad o => o.len
  | .vmovdqaXmmStore o => o.len
  | .vmovdqaYmmLoad o => o.len
  | .vmovdqaYmmStore o => o.len
  | .vmovdqa32XmmLoad o => o.len
  | .vmovdqa32YmmLoad o => o.len
  | .vmovdqa32ZmmLoad o => o.len
  | .vmovdqa32XmmStore o => o.len
  | .vmovdqa32YmmStore o => o.len
  | .vmovdqa32ZmmStore o => o.len
  | .vmovdqa64XmmLoad o => o.len
  | .vmovdqa64YmmLoad o => o.len
  | .vmovdqa64ZmmLoad o => o.len
  | .vmovdqa64XmmStore o => o.len
  | .vmovdqa64YmmStore o => o.len
  | .vmovdqa64ZmmStore o => o.len

/-! ## Rows (R67) -/

/-- Rows 1 and 2. -/
def legRow (store : Bool) (o : LegOps) : Instr :=
  if store then .movdqaStore o else .movdqaLoad o

/-- Rows 3 to 6, by `L` (R57). -/
def vexRow (l store : Bool) (o : VexOps) : Instr :=
  match l, store with
  | false, false => .vmovdqaXmmLoad o
  | false, true => .vmovdqaXmmStore o
  | true, false => .vmovdqaYmmLoad o
  | true, true => .vmovdqaYmmStore o

/-- `VL/8`: the operand size and the required alignment, in bytes (R31, R34). -/
def VLen.bytes : VLen → Nat
  | .v128 => 16
  | .v256 => 32
  | .v512 => 64

/-- The vector length of an EVEX `L'L` field; 11b has none (R57, R69). -/
def evexLen (ll : BitVec 2) : Option VLen :=
  if ll = 0 then some .v128
  else if ll = 1 then some .v256
  else if ll = 2 then some .v512
  else none

/-- Rows 7 to 18, by `W`, vector length and opcode (R57, R67). -/
def evexRow (w : Bool) (vl : VLen) (store : Bool) (o : EvexOps) : Instr :=
  match w, vl, store with
  | false, .v128, false => .vmovdqa32XmmLoad o
  | false, .v256, false => .vmovdqa32YmmLoad o
  | false, .v512, false => .vmovdqa32ZmmLoad o
  | false, .v128, true => .vmovdqa32XmmStore o
  | false, .v256, true => .vmovdqa32YmmStore o
  | false, .v512, true => .vmovdqa32ZmmStore o
  | true, .v128, false => .vmovdqa64XmmLoad o
  | true, .v256, false => .vmovdqa64YmmLoad o
  | true, .v512, false => .vmovdqa64ZmmLoad o
  | true, .v128, true => .vmovdqa64XmmStore o
  | true, .v256, true => .vmovdqa64YmmStore o
  | true, .v512, true => .vmovdqa64ZmmStore o

/-! ## The decoder (R78) -/

/-- The answers of R78, and `truncated` when the byte list ends inside an instruction. `ud` and `gp0` carry the
instruction's length. -/
inductive Decoded where
  | insn (i : Instr)
  | ud (len : Nat)
  | gp0 (len : Nat)
  | notThisFamily
  | truncated
deriving DecidableEq, Repr

/-- R78 step 3 and 4: the length fault replaces `UD` (R140 item 1). -/
def conclude (len : Nat) (ud : Bool) (i : Option Instr) : Decoded :=
  if len > 15 then .gp0 len
  else if ud then .ud len
  else match i with
    | some i => .insn i
    | none => .ud len

/-- The two opcodes of the family: 6FH (`false`) and 7FH (`true`, the "store" rows) (R67). -/
def opcodeStore (op : Byte) : Option Bool :=
  if op = 0x6F then some false else if op = 0x7F then some true else none

/-- The bytes before the opcode other than REX, and the REX byte, as R78 step 2b uses them: with the REX bits
`R`, `X`, `B` (R52). -/
def legOps (ps : List Prefix) (reg3 : BitVec 3) (rm : Operand) : LegOps where
  pre := (splitRex ps).1
  rex := (splitRex ps).2.isSome
  reg := ext5 false (((splitRex ps).2.getD 0).getLsbD 2) reg3
  rm := rm

/-- R78 step 2b. -/
def decodeLeg (ps : List Prefix) : List Byte → Decoded
  | [] => .truncated
  | op :: bs =>
    match opcodeStore op with
    | none => .notThisFamily
    | some store =>
      if ps.contains .rep || ps.contains .repne || !ps.contains .opSize then .notThisFamily
      else
        match parseOperand (((splitRex ps).2.getD 0).getLsbD 1) (((splitRex ps).2.getD 0).getLsbD 0) false bs with
        | none => .truncated
        | some (reg3, rm) =>
          conclude (ps.length + 2 + rm.size) (ps.contains .lock) (some (legRow store (legOps ps reg3 rm)))

/-- R78 step 2c after the VEX bytes are taken apart (R54, R55): `r x b` are the register-extension bits (not
inverted), `last` the byte that holds `vvvv`, `L` and `pp`. -/
def decodeVex (ps : List Prefix) (three r x b : Bool) (last op : Byte) (bs : List Byte) : Decoded :=
  match opcodeStore op with
  | none => .notThisFamily
  | some store =>
    if last.extractLsb' 0 2 ≠ 1 then .notThisFamily
    else
      match parseOperand x b false bs with
      | none => .truncated
      | some (reg3, rm) =>
        conclude (ps.length + (if three then 4 else 3) + rm.size)
          (forbiddenBeforeVex ps || last.extractLsb' 3 4 != 0xF#4)
          (some (vexRow (last.getLsbD 2) store ⟨ps, three, ext5 false r reg3, rm⟩))

/-- The two-byte VEX form (R55): `X` = `B` = 0, map 0F. -/
def decodeVex2 (ps : List Prefix) : List Byte → Decoded
  | p :: op :: bs => decodeVex ps false (!p.getLsbD 7) false false p op bs
  | _ => .truncated

/-- The three-byte VEX form (R54); `W` is ignored (R70). -/
def decodeVex3 (ps : List Prefix) : List Byte → Decoded
  | p1 :: p2 :: op :: bs =>
    if p1.extractLsb' 0 5 ≠ 1 then .notThisFamily
    else decodeVex ps true (!p1.getLsbD 7) (!p1.getLsbD 6) (!p1.getLsbD 5) p2 op bs
  | _ => .truncated

/-- The #UD conditions of R78 step 2d that need no ModRM byte (R68, R69). -/
def evexPrefixUd (ps : List Prefix) (p1 p2 : Byte) : Bool :=
  forbiddenBeforeVex ps || p1.extractLsb' 3 4 != 0xF#4 || !p2.getLsbD 3 || p2.getLsbD 4
    || p2.extractLsb' 5 2 == 3#2 || (p2.getLsbD 7 && p2.extractLsb' 0 3 == 0#3)

/-- The fixed bits of the EVEX prefix, `P0[3:2]` = 00b and `P1[2]` = 1 (R56, R69). -/
def evexFixedBad (p0 p1 : Byte) : Bool := p0.extractLsb' 2 2 != 0#2 || !p1.getLsbD 2

/-- R78 step 2d (R56, R58, R69). -/
def decodeEvex (ps : List Prefix) : List Byte → Decoded
  | p0 :: p1 :: p2 :: op :: bs =>
    if !evexFixedBad p0 p1 && (p0.extractLsb' 0 2 != 1#2 || p1.extractLsb' 0 2 != 1#2 || (opcodeStore op).isNone) then
      .notThisFamily
    else
      match parseOperand (!p0.getLsbD 6) (!p0.getLsbD 5) (!p0.getLsbD 6) bs with
      | none => .truncated
      | some (reg3, rm) =>
        conclude (ps.length + 5 + rm.size)
          (evexFixedBad p0 p1 || evexPrefixUd ps p1 p2
            || (p2.getLsbD 7 && (opcodeStore op == some true) && rm.isMem))
          ((evexLen (p2.extractLsb' 5 2)).map fun vl =>
            evexRow (p1.getLsbD 7) vl (opcodeStore op == some true)
              ⟨ps, ext5 (!p0.getLsbD 4) (!p0.getLsbD 7) reg3, rm, p2.extractLsb' 0 3, p2.getLsbD 7⟩)
  | _ => .truncated

/-- R78 step 2: by the byte after the prefixes. -/
def decodeOpcode (ps : List Prefix) : List Byte → Decoded
  | [] => .truncated
  | t :: bs =>
    if t = 0x0F then decodeLeg ps bs
    else if t = 0xC5 then decodeVex2 ps bs
    else if t = 0xC4 then decodeVex3 ps bs
    else if t = 0x62 then decodeEvex ps bs
    else .notThisFamily

/-- The decoder (R78), total on any byte string. -/
def decode (bs : List Byte) : Decoded := decodeOpcode (scanPrefixes bs).1 (scanPrefixes bs).2

/-! ## The encoder -/

/-- The ModRM byte (R59). -/
def modrm (md : BitVec 2) (reg rm : BitVec 3) : Byte := md ++ (reg ++ rm)

/-- ModRM, SIB and displacement of an operand (R59 to R61). -/
def Operand.bytes (reg3 : BitVec 3) : Operand → List Byte
  | .reg n => [modrm 3 reg3 (n.extractLsb' 0 3)]
  | .mem (.base b d) => modrm d.mod reg3 (b.extractLsb' 0 3) :: d.bytes
  | .mem (.sib b x sc d) =>
    modrm d.mod reg3 4 :: modrm sc (x.extractLsb' 0 3) (b.extractLsb' 0 3) :: d.bytes
  | .mem (.sibNoBase x sc d) => modrm 0 reg3 4 :: modrm sc (x.extractLsb' 0 3) 5 :: le32 d
  | .mem (.ripRel d) => modrm 0 reg3 5 :: le32 d

/-- The bit that extends `rm` or the base (R63); 0 where no field uses it. -/
def Operand.extB : Operand → Bool
  | .reg n => n.getLsbD 3
  | .mem (.base b _) => b.getLsbD 3
  | .mem (.sib b _ _ _) => b.getLsbD 3
  | .mem (.sibNoBase _ _ _) => false
  | .mem (.ripRel _) => false

/-- The bit that extends the index, and for an EVEX register operand is bit 4 of its number (R63); 0 where no field
uses it. -/
def Operand.extX : Operand → Bool
  | .reg n => n.getLsbD 4
  | .mem (.base _ _) => false
  | .mem (.sib _ x _ _) => x.getLsbD 3
  | .mem (.sibNoBase x _ _) => x.getLsbD 3
  | .mem (.ripRel _) => false

/-- The opcode byte (R67). -/
def opcodeByte (store : Bool) : Byte := if store then 0x7F else 0x6F

/-- The REX byte of a `LEG` instruction, `W` = 0 (R52). -/
def LegOps.rexByte (o : LegOps) : Byte :=
  0x4#4 ++ (BitVec.ofBool false ++ (BitVec.ofBool (o.reg.getLsbD 3) ++
    (BitVec.ofBool o.rm.extX ++ BitVec.ofBool o.rm.extB)))

/-- The bytes of a `LEG` instruction (R53). -/
def encodeLeg (store : Bool) (o : LegOps) : List Byte :=
  o.pre.map Prefix.byte ++ ((if o.rex then [o.rexByte] else []) ++
    (0x0F :: opcodeByte store :: o.rm.bytes (o.reg.extractLsb' 0 3)))

/-- The bytes of a `VEX` instruction, `W` = 0, `vvvv` = 1111b (R54, R55). -/
def encodeVex (l store : Bool) (o : VexOps) : List Byte :=
  o.pre.map Prefix.byte ++
    ((if o.three then
        [0xC4, BitVec.ofBool (!o.reg.getLsbD 3) ++ (BitVec.ofBool (!o.rm.extX) ++
            (BitVec.ofBool (!o.rm.extB) ++ 1#5)),
          BitVec.ofBool false ++ (0xF#4 ++ (BitVec.ofBool l ++ 1#2))]
      else [0xC5, BitVec.ofBool (!o.reg.getLsbD 3) ++ (0xF#4 ++ (BitVec.ofBool l ++ 1#2))]) ++
      (opcodeByte store :: o.rm.bytes (o.reg.extractLsb' 0 3)))

/-- The `L'L` field (R57). -/
def VLen.field : VLen → BitVec 2
  | .v128 => 0
  | .v256 => 1
  | .v512 => 2

/-- The bytes of an `EVEX` instruction (R56, R58). -/
def encodeEvex (w : Bool) (vl : VLen) (store : Bool) (o : EvexOps) : List Byte :=
  o.pre.map Prefix.byte ++
    (0x62 ::
      (BitVec.ofBool (!o.reg.getLsbD 3) ++ (BitVec.ofBool (!o.rm.extX) ++ (BitVec.ofBool (!o.rm.extB) ++
        (BitVec.ofBool (!o.reg.getLsbD 4) ++ 1#4)))) ::
      (BitVec.ofBool w ++ (0xF#4 ++ (1#1 ++ 1#2))) ::
      (BitVec.ofBool o.z ++ (vl.field ++ (0#1 ++ (1#1 ++ o.aaa)))) ::
      opcodeByte store :: o.rm.bytes (o.reg.extractLsb' 0 3))

/-- The bytes of a well-formed instruction (R50 to R67). -/
def encode : Instr → List Byte
  | .movdqaLoad o => encodeLeg false o
  | .movdqaStore o => encodeLeg true o
  | .vmovdqaXmmLoad o => encodeVex false false o
  | .vmovdqaXmmStore o => encodeVex false true o
  | .vmovdqaYmmLoad o => encodeVex true false o
  | .vmovdqaYmmStore o => encodeVex true true o
  | .vmovdqa32XmmLoad o => encodeEvex false .v128 false o
  | .vmovdqa32YmmLoad o => encodeEvex false .v256 false o
  | .vmovdqa32ZmmLoad o => encodeEvex false .v512 false o
  | .vmovdqa32XmmStore o => encodeEvex false .v128 true o
  | .vmovdqa32YmmStore o => encodeEvex false .v256 true o
  | .vmovdqa32ZmmStore o => encodeEvex false .v512 true o
  | .vmovdqa64XmmLoad o => encodeEvex true .v128 false o
  | .vmovdqa64YmmLoad o => encodeEvex true .v256 false o
  | .vmovdqa64ZmmLoad o => encodeEvex true .v512 false o
  | .vmovdqa64XmmStore o => encodeEvex true .v128 true o
  | .vmovdqa64YmmStore o => encodeEvex true .v256 true o
  | .vmovdqa64ZmmStore o => encodeEvex true .v512 true o

/-! ## One opcode-table word (the host's interface, log 11) -/

/-- The bytes of `w`, first byte = bits 7:0. -/
def bytesLsbFirst (n w : Nat) : List Byte := (List.range n).map fun i => BitVec.ofNat 8 (w >>> (8 * i))

/-- The bytes of `w`, first byte = the most significant of the `n` bytes: the numbering that opcode_table.json's
"fixed" entries show (C5H of the VEX rows stands at bits 31:24). -/
def bytesMsbFirst (n w : Nat) : List Byte := (bytesLsbFirst n w).reverse

/-- The bytes of a table word, followed by zero bytes up to the longest instruction: in the table's own order
when that is an instruction of the family, else with bit 0 in the first byte (log 11). No word is an instruction
both ways. -/
def tableBytes (nbits w : Nat) : List Byte :=
  match decode (bytesMsbFirst ((nbits + 7) / 8) w ++ List.replicate (15 - (nbits + 7) / 8) 0) with
  | .insn _ => bytesMsbFirst ((nbits + 7) / 8) w ++ List.replicate (15 - (nbits + 7) / 8) 0
  | _ => bytesLsbFirst ((nbits + 7) / 8) w ++ List.replicate (15 - (nbits + 7) / 8) 0

/-- The instruction the decoder reads from an opcode-table word. -/
def decodeTableWord (nbits w : Nat) : Option Instr :=
  match decode (tableBytes nbits w) with
  | .insn i => some i
  | _ => none

end Sys2Proof
end

