-- ==== Sys2Proof/Config.lean ====
section
/-! DEFINITION. The implementation parameters of 00_scope.md rule R5, and the two free values of the model. -/

namespace Sys2Proof

/-- `VA_BITS`: the number of implemented linear-address bits (R5, R39; OPEN, D29). -/
inductive VaBits where
  | va48
  | va57
deriving DecidableEq, Repr

/-- `ZERO_MASK_ALIGN_FAULT`: what a misaligned operand does when no element is selected (R5, R32 (c), D7). -/
inductive ZeroMaskAlign where
  /-- #GP(0) -/
  | gp
  /-- the value `none` of R5: completion without any access -/
  | noFault
  /-- either of the two, per occurrence (R5's default) -/
  | either
deriving DecidableEq, Repr

/-- `SS_NONCANON_MISALIGNED`: the fault an SS-relative, non-canonical, misaligned operand reports (R5, R39, D9). -/
inductive SsNoncanon where
  | gp
  | ss
  /-- either of the two, per occurrence (R5's default) -/
  | either
deriving DecidableEq, Repr

/-- `ATOMIC_GRANULE`: the largest indivisible piece of an access, in bytes (R5, R42, D19). One core cannot observe it. -/
inductive AtomicGranule where
  | b1
  | b4
  | b8
  | b16
deriving DecidableEq, Repr

/-- The parameters of R5 that are values of the processor. `Translate` is held beside them in State (R38). -/
structure Config where
  hasSse2 : Bool
  hasAvx : Bool
  hasAvx512f : Bool
  hasAvx512vl : Bool
  vaBits : VaBits
  zeroMaskAlignFault : ZeroMaskAlign
  ssNoncanonMisaligned : SsNoncanon
  atomicGranule : AtomicGranule
deriving DecidableEq, Repr

/-- The bit width of a full vector register (R5, D2). -/
def Config.maxvl : Nat := 512

/-- The parameters at reset: R5's defaults where it gives one and the four flags true; `VA_BITS` = 48 is a
DESIGN CHOICE (log 5). -/
def Config.initial : Config where
  hasSse2 := true
  hasAvx := true
  hasAvx512f := true
  hasAvx512vl := true
  vaBits := .va48
  zeroMaskAlignFault := .either
  ssNoncanonMisaligned := .either
  atomicGranule := .b1

/-- RDX at reset, "a processor signature" (R10, R160). PRESUMED (log 1): the spec gives no value; this is the
family's encoding of the probe record's "family 6 model 143" (92_eei_decisions.md section 2) with stepping 0. -/
def Config.resetSignature : Word := 0x806F0

/-- Free value (log 6): under `ZERO_MASK_ALIGN_FAULT` = `either`, whether the n-th open choice faults (R32 (c)). -/
opaque Config.freeZeroMaskGp : Nat → Bool

/-- Free value (log 6): under `SS_NONCANON_MISALIGNED` = `either`, whether the n-th open choice is #SS(0) (R39). -/
opaque Config.freeSsNoncanonSs : Nat → Bool

end Sys2Proof
end

