-- ==== Sys2Proof/Machine/State.lean ====
section
/-! DEFINITION. The machine's state (10_state.md), the reasons a step can stop, and the state after reset. -/

namespace Sys2Proof.Machine

/-- The operating modes of R18. -/
inductive Mode where
  | mode64
  | compatibility
  | protectedMode
  | virtual8086
  | realAddress
deriving DecidableEq, Repr

/-- The kinds of access `Translate` distinguishes (R38). -/
inductive AccessKind where
  | read
  | write
  | fetch
deriving DecidableEq, Repr

/-- The memory types R47 names. Only `writeBack` has a meaning. -/
inductive MemType where
  | writeBack
  | uncacheable
  | writeCombining
  | writeThrough
  | writeProtected
  | device
deriving DecidableEq, Repr

/-- The segment registers (R24). -/
inductive Seg where
  | cs
  | ds
  | ss
  | es
  | fs
  | gs
deriving DecidableEq, Repr

/-- The exceptions of R130. An exception ends the run (R142, R165) and changes no state (R141), so the outcome holds
the reason only. All are SAFE: the machine stops where the spec says it does. -/
inductive Fault where
  /-- #UD, invalid opcode. Raised by every encoding under R131, R132, R133, and by the decoder's `UD` answer (R78). -/
  | ud
  /-- #NM, device not available. Raised by every encoding when CR0.TS = 1 (R134). -/
  | nm
  /-- #SS(0), stack-segment fault. Raised by memory forms (R136, R39). -/
  | ss
  /-- #GP(0), general protection. Raised by memory forms (R135, R136) and by instructions over 15 bytes (R73). -/
  | gp
  /-- #PF(code) with the faulting linear address. Raised by memory forms (R137). -/
  | pf (code : BitVec 32) (addr : Word)
deriving DecidableEq, Repr

/-- The reasons the model gives no meaning. None is a chip behaviour; all are SAFE (the model stops where the chip
may go on). -/
inductive Refusal where
  /-- An instruction without a meaning in this model. Raised by no arm. -/
  | notModelled (mnemonic : String)
  /-- The machine is not in 64-bit mode (R74, D1). Raised by the step and by every encoding. -/
  | otherMode (m : Mode)
  /-- The bytes at `rip` are no instruction of the family (R78, R165, U17). Raised by the step. -/
  | notThisFamily
  /-- The operand lies in memory that is not write-back (R47, U11). Raised by memory forms. -/
  | memoryType (t : MemType)
  /-- A store overlaps the program's own bytes, by its linear address or in physical memory (R45, U12; log 9). Raised by
  store forms. -/
  | storeIntoProgram
  /-- An instruction byte, or the next instruction's address, is not canonical (R11, U9; log 14). Raised by the step. -/
  | fetchNotCanonical
  /-- An instruction byte is not in executable, ordinary memory, or a read does not reach that same byte, or it lies above
  2^64 - 1 (R153, R166 (c); log 14).
  Raised by the step. -/
  | fetchNotExecutable
  /-- The instruction at `rip` does not lie inside the declared program, or no program is declared (R165, R166 (c), (d);
  log 9). Raised by the step. -/
  | outsideProgram
  /-- `rip` is the address just after the program: the run has ended (R165). Raised by the step. -/
  | endOfProgram
  /-- RFLAGS.TF = 1: a debug exception would follow (R151, R166 (f)). Raised by the step. -/
  | singleStepArmed
deriving DecidableEq, Repr

/-- What `Translate` answers (R38, D22): a physical address with its memory type, or a page fault with its code. -/
inductive Translation where
  | ok (pa : Word) (t : MemType)
  | pageFault (code : BitVec 32)
deriving DecidableEq, Repr

/-- What `Translate` holds for one linear page (log 4): the physical 4-KByte frame it is mapped to (address bits 63:12)
with its memory type, or a page fault with its code. -/
inductive PageEntry where
  | frame (f : BitVec 52) (t : MemType)
  | pageFault (code : BitVec 32)
deriving DecidableEq, Repr

/-- What `Translate` holds for every page without a row (log 4): R38's identity, or a page fault. -/
inductive PageDefault where
  | identity (t : MemType)
  | pageFault (code : BitVec 32)
deriving DecidableEq, Repr

/-- One row of `Translate` (R38): for one 4-KByte linear page (address bits 63:12), access kind and CPL; rows of one page may
have different frames (log 4). -/
structure PageRule where
  page : BitVec 52
  kind : AccessKind
  cpl : BitVec 2
  entry : PageEntry
deriving DecidableEq, Repr

/-- The bytes of the program: addresses `start` to `stop - 1` (R165, R45). -/
structure ProgramRange where
  start : Nat
  stop : Nat
deriving DecidableEq, Repr

/-- Memory (R25): bytes by the address `Translate` answers (R38, log 4), addresses strictly rising, no entry equal to an
unlisted byte. -/
abbrev Memory := List Host.Cell

/-- The state (10_state.md), with `Translate`, the program's place and the parameters of R5 as data. -/
structure State where
  /-- general registers (R10) -/
  x : Vector Word 16
  /-- instruction pointer (R11) -/
  rip : Word
  /-- RFLAGS (R12) -/
  rflags : Word
  /-- MXCSR (R13) -/
  mxcsr : BitVec 32
  /-- CR0 (R14) -/
  cr0 : Word
  /-- CR4 (R15) -/
  cr4 : Word
  /-- XCR0 (R16) -/
  xcr0 : Word
  /-- IA32_EFER (R18) -/
  efer : Word
  /-- the code segment's L bit (R18) -/
  csL : Bool
  /-- the code segment's D bit (R18) -/
  csD : Bool
  /-- segment bases (R24, R40) -/
  csBase : Word
  dsBase : Word
  esBase : Word
  ssBase : Word
  fsBase : Word
  gsBase : Word
  /-- current privilege level (R146) -/
  cpl : BitVec 2
  /-- vector registers (R20, R21) -/
  zmm : Vector Vec 32
  /-- opmask registers (R23) -/
  k : Vector Word 8
  /-- memory (R25) -/
  mem : Memory
  /-- `Translate` (R38): the first row that fits answers -/
  pages : List PageRule
  /-- `Translate` where no row fits -/
  pageDefault : PageDefault
  /-- the linear addresses of the program's bytes (R165), if a program is declared -/
  program : Option ProgramRange
  /-- the parameters of R5 -/
  cfg : Config
  /-- the model's own: index of the next open choice (log 6) -/
  freeCtr : Nat
deriving DecidableEq, Repr

/-- The state right after reset (R160, R10 to R16, R20, R23). The values of `efer`, `csL`, `csD`, the other bases and
`cpl` are PRESUMED (log 2); RDX is PRESUMED (log 1); `pages`, `pageDefault`, `program`, `freeCtr` and `cfg.vaBits` are
DESIGN CHOICE (log 4, 9, 6, 5). -/
def State.reset : State where
  x := (Vector.replicate 16 0).set 2 Config.resetSignature
  rip := 0xFFF0
  rflags := 0x2
  mxcsr := 0x1F80
  cr0 := 0x60000010
  cr4 := 0
  xcr0 := 1
  efer := 0
  csL := false
  csD := false
  csBase := 0xFFFF0000
  dsBase := 0
  esBase := 0
  ssBase := 0
  fsBase := 0
  gsBase := 0
  cpl := 0
  zmm := Vector.replicate 32 0
  k := Vector.replicate 8 0
  mem := []
  pages := []
  pageDefault := .identity .writeBack
  program := none
  cfg := Config.initial
  freeCtr := 0

/-- The outcome of an instruction or a step. -/
abbrev Out := Host.Outcome State Fault Refusal

end Sys2Proof.Machine
end

