-- ==== Sys2Proof/Machine/Flags.lean ====
section
/-! DEFINITION. The control and status bits the family reads (R12 to R18) and the #UD conditions (R131 to R133). No
encoding writes a flag (R12, R13). -/

namespace Sys2Proof.Machine

/-- RFLAGS.VM, bit 17 (R12, R18). -/
def State.flagVm (s : State) : Bool := s.rflags.getLsbD 17

/-- RFLAGS.TF (R151, R166 (f)); bit 8 is PRESUMED (log 13). -/
def State.flagTf (s : State) : Bool := s.rflags.getLsbD 8

/-- CR0.PE, bit 0 (R14). -/
def State.cr0Pe (s : State) : Bool := s.cr0.getLsbD 0

/-- CR0.EM, bit 2 (R14). -/
def State.cr0Em (s : State) : Bool := s.cr0.getLsbD 2

/-- CR0.TS, bit 3 (R14). -/
def State.cr0Ts (s : State) : Bool := s.cr0.getLsbD 3

/-- CR4.OSFXSR, bit 9 (R15). -/
def State.cr4Osfxsr (s : State) : Bool := s.cr4.getLsbD 9

/-- CR4.OSXSAVE, bit 18 (R15). -/
def State.cr4Osxsave (s : State) : Bool := s.cr4.getLsbD 18

/-- `XCR0[2:1] = 11b` (R16). -/
def State.xcr0Avx (s : State) : Bool := s.xcr0.extractLsb' 1 2 == 3#2

/-- `XCR0[7:5] = 111b` (R16). -/
def State.xcr0Avx512 (s : State) : Bool := s.xcr0.extractLsb' 5 3 == 7#3

/-- IA32_EFER.LMA, bit 10 (R18). -/
def State.eferLma (s : State) : Bool := s.efer.getLsbD 10

/-- The operating mode, R18's function. Where two of its lines fit, the first of R18's order is taken (log 12). -/
def State.mode (s : State) : Mode :=
  if s.eferLma then (if s.csL then .mode64 else .compatibility)
  else if s.cr0Pe then (if s.flagVm then .virtual8086 else .protectedMode)
  else .realAddress

/-- Real-address or virtual-8086 mode (R132, R133). -/
def State.realOrV86 (s : State) : Bool := s.mode == .realAddress || s.mode == .virtual8086

/-- `UD_LEG()` (R131). -/
def udLeg (pre : List Prefix) (s : State) : Bool :=
  s.cr0Em || !s.cr4Osfxsr || !s.cfg.hasSse2 || pre.contains .lock

/-- `UD_VEX()` (R132); the `vvvv` condition is the decoder's (R68, R78). -/
def udVex (forbidden : Bool) (s : State) : Bool :=
  !s.cr4Osxsave || !s.xcr0Avx || !s.cfg.hasAvx || forbidden || s.realOrV86

/-- `UD_EVEX(VL)` (R133); the conditions on the prefix bytes are the decoder's (R68, R69, R78). `badMask` is "`z` = 1
with `aaa` = 000b, or `z` = 1 with a memory destination" (R69). -/
def udEvex (vl : VLen) (forbidden badMask : Bool) (s : State) : Bool :=
  forbidden || badMask || !s.cr4Osxsave || !s.xcr0Avx || !s.xcr0Avx512 || !s.cfg.hasAvx512f
    || (vl != .v512 && !s.cfg.hasAvx512vl) || s.realOrV86

end Sys2Proof.Machine
end

