-- ==== Sys2Proof/Machine/Operands.lean ====
section
/-! DEFINITION. Operand forms: registers (R10, R20 to R23), effective and linear addresses (R62 to R66, R40), masks (R9,
R58). -/

namespace Sys2Proof.Machine

/-! ## Registers -/

/-- `x[i]` (R10). -/
def State.gpr (s : State) (i : GReg) : Word := s.x[i.toNat]'(by have := i.isLt; omega)

/-- `ZMM[n]` (R20). -/
def State.vec (s : State) (n : VReg) : Vec := s.zmm[n.toNat]'(by have := n.isLt; omega)

/-- `ZMM[n] <- v` (R7). -/
def State.setVec (s : State) (n : VReg) (v : Vec) : State :=
  { s with zmm := s.zmm.set n.toNat v (by have := n.isLt; omega) }

/-- `K[n]` (R23). -/
def State.opmask (s : State) (n : KReg) : Word := s.k[n.toNat]'(by have := n.isLt; omega)

/-! ## Vector lengths and shapes -/

/-- An operand of `bytes` bytes in elements of `elem` bytes. The unmasked formats have one element, the whole
operand. -/
structure Shape where
  bytes : Nat
  elem : Nat
deriving DecidableEq, Repr

/-- `KL`: the number of elements (R5, R57). -/
def Shape.kl (sh : Shape) : Nat := sh.bytes / sh.elem

/-- The shape of an unmasked operand (`LEG`, `VEX`). -/
def Shape.whole (vl : VLen) : Shape := ⟨vl.bytes, vl.bytes⟩

/-- The shape of a VMOVDQA32 operand: 32-bit elements (R95). -/
def Shape.dword (vl : VLen) : Shape := ⟨vl.bytes, 4⟩

/-- The shape of a VMOVDQA64 operand: 64-bit elements (R105). -/
def Shape.qword (vl : VLen) : Shape := ⟨vl.bytes, 8⟩

/-! ## Masks -/

/-- The mask that selects all `kl` elements. -/
def allSelected (kl : Nat) : BitVec 16 := BitVec.ofNat 16 (2 ^ kl - 1)

/-- The effective mask (R9, R58): all ones when `aaa` = 000b, else the low `KL` bits of `K[aaa]`. -/
def effectiveMask (s : State) (aaa : KReg) (kl : Nat) : BitVec 16 :=
  if aaa = 0 then allSelected kl else (s.opmask aaa).setWidth 16 &&& allSelected kl

/-! ## Addresses -/

/-- Whether a 67H prefix gives the 32-bit address size (R51, R66). -/
def addr32 (pre : List Prefix) : Bool := pre.contains .addrSize

/-- The last 64H / 65H override (R51, R66). -/
def segOverride (pre : List Prefix) : Option Seg :=
  pre.foldl (fun acc p => match p with
    | .segFs => some .fs
    | .segGs => some .gs
    | _ => acc) none

/-- The base register of an address, if one is used (R64, R66). -/
def baseReg : Addr → Option GReg
  | .base b _ => some b
  | .sib b _ _ _ => some b
  | .sibNoBase _ _ _ => none
  | .ripRel _ => none

/-- The operand's segment (R66). -/
def segOf (pre : List Prefix) (a : Addr) : Seg :=
  match segOverride pre with
  | some sg => sg
  | none => if baseReg a = some 4 ∨ baseReg a = some 5 then .ss else .ds

/-- `base(seg)` in 64-bit mode (R40): FS.base, GS.base, and 0 for the others. -/
def State.segBase (s : State) : Seg → Word
  | .fs => s.fsBase
  | .gs => s.gsBase
  | .cs => 0
  | .ds => 0
  | .ss => 0
  | .es => 0

/-- A register as an address part: its low 32 bits under the 32-bit address size (R66). -/
def State.addrReg (s : State) (a32 : Bool) (r : GReg) : Word :=
  if a32 then ((s.gpr r).setWidth 32).setWidth 64 else s.gpr r

/-- The displacement (R62, R64): `disp8` is sign-extended and multiplied by `n`, `disp32` is sign-extended. -/
def dispValue (n : Nat) : Disp → Word
  | .zero => 0
  | .d8 d => d.signExtend 64 * BitVec.ofNat 64 n
  | .d32 d => d.signExtend 64

/-- The index value (R64): 0 for index number 0100b, else the register times 2^scale. -/
def State.indexValue (s : State) (a32 : Bool) (x : GReg) (scale : BitVec 2) : Word :=
  if x = 4 then 0 else s.addrReg a32 x <<< scale.toNat

/-- The sum of R64, before R66's truncation; `next` is `rip + len`. -/
def State.addrSum (s : State) (a32 : Bool) (n : Nat) (next : Word) : Addr → Word
  | .base b d => s.addrReg a32 b + dispValue n d
  | .sib b x sc d => s.addrReg a32 b + dispValue n d + s.indexValue a32 x sc
  | .sibNoBase x sc d => d.signExtend 64 + s.indexValue a32 x sc
  | .ripRel d => next + d.signExtend 64

/-- The effective address (R64 to R66). -/
def State.effectiveAddr (s : State) (pre : List Prefix) (n : Nat) (next : Word) (a : Addr) : Word :=
  if addr32 pre then ((s.addrSum true n next a).setWidth 32).setWidth 64 else s.addrSum false n next a

/-- The linear address (R40). -/
def State.linearAddr (s : State) (pre : List Prefix) (n : Nat) (next : Word) (a : Addr) : Word :=
  s.segBase (segOf pre a) + s.effectiveAddr pre n next a

/-- Canonical form (R39 step 1): bits 63 to VA_BITS-1 all equal. -/
def canonical (va : VaBits) (a : Word) : Bool :=
  match va with
  | .va48 => (a.setWidth 48).signExtend 64 == a
  | .va57 => (a.setWidth 57).signExtend 64 == a

end Sys2Proof.Machine
end

