-- ==== Sys2Proof/Machine/Ops.lean ====
section
/-! DEFINITION. The named operations: memory and translation (20_memory.md), exceptions (60_exceptions.md), vector register writes (R22),
and the two moves every meaning is built from. -/

namespace Sys2Proof.Machine

/-! ## Memory (R25, R30, R35, R36) -/

/-- What a byte nothing has written reads as. DESIGN CHOICE (log 3). -/
def Memory.unlisted : Byte := 0

/-- The canonical form: addresses strictly rising and inside the 64-bit space, no entry equal to an unlisted byte. -/
abbrev Memory.wf (m : Memory) : Prop :=
  m.Pairwise (fun c d => c.1 < d.1) ∧ ∀ c ∈ m, c.1 < 2 ^ 64 ∧ c.2 ≠ Memory.unlisted

/-- The byte at an address. -/
def Memory.read : Memory → Nat → Byte
  | [], _ => Memory.unlisted
  | (b, v) :: m, a => if a = b then v else Memory.read m a

/-- Write one byte, keeping the canonical form. -/
def Memory.write : Memory → Nat → Byte → Memory
  | [], a, v => if v = Memory.unlisted then [] else [(a, v)]
  | (b, w) :: m, a, v =>
    if a < b then (if v = Memory.unlisted then (b, w) :: m else (a, v) :: (b, w) :: m)
    else if a = b then (if v = Memory.unlisted then m else (a, v) :: m)
    else (b, w) :: Memory.write m a v

/-- The byte address `la + off`, modulo 2^64 (R6). -/
def byteAddr (la : Word) (off : Nat) : Word := la + BitVec.ofNat 64 off

/-- The bytes at the addresses `addr 0` to `addr (n - 1)` as a value, byte `i` in bits `[8i+7:8i]` (R30, R35); bytes not
selected by `sel` are not read. -/
def Memory.readBytes (m : Memory) (addr : Nat → Word) (sel : Nat → Bool) : Nat → Vec
  | 0 => 0
  | n + 1 =>
    Memory.readBytes m addr sel n |||
      (if sel n then (m.read (addr n).toNat).setWidth 512 <<< (8 * n) else 0)

/-- Write bits `[8i+7:8i]` of `v` to the address `addr i` for each selected `i < n` (R36). -/
def Memory.writeBytes (m : Memory) (addr : Nat → Word) (v : Vec) (sel : Nat → Bool) : Nat → Memory
  | 0 => m
  | n + 1 =>
    if sel n then
      (Memory.writeBytes m addr v sel n).write (addr n).toNat (v.extractLsb' (8 * n) 8)
    else Memory.writeBytes m addr v sel n

/-! ## Translation (R38, D22) -/

/-- The answer of a row for an address of its page: the frame with the address's offset in the page. -/
def PageEntry.answer (e : PageEntry) (a : Word) : Translation :=
  match e with
  | .frame f t => .ok (f ++ a.extractLsb' 0 12) t
  | .pageFault code => .pageFault code

/-- The answer for an address whose page has no row. -/
def PageDefault.answer (d : PageDefault) (a : Word) : Translation :=
  match d with
  | .identity t => .ok a t
  | .pageFault code => .pageFault code

/-- `Translate(la, kind, cpl)` (R38). DESIGN CHOICE (log 4): the frame may depend on the kind of access and on the privilege
level, so a load, a store and a fetch of one linear address may reach different bytes; R38 does not say. -/
def State.translate (s : State) (a : Word) (kind : AccessKind) : Translation :=
  match s.pages.find? (fun r => r.page == a.extractLsb' 12 52 && r.kind == kind && r.cpl == s.cpl) with
  | some r => r.entry.answer a
  | none => s.pageDefault.answer a

/-- Whether the answer is ordinary write-back memory, the only one with a meaning (R38, R47). -/
def Translation.isWriteBack : Translation → Bool
  | .ok _ t => t == .writeBack
  | .pageFault _ => false

/-- The physical address of a linear address. Where `Translate` page-faults nothing is accessed, and the answer is the
linear address itself. -/
def State.physAddr (s : State) (kind : AccessKind) (a : Word) : Word :=
  match s.translate a kind with
  | .ok pa _ => pa
  | .pageFault _ => a

/-- The physical address of byte `i` of an operand at linear address `la` (R30, R38). -/
def State.bytePa (s : State) (kind : AccessKind) (la : Word) (i : Nat) : Word := s.physAddr kind (byteAddr la i)

/-! ## The program's bytes (R45, R165; log 9) -/

/-- Whether a linear address holds a byte of the program. -/
def State.inProgram (s : State) (a : Nat) : Bool :=
  match s.program with
  | none => false
  | some p => decide (p.start ≤ a) && decide (a < p.stop)

/-- Whether the byte at linear address `x` is fetched from physical address `pa`. -/
def State.fetchesFrom (s : State) (x pa : Word) : Bool :=
  match s.translate x .fetch with
  | .ok pa' _ => pa' == pa
  | .pageFault _ => false

/-- Whether a byte of the program is fetched from physical address `pa`. Only the pages with a row and `pa`'s own page can
be mapped there. -/
def State.holdsProgram (s : State) (pa : Word) : Bool :=
  (pa :: s.pages.map fun r => r.page ++ pa.extractLsb' 0 12).any fun x => s.inProgram x.toNat && s.fetchesFrom x pa

/-- Whether a store to linear address `a` writes a byte of the program: by that address, or because the program is fetched
from the physical byte it writes. -/
def State.storesProgram (s : State) (a : Word) : Bool := s.inProgram a.toNat || s.holdsProgram (s.physAddr .write a)

/-! ## Taking an exception (R141, R142) -/

/-- `raise #XX` (R7): the instruction ends with the exception and nothing is changed (R141). The spec describes no
handler entry and no return: the fault ends the run (R142, R143, R165). -/
def raise (f : Fault) : Out := .fault f

/-- The vector of an exception (R130). -/
def Fault.vector : Fault → Nat
  | .ud => 6
  | .nm => 7
  | .ss => 12
  | .gp => 13
  | .pf _ _ => 14

/-- The error code of an exception (R130): none for #UD and #NM, 0 for #SS(0) and #GP(0), `Translate`'s for #PF. -/
def Fault.errorCode : Fault → Option (BitVec 32)
  | .ud => none
  | .nm => none
  | .ss => some 0
  | .gp => some 0
  | .pf code _ => some code

/-- The faulting linear address, "architecturally CR2" (R130, R137). -/
def Fault.linearAddress : Fault → Option Word
  | .ud => none
  | .nm => none
  | .ss => none
  | .gp => none
  | .pf _ a => some a

/-- Why an access stops: an exception, or a refusal of the model. -/
inductive Stop where
  | fault (f : Fault)
  | refuse (r : Refusal)
deriving DecidableEq, Repr

/-- The outcome of a stop. -/
def Stop.out : Stop → Out
  | .fault f => raise f
  | .refuse r => .refused r

/-! ## The checks of an access (R39) -/

/-- A memory operand: segment, linear address, shape and effective mask (R31, R35, R36). -/
structure Access where
  seg : Seg
  la : Word
  sh : Shape
  m : BitVec 16
deriving DecidableEq, Repr

/-- The selected elements, in rising order. -/
def Access.selected (a : Access) : List Nat := (List.range a.sh.kl).filter fun j => a.m.getLsbD j

/-- Whether byte `i` of the operand belongs to a selected element. -/
def Access.byteSelected (a : Access) (i : Nat) : Bool :=
  decide (i < a.sh.bytes) && a.m.getLsbD (i / a.sh.elem)

/-- The offsets of the bytes the access really touches (R35, R36). -/
def Access.touched (a : Access) : List Nat := (List.range a.sh.bytes).filter a.byteSelected

/-- The alignment test: the linear address of the whole operand (R31, R32 (a), (b)). -/
def Access.misaligned (a : Access) : Bool := a.la.toNat % a.sh.bytes != 0

/-- Whether an accessed byte has a non-canonical address (R39 step 1, R136). -/
def State.nonCanonical (s : State) (a : Access) : Bool :=
  a.touched.any fun i => !canonical s.cfg.vaBits (byteAddr a.la i)

/-- What a misaligned operand with no selected element does (R32 (c)): whether it faults. -/
def State.zeroMaskFaults (s : State) : Bool :=
  match s.cfg.zeroMaskAlignFault with
  | .gp => true
  | .noFault => false
  | .either => Config.freeZeroMaskGp s.freeCtr

/-- The fault of an SS-relative operand that is non-canonical and misaligned (R39). -/
def State.ssChoice (s : State) : Fault :=
  match s.cfg.ssNoncanonMisaligned with
  | .gp => .gp
  | .ss => .ss
  | .either => if Config.freeSsNoncanonSs s.freeCtr then .ss else .gp

/-- R39 step 3 for the element at linear address `a`: a page fault carries its code and `a` (R137, log 7), and only
write-back memory has a meaning (R47). -/
def State.elementCheck (s : State) (kind : AccessKind) (a : Word) : Option Stop :=
  match s.translate a kind with
  | .ok _ .writeBack => none
  | .ok _ .uncacheable => some (.refuse (.memoryType .uncacheable))
  | .ok _ .writeCombining => some (.refuse (.memoryType .writeCombining))
  | .ok _ .writeThrough => some (.refuse (.memoryType .writeThrough))
  | .ok _ .writeProtected => some (.refuse (.memoryType .writeProtected))
  | .ok _ .device => some (.refuse (.memoryType .device))
  | .pageFault code => some (.fault (.pf code a))

/-- R39 step 3: the selected elements in rising order. -/
def State.translateCheck (s : State) (kind : AccessKind) (a : Access) : Option Stop :=
  a.selected.findSome? fun j => s.elementCheck kind (byteAddr a.la (a.sh.elem * j))

/-- R45: whether the bytes an access writes overlap the program. -/
def State.hitsProgram (s : State) (a : Access) : Bool :=
  a.touched.any fun i => s.storesProgram (byteAddr a.la i)

/-- The checks of R39 in its order; with no selected element only R32 (c) applies (R35, R36). -/
def State.accessCheck (s : State) (kind : AccessKind) (a : Access) : Option Stop :=
  if a.selected.isEmpty then
    if a.misaligned && s.zeroMaskFaults then some (.fault .gp) else none
  else if s.nonCanonical a then
    if a.seg = .ss then some (.fault (if a.misaligned then s.ssChoice else .ss)) else some (.fault .gp)
  else if a.misaligned then some (.fault .gp)
  else
    match s.translateCheck kind a with
    | some st => some st
    | none => if kind = .write ∧ s.hitsProgram a = true then some (.refuse .storeIntoProgram) else none

/-- Whether completing this access used up an open choice (R32 (c) under `either`). -/
def State.usesChoice (s : State) (a : Access) : Bool :=
  a.selected.isEmpty && a.misaligned && s.cfg.zeroMaskAlignFault == .either

/-- The next open choice, if this access used one (log 6). -/
def State.advanceChoice (s : State) (a : Access) : State :=
  if s.usesChoice a then { s with freeCtr := s.freeCtr + 1 } else s

/-- `MemRead` / `MemReadMasked` after the checks (R35). -/
def State.loadOperand (s : State) (a : Access) : Vec :=
  s.mem.readBytes (s.bytePa .read a.la) a.byteSelected a.sh.bytes

/-- `MemWrite` / `MemWriteMasked` after the checks (R36). -/
def State.storeOperand (s : State) (a : Access) (v : Vec) : State :=
  { s with mem := s.mem.writeBytes (s.bytePa .write a.la) v a.byteSelected a.sh.bytes }

/-! ## Vector register writes (R22) -/

/-- Elements 0 to `n - 1` of `8 * es` bits: from `src` where selected, else 0 (`z`) or from `old` (R95 (a)); the bits
above are 0. -/
def blend (es : Nat) (m : BitVec 16) (z : Bool) (src old : Vec) : Nat → Vec
  | 0 => 0
  | j + 1 =>
    blend es m z src old j |||
      ((if m.getLsbD j then src.extractLsb' (8 * es * j) (8 * es)
        else if z then 0 else old.extractLsb' (8 * es * j) (8 * es)).setWidth 512 <<< (8 * es * j))

/-- What an instruction of the family does, whatever its direction: the #UD condition, the upper-bits class (R22),
shape, effective mask and masking mode, the `disp8` factor (R62), the prefixes and the length. -/
structure Move where
  ud : Bool
  keepUpper : Bool
  sh : Shape
  m : BitVec 16
  z : Bool
  scale : Nat
  pre : List Prefix
  len : Nat
deriving DecidableEq, Repr

/-- The new value of a destination register (R22): legacy keeps bits 511:128, VEX and EVEX zero the bits above VL. -/
def Move.result (mv : Move) (src old : Vec) : Vec :=
  if mv.keepUpper then old.extractLsb' 128 384 ++ src.extractLsb' 0 128
  else blend mv.sh.elem mv.m mv.z src old mv.sh.kl

/-- The memory operand of a move (R40, R64 to R66). -/
def State.access (s : State) (mv : Move) (a : Addr) : Access where
  seg := segOf mv.pre a
  la := s.linearAddr mv.pre mv.scale (s.rip + BitVec.ofNat 64 mv.len) a
  sh := mv.sh
  m := mv.m

/-- `rip <- rip + len` (R11). -/
def State.retire (s : State) (len : Nat) : State := { s with rip := s.rip + BitVec.ofNat 64 len }

/-- The tests before any operand is touched (R140 items 2 and 3): #UD, then #NM. Between them the model refuses the
other operating modes (R74, log 12). -/
def guarded (ud : Bool) (s : State) (k : Out) : Out :=
  if ud then raise .ud
  else if s.mode ≠ .mode64 then .refused (.otherMode s.mode)
  else if s.cr0Ts then raise .nm
  else k

/-- Register-copy form (R59): the source is read before the destination is written (R162). -/
def regCopy (mv : Move) (d r : VReg) (s : State) : Out :=
  .next ((s.setVec d (mv.result (s.vec r) (s.vec d))).retire mv.len)

/-- Load form (R35). -/
def loadMem (mv : Move) (d : VReg) (a : Addr) (s : State) : Out :=
  match s.accessCheck .read (s.access mv a) with
  | some st => st.out
  | none =>
    .next (((s.setVec d (mv.result (s.loadOperand (s.access mv a)) (s.vec d))).advanceChoice
      (s.access mv a)).retire mv.len)

/-- Store form (R36): no register is written. -/
def storeMem (mv : Move) (a : Addr) (r : VReg) (s : State) : Out :=
  match s.accessCheck .write (s.access mv a) with
  | some st => st.out
  | none => .next (((s.storeOperand (s.access mv a) (s.vec r)).advanceChoice (s.access mv a)).retire mv.len)

/-- The 6FH rows: ModRM:reg is written, ModRM:r/m is read (R59, Op/En A and C). -/
def moveToReg (mv : Move) (d : VReg) (src : Operand) (s : State) : Out :=
  guarded mv.ud s (match src with
    | .reg r => regCopy mv d r s
    | .mem a => loadMem mv d a s)

/-- The 7FH rows: ModRM:r/m is written, ModRM:reg is read (R59, Op/En B and D). -/
def moveFromReg (mv : Move) (dst : Operand) (r : VReg) (s : State) : Out :=
  guarded mv.ud s (match dst with
    | .reg d => regCopy mv d r s
    | .mem a => storeMem mv a r s)

/-- A legacy move (R80): 128 bits, upper bits kept, no mask. -/
def legMove (o : LegOps) (s : State) : Move where
  ud := udLeg o.pre s
  keepUpper := true
  sh := Shape.whole .v128
  m := allSelected 1
  z := false
  scale := 1
  pre := o.pre
  len := o.len

/-- A VEX move (R85): upper bits zeroed, no mask. -/
def vexMove (vl : VLen) (o : VexOps) (s : State) : Move where
  ud := udVex (forbiddenBeforeVex o.pre) s
  keepUpper := false
  sh := Shape.whole vl
  m := allSelected 1
  z := false
  scale := 1
  pre := o.pre
  len := o.len

/-- An EVEX move (R95, R105): masked elements of `sh`, upper bits zeroed, `disp8` scaled by VL/8 (R62). `store`: a 7FH
row, where `z` = 1 with a memory destination is #UD (R69). -/
def evexMove (vl : VLen) (sh : Shape) (store : Bool) (o : EvexOps) (s : State) : Move where
  ud := udEvex vl (forbiddenBeforeVex o.pre) (o.z && (o.aaa == 0 || (store && o.rm.isMem))) s
  keepUpper := false
  sh := sh
  m := effectiveMask s o.aaa sh.kl
  z := o.z
  scale := vl.bytes
  pre := o.pre
  len := o.len

end Sys2Proof.Machine
end

