-- ==== Sys2Proof/Machine/Movdqa.lean ====
section
/-! DEFINITION. MOVDQA, the legacy SSE encodings (40_movdqa_sse.md). -/

namespace Sys2Proof.Machine

/-- `MOVDQA xmm1, xmm2/m128` (R81). -/
def execMovdqaLoad (o : LegOps) (s : State) : Out := moveToReg (legMove o s) o.reg o.rm s

/-- `MOVDQA xmm2/m128, xmm1` (R82). -/
def execMovdqaStore (o : LegOps) (s : State) : Out := moveFromReg (legMove o s) o.rm o.reg s

end Sys2Proof.Machine
end

