-- ==== Sys2Proof/Machine/Vmovdqa.lean ====
section
/-! DEFINITION. VMOVDQA, the VEX encodings (41_vmovdqa_vex.md). -/

namespace Sys2Proof.Machine

/-- `VMOVDQA xmm1, xmm2/m128` (R86). -/
def execVmovdqaXmmLoad (o : VexOps) (s : State) : Out := moveToReg (vexMove .v128 o s) o.reg o.rm s

/-- `VMOVDQA xmm2/m128, xmm1` (R87). -/
def execVmovdqaXmmStore (o : VexOps) (s : State) : Out := moveFromReg (vexMove .v128 o s) o.rm o.reg s

/-- `VMOVDQA ymm1, ymm2/m256` (R88). -/
def execVmovdqaYmmLoad (o : VexOps) (s : State) : Out := moveToReg (vexMove .v256 o s) o.reg o.rm s

/-- `VMOVDQA ymm2/m256, ymm1` (R89). -/
def execVmovdqaYmmStore (o : VexOps) (s : State) : Out := moveFromReg (vexMove .v256 o s) o.rm o.reg s

end Sys2Proof.Machine
end

