-- ==== Sys2Proof/Machine/Vmovdqa32.lean ====
section
/-! DEFINITION. VMOVDQA32, the EVEX encodings with W = 0 (42_vmovdqa32_evex.md). -/

namespace Sys2Proof.Machine

/-- `VMOVDQA32 xmm1 {k1}{z}, xmm2/m128` (R96). -/
def execVmovdqa32XmmLoad (o : EvexOps) (s : State) : Out :=
  moveToReg (evexMove .v128 (Shape.dword .v128) false o s) o.reg o.rm s

/-- `VMOVDQA32 ymm1 {k1}{z}, ymm2/m256` (R97). -/
def execVmovdqa32YmmLoad (o : EvexOps) (s : State) : Out :=
  moveToReg (evexMove .v256 (Shape.dword .v256) false o s) o.reg o.rm s

/-- `VMOVDQA32 zmm1 {k1}{z}, zmm2/m512` (R98). -/
def execVmovdqa32ZmmLoad (o : EvexOps) (s : State) : Out :=
  moveToReg (evexMove .v512 (Shape.dword .v512) false o s) o.reg o.rm s

/-- `VMOVDQA32 xmm2/m128 {k1}{z}, xmm1` (R99). -/
def execVmovdqa32XmmStore (o : EvexOps) (s : State) : Out :=
  moveFromReg (evexMove .v128 (Shape.dword .v128) true o s) o.rm o.reg s

/-- `VMOVDQA32 ymm2/m256 {k1}{z}, ymm1` (R100). -/
def execVmovdqa32YmmStore (o : EvexOps) (s : State) : Out :=
  moveFromReg (evexMove .v256 (Shape.dword .v256) true o s) o.rm o.reg s

/-- `VMOVDQA32 zmm2/m512 {k1}{z}, zmm1` (R101). -/
def execVmovdqa32ZmmStore (o : EvexOps) (s : State) : Out :=
  moveFromReg (evexMove .v512 (Shape.dword .v512) true o s) o.rm o.reg s

end Sys2Proof.Machine
end

