-- ==== Sys2Proof/Machine/Vmovdqa64.lean ====
section
/-! DEFINITION. VMOVDQA64, the EVEX encodings with W = 1 (43_vmovdqa64_evex.md). -/

namespace Sys2Proof.Machine

/-- `VMOVDQA64 xmm1 {k1}{z}, xmm2/m128` (R106). -/
def execVmovdqa64XmmLoad (o : EvexOps) (s : State) : Out :=
  moveToReg (evexMove .v128 (Shape.qword .v128) false o s) o.reg o.rm s

/-- `VMOVDQA64 ymm1 {k1}{z}, ymm2/m256` (R107). -/
def execVmovdqa64YmmLoad (o : EvexOps) (s : State) : Out :=
  moveToReg (evexMove .v256 (Shape.qword .v256) false o s) o.reg o.rm s

/-- `VMOVDQA64 zmm1 {k1}{z}, zmm2/m512` (R108). -/
def execVmovdqa64ZmmLoad (o : EvexOps) (s : State) : Out :=
  moveToReg (evexMove .v512 (Shape.qword .v512) false o s) o.reg o.rm s

/-- `VMOVDQA64 xmm2/m128 {k1}{z}, xmm1` (R109). -/
def execVmovdqa64XmmStore (o : EvexOps) (s : State) : Out :=
  moveFromReg (evexMove .v128 (Shape.qword .v128) true o s) o.rm o.reg s

/-- `VMOVDQA64 ymm2/m256 {k1}{z}, ymm1` (R110). -/
def execVmovdqa64YmmStore (o : EvexOps) (s : State) : Out :=
  moveFromReg (evexMove .v256 (Shape.qword .v256) true o s) o.rm o.reg s

/-- `VMOVDQA64 zmm2/m512 {k1}{z}, zmm1` (R111). -/
def execVmovdqa64ZmmStore (o : EvexOps) (s : State) : Out :=
  moveFromReg (evexMove .v512 (Shape.qword .v512) true o s) o.rm o.reg s

end Sys2Proof.Machine
end

