-- ==== Sys2Proof/Machine/Dispatch.lean ====
section
/-! DEFINITION. The meaning of each instruction, one arm per constructor. -/

namespace Sys2Proof.Machine

def exec (i : Instr) (s : State) : Host.Outcome State Fault Refusal :=
  match i with
  | .movdqaLoad o => Sys2Proof.Machine.execMovdqaLoad o s
  | .movdqaStore o => Sys2Proof.Machine.execMovdqaStore o s
  | .vmovdqaXmmLoad o => Sys2Proof.Machine.execVmovdqaXmmLoad o s
  | .vmovdqaXmmStore o => Sys2Proof.Machine.execVmovdqaXmmStore o s
  | .vmovdqaYmmLoad o => Sys2Proof.Machine.execVmovdqaYmmLoad o s
  | .vmovdqaYmmStore o => Sys2Proof.Machine.execVmovdqaYmmStore o s
  | .vmovdqa32XmmLoad o => Sys2Proof.Machine.execVmovdqa32XmmLoad o s
  | .vmovdqa32YmmLoad o => Sys2Proof.Machine.execVmovdqa32YmmLoad o s
  | .vmovdqa32ZmmLoad o => Sys2Proof.Machine.execVmovdqa32ZmmLoad o s
  | .vmovdqa32XmmStore o => Sys2Proof.Machine.execVmovdqa32XmmStore o s
  | .vmovdqa32YmmStore o => Sys2Proof.Machine.execVmovdqa32YmmStore o s
  | .vmovdqa32ZmmStore o => Sys2Proof.Machine.execVmovdqa32ZmmStore o s
  | .vmovdqa64XmmLoad o => Sys2Proof.Machine.execVmovdqa64XmmLoad o s
  | .vmovdqa64YmmLoad o => Sys2Proof.Machine.execVmovdqa64YmmLoad o s
  | .vmovdqa64ZmmLoad o => Sys2Proof.Machine.execVmovdqa64ZmmLoad o s
  | .vmovdqa64XmmStore o => Sys2Proof.Machine.execVmovdqa64XmmStore o s
  | .vmovdqa64YmmStore o => Sys2Proof.Machine.execVmovdqa64YmmStore o s
  | .vmovdqa64ZmmStore o => Sys2Proof.Machine.execVmovdqa64ZmmStore o s

end Sys2Proof.Machine
end

