-- ==== Sys2Proof/Machine/Fetch.lean ====
section
/-! DEFINITION. Fetching an instruction's bytes (R11, R30, R33, R153, R165) and the launch state (R161, R166). -/

namespace Sys2Proof.Machine

/-- The instruction byte at a linear address (R11, R30), if the program may lie there: in ordinary memory, executable, and
readable, a read reaching the very byte that is fetched (R166 (c), R47). -/
def State.fetchByte (s : State) (a : Nat) : Option Byte :=
  if a < 2 ^ 64 then
    match s.translate (BitVec.ofNat 64 a) .fetch with
    | .ok pa .writeBack =>
      if s.translate (BitVec.ofNat 64 a) .read = .ok pa .writeBack then some (s.mem.read pa.toNat) else none
    | _ => none
  else none

/-- At most `n` bytes from `a` upwards, up to the first that cannot be fetched. -/
def State.fetchBytes (s : State) : Nat → Nat → List Byte
  | 0, _ => []
  | n + 1, a =>
    match s.fetchByte a with
    | some b => b :: s.fetchBytes n (a + 1)
    | none => []

/-- A number of bytes that is enough for `decode`: a prefix byte is no unlisted byte, so it lies in a page with a row or at
a listed address, and at most 11 bytes follow a run of prefixes. -/
def State.fetchFuel (s : State) : Nat := s.mem.length + 4096 * s.pages.length + 16

/-- The bytes from `rip` upwards, as many as `decode` may need. -/
def State.fetchWindow (s : State) : List Byte := s.fetchBytes s.fetchFuel s.rip.toNat

/-- Whether `rip` to `rip + n` are canonical and do not wrap (R11, U9). -/
def State.fetchCanonical (s : State) (n : Nat) : Bool :=
  (List.range (n + 1)).all fun i =>
    decide (s.rip.toNat + i < 2 ^ 64) && canonical s.cfg.vaBits (byteAddr s.rip i)

/-- Whether the `n` bytes from `rip` lie inside the declared program (R165, R166 (d)). -/
def State.programHolds (s : State) (n : Nat) : Bool :=
  match s.program with
  | none => false
  | some p => decide (p.start ≤ s.rip.toNat) && decide (s.rip.toNat + n ≤ p.stop)

/-- An outcome that needs the `n` instruction bytes from `rip`: refused unless they are canonical (R11, U9) and the
program's own (R165, R166; so that no store has changed them, R45). -/
def State.fetched (s : State) (n : Nat) (out : Out) : Out :=
  if !s.fetchCanonical n then .refused .fetchNotCanonical
  else if !s.programHolds n then .refused .outsideProgram
  else out

/-- Whether the run has ended: `rip` is the address just after the program (R165). -/
def State.atEnd (s : State) : Bool :=
  match s.program with
  | none => false
  | some p => s.rip.toNat == p.stop

/-! ## The launch (R161, R166; log 10) -/

/-- The control bits that system software sets (R161), and 64-bit mode (R18, R166 (a), (b)). -/
def State.boot (s : State) : State :=
  { s with
    efer := s.efer ||| 0x400
    csL := true
    cr0 := (s.cr0 ||| 0x80000001) &&& ~~~0xC#64
    cr4 := s.cr4 ||| 0x40200
    xcr0 := s.xcr0 ||| 0xE6 }

/-- A launched machine: 64-bit mode and RFLAGS.TF = 0 (R166 (a), (b), (f)); a machine in 64-bit mode keeps its
control bits. -/
def State.launched (s : State) : State :=
  { (if s.mode = .mode64 then s else s.boot) with rflags := s.rflags &&& ~~~0x100#64 }

/-- Map the page of an address to a frame of ordinary memory for one kind of access, if it is not yet mapped there. -/
def State.mapPage (s : State) (kind : AccessKind) (f : BitVec 52) (a : Word) : State :=
  if s.translate a kind = .ok (f ++ a.extractLsb' 0 12) .writeBack then s
  else { s with pages := ⟨a.extractLsb' 12 52, kind, s.cpl, .frame f .writeBack⟩ :: s.pages }

/-- The frame in which a program at an address is placed: that of its fetches if they reach ordinary memory, else that of its
reads if those do, else the identity frame or the one its fetches are sent to (log 10). -/
def State.codeFrame (s : State) (a : Word) : BitVec 52 :=
  if !(s.translate a .fetch).isWriteBack && (s.translate a .read).isWriteBack then (s.physAddr .read a).extractLsb' 12 52
  else (s.physAddr .fetch a).extractLsb' 12 52

/-- Make the page of an address executable and readable in one frame of ordinary memory (R166 (c)). -/
def State.mapCode (s : State) (a : Word) : State :=
  (s.mapPage .fetch (s.codeFrame a) a).mapPage .read (s.codeFrame a) a

/-- Write a list of bytes from linear address `a` upwards, where `addr` gives the physical addresses. -/
def Memory.place (m : Memory) (addr : Word → Word) (a : Word) : List Byte → Memory
  | [] => m
  | b :: bs => Memory.place (m.write (addr a).toNat b) addr (a + 1) bs

/-- The number of bytes of the instruction at the head of `bs`, or `n` if there is none. -/
def instrLength (n : Nat) (bs : List Byte) : Nat :=
  match decode bs with
  | .insn i => i.len
  | .ud k => k
  | .gp0 k => k
  | .notThisFamily => n
  | .truncated => n

/-- A machine launched with the pages of `n` bytes from `rip` ready for a program (R166 (a) to (c), (f)). -/
def State.ready (s : State) (n : Nat) : State := (s.launched.mapCode s.rip).mapCode (byteAddr s.rip (n - 1))

/-- A program of one instruction, loaded at `rip` and launched (R165, R166 (c), (d)). -/
def State.load (s : State) (n : Nat) (bs : List Byte) : State :=
  { s.ready bs.length with
    mem := s.mem.place ((s.ready bs.length).physAddr .fetch) s.rip bs
    program := some ⟨s.rip.toNat, s.rip.toNat + instrLength n bs⟩ }

end Sys2Proof.Machine
end

