-- ==== Sys2Proof/Machine/Step.lean ====
section
/-! DEFINITION. One step of the machine. -/

namespace Sys2Proof.Machine

/-- One step: the instruction at `rip` (R11, R78, R164, R165). The tests before decoding are premises of the spec's
rules: 64-bit mode (R74), no single-stepping (R166 (f)), the run not ended (R165). `truncated`: a byte the decoder needs
cannot be fetched (R153, R166 (c)). -/
def step (s : State) : Host.Outcome State Fault Refusal :=
  if s.mode ≠ .mode64 then .refused (.otherMode s.mode)
  else if s.flagTf then .refused .singleStepArmed
  else if s.atEnd then .refused .endOfProgram
  else
    match decode s.fetchWindow with
    | .insn i => s.fetched i.len (exec i s)
    | .ud n => s.fetched n (raise .ud)
    | .gp0 n => s.fetched n (raise .gp)
    | .notThisFamily => .refused .notThisFamily
    | .truncated => .refused .fetchNotExecutable

/-- `s` with the instruction of a table word loaded where `step` fetches (log 10, log 11). -/
def State.withFetchWord (s : State) (nbits w : Nat) : State := s.load ((nbits + 7) / 8) (tableBytes nbits w)

end Sys2Proof.Machine
end

