-- ==== Sys2Proof/WellFormed.lean ====
section
/-! DEFINITION. Well-formed instructions: exactly the operands and prefixes an encoding admits (R50 to R73). -/

namespace Sys2Proof

/-- An address form ModRM and SIB can spell (R64): a base whose low three bits are 100b needs a SIB byte, and one
whose low three bits are 101b needs a displacement. -/
abbrev Addr.WellFormed : Addr → Prop
  | .base b d => b.extractLsb' 0 3 ≠ 4 ∧ (d = .zero → b.extractLsb' 0 3 ≠ 5)
  | .sib b _ _ d => d = .zero → b.extractLsb' 0 3 ≠ 5
  | .sibNoBase _ _ _ => True
  | .ripRel _ => True

/-- An `r/m` operand an encoding can spell: any register, or a well-formed address. -/
abbrev Operand.WellFormed : Operand → Prop
  | .reg _ => True
  | .mem a => a.WellFormed

/-- A register operand of `LEG` and `VEX` is numbered 0 to 15 (R63). -/
abbrev Operand.regBelow16 : Operand → Prop
  | .reg n => n.getLsbD 4 = false
  | .mem _ => True

/-- `LEG` (R51 to R53, R71): 66H present, no F2H, F3H, LOCK; without REX no register above 7, and no byte 40H to
4FH last (it would be a REX prefix, R52); at most 15 bytes (R73). -/
abbrev LegOps.WellFormed (o : LegOps) : Prop :=
  Prefix.opSize ∈ o.pre ∧ Prefix.repne ∉ o.pre ∧ Prefix.rep ∉ o.pre ∧ Prefix.lock ∉ o.pre ∧
  (o.rex = false → endsInRex o.pre = false ∧ o.reg.getLsbD 3 = false ∧ o.rm.extX = false ∧ o.rm.extB = false) ∧
  o.reg.getLsbD 4 = false ∧ o.rm.regBelow16 ∧ o.rm.WellFormed ∧ o.len ≤ 15

/-- `VEX` (R54, R55, R70): no 66H, F2H, F3H, LOCK or REX before it; `X` and `B` need the three-byte form; at most 15
bytes (R73). -/
abbrev VexOps.WellFormed (o : VexOps) : Prop :=
  forbiddenBeforeVex o.pre = false ∧ (o.three = false → o.rm.extX = false ∧ o.rm.extB = false) ∧
  o.reg.getLsbD 4 = false ∧ o.rm.regBelow16 ∧ o.rm.WellFormed ∧ o.len ≤ 15

/-- `EVEX` (R56, R58, R69): no 66H, F2H, F3H, LOCK or REX before it; `z` = 1 needs a writemask and, in the 7FH rows
(`store`), a register destination; at most 15 bytes (R73). -/
abbrev EvexOps.WellFormed (store : Bool) (o : EvexOps) : Prop :=
  forbiddenBeforeVex o.pre = false ∧ (o.z = true → o.aaa ≠ 0 ∧ (store = true → o.rm.isMem = false)) ∧
  o.rm.WellFormed ∧ o.len ≤ 15

/-- Well-formed instructions. -/
abbrev Instr.WellFormed : Instr → Prop
  | .movdqaLoad o => o.WellFormed
  | .movdqaStore o => o.WellFormed
  | .vmovdqaXmmLoad o => o.WellFormed
  | .vmovdqaXmmStore o => o.WellFormed
  | .vmovdqaYmmLoad o => o.WellFormed
  | .vmovdqaYmmStore o => o.WellFormed
  | .vmovdqa32XmmLoad o => o.WellFormed false
  | .vmovdqa32YmmLoad o => o.WellFormed false
  | .vmovdqa32ZmmLoad o => o.WellFormed false
  | .vmovdqa32XmmStore o => o.WellFormed true
  | .vmovdqa32YmmStore o => o.WellFormed true
  | .vmovdqa32ZmmStore o => o.WellFormed true
  | .vmovdqa64XmmLoad o => o.WellFormed false
  | .vmovdqa64YmmLoad o => o.WellFormed false
  | .vmovdqa64ZmmLoad o => o.WellFormed false
  | .vmovdqa64XmmStore o => o.WellFormed true
  | .vmovdqa64YmmStore o => o.WellFormed true
  | .vmovdqa64ZmmStore o => o.WellFormed true

end Sys2Proof
end

