-- ==== Sys2Proof/Safety.lean ====
section
/-! DEFINITION. What a safe run is, in the terms the statements use: the invariant, the conditions under which an encoding
executes (R161), and the conditions under which a memory operand may be accessed (R39, R45, R47). -/

namespace Sys2Proof.Machine

/-- The invariant every step keeps: memory has its canonical form. -/
def State.Inv (s : State) : Prop := Memory.wf s.mem

/-- R161, first line, in 64-bit mode. -/
abbrev LegEnabled (s : State) : Prop :=
  s.mode = .mode64 ∧ s.cr0Em = false ∧ s.cr4Osfxsr = true ∧ s.cr0Ts = false ∧ s.cfg.hasSse2 = true

/-- R161, second line, in 64-bit mode. -/
abbrev VexEnabled (s : State) : Prop :=
  s.mode = .mode64 ∧ s.cr4Osxsave = true ∧ s.xcr0Avx = true ∧ s.cr0Ts = false ∧ s.cfg.hasAvx = true

/-- R161, third line, in 64-bit mode, for vector length `vl`. -/
abbrev EvexEnabled (vl : VLen) (s : State) : Prop :=
  s.mode = .mode64 ∧ s.cr4Osxsave = true ∧ s.xcr0Avx = true ∧ s.xcr0Avx512 = true ∧ s.cr0Ts = false ∧
    s.cfg.hasAvx512f = true ∧ (vl ≠ .v512 → s.cfg.hasAvx512vl = true)

/-- The vector length of a VEX row by its `L` bit (R57). -/
def vexLen (l : Bool) : VLen := if l then .v256 else .v128

/-- The element size in bytes of an EVEX row by its `W` bit (R57). -/
def evexElem (w : Bool) : Nat := if w then 8 else 4

/-- Whether element `j` is selected by the writemask field `aaa` (R9, R58). -/
def selects (s : State) (aaa : KReg) (j : Nat) : Bool := aaa == 0 || (s.opmask aaa).getLsbD j

/-- Whether a byte may be accessed: canonical (R39 step 1), translated to ordinary write-back memory (R39 step 3, R47)
and, for a store, outside the program (R45). -/
abbrev byteAllowed (s : State) (kind : AccessKind) (a : Word) : Prop :=
  canonical s.cfg.vaBits a = true ∧ (s.translate a kind).isWriteBack = true ∧
    (kind = .write → s.storesProgram a = false)

/-- Whether an operand of `n` bytes at `la` is aligned and all its bytes that `sel` selects may be accessed. -/
abbrev operandAllowed (s : State) (kind : AccessKind) (la : Word) (n : Nat) (sel : Nat → Bool) : Prop :=
  la.toNat % n = 0 ∧ ∀ i < n, sel i = true → byteAllowed s kind (byteAddr la i)

/-- The linear address of the memory operand of a legacy instruction (R64 to R66, R40). -/
def legAddr (s : State) (o : LegOps) (a : Addr) : Word :=
  s.linearAddr o.pre 1 (s.rip + BitVec.ofNat 64 o.len) a

/-- The linear address of the memory operand of a VEX instruction: `disp8` unscaled (R62). -/
def vexAddr (s : State) (o : VexOps) (a : Addr) : Word :=
  s.linearAddr o.pre 1 (s.rip + BitVec.ofNat 64 o.len) a

/-- The linear address of the memory operand of an EVEX instruction: `disp8` scaled by VL/8 (R62). -/
def evexAddr (vl : VLen) (s : State) (o : EvexOps) (a : Addr) : Word :=
  s.linearAddr o.pre vl.bytes (s.rip + BitVec.ofNat 64 o.len) a

/-- Byte `i` of a vector value (R30). -/
def vecByte (v : Vec) (i : Nat) : Byte := v.extractLsb' (8 * i) 8

/-- What one byte of memory, at a physical address, reads as in a state. -/
def State.byteAt (s : State) (a : Nat) : Byte := s.mem.read a

/-- Every register but `d` is unchanged, and beyond the vector registers only `rip` (advanced by `len`) changed. -/
abbrev onlyRegisterWritten (s t : State) (d : VReg) (len : Nat) : Prop :=
  (∀ n : VReg, n ≠ d → t.vec n = s.vec n) ∧
    t = { s with zmm := t.zmm, rip := s.rip + BitVec.ofNat 64 len }

/-- Beyond memory only `rip` (advanced by `len`) changed, and every byte at a physical address that `stored` does not name
reads as before. -/
abbrev onlyMemoryWritten (s t : State) (stored : Nat → Prop) (len : Nat) : Prop :=
  (∀ a : Nat, ¬ stored a → t.byteAt a = s.byteAt a) ∧
    t = { s with mem := t.mem, rip := s.rip + BitVec.ofNat 64 len }

/-- The outcome with its next state, if any, changed by `f`. -/
def mapOut (f : State → State) : Out → Out
  | .next t => .next (f t)
  | .fault r => .fault r
  | .refused r => .refused r

/-! ## The instruction's side of the rules: which operand, which conditions -/

/-- The access kind of a memory operand: the 6FH rows read it, the 7FH rows write it (R59). -/
def rowKind (store : Bool) : AccessKind := if store then .write else .read

/-- The register a row writes, if its destination is a register (R59). -/
def destReg (store : Bool) (reg : VReg) : Operand → Option VReg
  | .reg n => some (if store then n else reg)
  | .mem _ => if store then none else some reg

/-- The register a row reads, if its source is a register (R59). -/
def srcReg (store : Bool) (reg : VReg) : Operand → Option VReg
  | .reg n => some (if store then reg else n)
  | .mem _ => if store then some reg else none

/-- The memory operand of rows 1 and 2. -/
def legOperand (store : Bool) (o : LegOps) (s : State) : Option (AccessKind × Access) :=
  match o.rm with
  | .reg _ => none
  | .mem a => some (rowKind store, ⟨segOf o.pre a, legAddr s o a, ⟨16, 16⟩, 1⟩)

/-- The memory operand of rows 3 to 6. -/
def vexOperand (l store : Bool) (o : VexOps) (s : State) : Option (AccessKind × Access) :=
  match o.rm with
  | .reg _ => none
  | .mem a => some (rowKind store, ⟨segOf o.pre a, vexAddr s o a, ⟨(vexLen l).bytes, (vexLen l).bytes⟩, 1⟩)

/-- The memory operand of rows 7 to 18, with the effective mask (R9). -/
def evexOperand (w : Bool) (vl : VLen) (store : Bool) (o : EvexOps) (s : State) : Option (AccessKind × Access) :=
  match o.rm with
  | .reg _ => none
  | .mem a => some (rowKind store, ⟨segOf o.pre a, evexAddr vl s o a, ⟨vl.bytes, evexElem w⟩,
      effectiveMask s o.aaa (vl.bytes / evexElem w)⟩)

/-- The memory operand of an instruction: its access kind, segment, linear address, shape and effective mask. -/
def operandOf (i : Instr) (s : State) : Option (AccessKind × Access) :=
  match i with
  | .movdqaLoad o => legOperand false o s
  | .movdqaStore o => legOperand true o s
  | .vmovdqaXmmLoad o => vexOperand false false o s
  | .vmovdqaXmmStore o => vexOperand false true o s
  | .vmovdqaYmmLoad o => vexOperand true false o s
  | .vmovdqaYmmStore o => vexOperand true true o s
  | .vmovdqa32XmmLoad o => evexOperand false .v128 false o s
  | .vmovdqa32YmmLoad o => evexOperand false .v256 false o s
  | .vmovdqa32ZmmLoad o => evexOperand false .v512 false o s
  | .vmovdqa32XmmStore o => evexOperand false .v128 true o s
  | .vmovdqa32YmmStore o => evexOperand false .v256 true o s
  | .vmovdqa32ZmmStore o => evexOperand false .v512 true o s
  | .vmovdqa64XmmLoad o => evexOperand true .v128 false o s
  | .vmovdqa64YmmLoad o => evexOperand true .v256 false o s
  | .vmovdqa64ZmmLoad o => evexOperand true .v512 false o s
  | .vmovdqa64XmmStore o => evexOperand true .v128 true o s
  | .vmovdqa64YmmStore o => evexOperand true .v256 true o s
  | .vmovdqa64ZmmStore o => evexOperand true .v512 true o s

/-- The register an instruction writes, if its destination is a register. -/
def destOf (i : Instr) : Option VReg :=
  match i with
  | .movdqaLoad o => destReg false o.reg o.rm
  | .movdqaStore o => destReg true o.reg o.rm
  | .vmovdqaXmmLoad o => destReg false o.reg o.rm
  | .vmovdqaXmmStore o => destReg true o.reg o.rm
  | .vmovdqaYmmLoad o => destReg false o.reg o.rm
  | .vmovdqaYmmStore o => destReg true o.reg o.rm
  | .vmovdqa32XmmLoad o => destReg false o.reg o.rm
  | .vmovdqa32YmmLoad o => destReg false o.reg o.rm
  | .vmovdqa32ZmmLoad o => destReg false o.reg o.rm
  | .vmovdqa32XmmStore o => destReg true o.reg o.rm
  | .vmovdqa32YmmStore o => destReg true o.reg o.rm
  | .vmovdqa32ZmmStore o => destReg true o.reg o.rm
  | .vmovdqa64XmmLoad o => destReg false o.reg o.rm
  | .vmovdqa64YmmLoad o => destReg false o.reg o.rm
  | .vmovdqa64ZmmLoad o => destReg false o.reg o.rm
  | .vmovdqa64XmmStore o => destReg true o.reg o.rm
  | .vmovdqa64YmmStore o => destReg true o.reg o.rm
  | .vmovdqa64ZmmStore o => destReg true o.reg o.rm

/-- The register an instruction reads as its source, if its source is a register. -/
def srcOf (i : Instr) : Option VReg :=
  match i with
  | .movdqaLoad o => srcReg false o.reg o.rm
  | .movdqaStore o => srcReg true o.reg o.rm
  | .vmovdqaXmmLoad o => srcReg false o.reg o.rm
  | .vmovdqaXmmStore o => srcReg true o.reg o.rm
  | .vmovdqaYmmLoad o => srcReg false o.reg o.rm
  | .vmovdqaYmmStore o => srcReg true o.reg o.rm
  | .vmovdqa32XmmLoad o => srcReg false o.reg o.rm
  | .vmovdqa32YmmLoad o => srcReg false o.reg o.rm
  | .vmovdqa32ZmmLoad o => srcReg false o.reg o.rm
  | .vmovdqa32XmmStore o => srcReg true o.reg o.rm
  | .vmovdqa32YmmStore o => srcReg true o.reg o.rm
  | .vmovdqa32ZmmStore o => srcReg true o.reg o.rm
  | .vmovdqa64XmmLoad o => srcReg false o.reg o.rm
  | .vmovdqa64YmmLoad o => srcReg false o.reg o.rm
  | .vmovdqa64ZmmLoad o => srcReg false o.reg o.rm
  | .vmovdqa64XmmStore o => srcReg true o.reg o.rm
  | .vmovdqa64YmmStore o => srcReg true o.reg o.rm
  | .vmovdqa64ZmmStore o => srcReg true o.reg o.rm

/-- The condition under which an instruction executes without #UD or #NM in 64-bit mode (R161). -/
def enabledFor (i : Instr) (s : State) : Prop :=
  match i with
  | .movdqaLoad _ => LegEnabled s
  | .movdqaStore _ => LegEnabled s
  | .vmovdqaXmmLoad _ => VexEnabled s
  | .vmovdqaXmmStore _ => VexEnabled s
  | .vmovdqaYmmLoad _ => VexEnabled s
  | .vmovdqaYmmStore _ => VexEnabled s
  | .vmovdqa32XmmLoad _ => EvexEnabled .v128 s
  | .vmovdqa32YmmLoad _ => EvexEnabled .v256 s
  | .vmovdqa32ZmmLoad _ => EvexEnabled .v512 s
  | .vmovdqa32XmmStore _ => EvexEnabled .v128 s
  | .vmovdqa32YmmStore _ => EvexEnabled .v256 s
  | .vmovdqa32ZmmStore _ => EvexEnabled .v512 s
  | .vmovdqa64XmmLoad _ => EvexEnabled .v128 s
  | .vmovdqa64YmmLoad _ => EvexEnabled .v256 s
  | .vmovdqa64ZmmLoad _ => EvexEnabled .v512 s
  | .vmovdqa64XmmStore _ => EvexEnabled .v128 s
  | .vmovdqa64YmmStore _ => EvexEnabled .v256 s
  | .vmovdqa64ZmmStore _ => EvexEnabled .v512 s

/-- Byte `i` of the operand is accessed: it lies in a selected element (R35, R36). -/
abbrev Access.reaches (a : Access) (i : Nat) : Prop := i < a.sh.bytes ∧ a.m.getLsbD (i / a.sh.elem) = true

/-- Every accessed byte has a canonical address (R39 step 1). -/
abbrev Access.allCanonical (s : State) (a : Access) : Prop :=
  ∀ i, a.reaches i → canonical s.cfg.vaBits (byteAddr a.la i) = true

/-- Some element is selected (R32). -/
abbrev Access.someSelected (a : Access) : Prop := ∃ j < a.sh.kl, a.m.getLsbD j = true

/-- The operand is aligned to its own size (R31). -/
abbrev Access.aligned (a : Access) : Prop := a.la.toNat % a.sh.bytes = 0

/-! ## Lengths and verdicts of undefined bytes -/

/-- The number of bytes of ModRM, SIB and displacement at the head of `bs`, by R61 and R73 (the six longest where `bs` is
empty). -/
def modrmSize : List Byte → Nat
  | [] => 6
  | m :: rest =>
    if m.extractLsb' 6 2 = 3 then 1
    else (if m.extractLsb' 0 3 = 4 then 2 else 1) +
      (if m.extractLsb' 6 2 = 1 then 1
       else if m.extractLsb' 6 2 = 2 then 4
       else if m.extractLsb' 0 3 = 5 ∨ (m.extractLsb' 0 3 = 4 ∧ (rest.headD 0).extractLsb' 0 3 = 5) then 4
       else 0)

/-- The verdict on undefined bytes of length `n`: #UD, or the length fault where they are longer than 15 bytes (R78,
R140 item 1). -/
def undefinedBytes (n : Nat) : Decoded := if n > 15 then .gp0 n else .ud n

end Sys2Proof.Machine
end

