-- ==== Sys2Proof/Certificates/Slice0/Obligations.lean ====
section
/-! DEFINITION. The statements for the provers. Rows are named through the decoder's own row functions: `legRow st` are
rows 1 and 2 (MOVDQA), `vexRow l st` rows 3 to 6 (VMOVDQA), `evexRow w vl st` rows 7 to 18 (VMOVDQA32 for `w` = false,
VMOVDQA64 for `w` = true); `st` = false is opcode 6FH and `st` = true opcode 7FH (R67). `.gp` is #GP(0), `.ss` #SS(0).
`s.bytePa kind la i` is the physical address of byte `i` of an operand at linear address `la`: `Translate`'s answer for
`la + i` (R38), which the meanings themselves use; `byteAt` reads memory there. -/

open Sys2Proof Sys2Proof.Machine

/-! ## Reset and launch -/

/-- The values 70_reset_and_hazards.md rule R160 gives for reset (RDX, memory and what R160 does not list are the
model's, log 1 to 6, and no clause is about them). -/
def Obligations.ResetLeavesSpecValues : Prop :=
  State.reset.rip = 0xFFF0 ∧ State.reset.rflags = 0x2 ∧ State.reset.mxcsr = 0x1F80 ∧
  State.reset.cr0 = 0x60000010 ∧ State.reset.cr4 = 0 ∧ State.reset.xcr0 = 1 ∧ State.reset.csBase = 0xFFFF0000 ∧
  (∀ i : GReg, i ≠ 2 → State.reset.gpr i = 0) ∧ (∀ n : VReg, State.reset.vec n = 0) ∧
  (∀ n : KReg, State.reset.opmask n = 0) ∧ State.reset.mode = .realAddress

/-- R15, R160: directly after reset every encoding of the family raises #UD. -/
def Obligations.EveryEncodingUndefinedAtReset : Prop :=
  ∀ i : Instr, exec i State.reset = .fault .ud

/-- R161: the control bits `boot` sets are those each encoding class needs, in 64-bit mode. -/
def Obligations.BootEnablesEveryClass : Prop :=
  ∀ s : State,
    (s.cfg.hasSse2 = true → LegEnabled s.boot) ∧ (s.cfg.hasAvx = true → VexEnabled s.boot) ∧
    ∀ vl : VLen, s.cfg.hasAvx512f = true → (vl ≠ .v512 → s.cfg.hasAvx512vl = true) → EvexEnabled vl s.boot

/-- The invariant holds right after reset. The canonical form of memory is the model's own (DESIGN CHOICE, log 3): no rule
of the spec gives it; R160 leaves memory after reset unspecified. -/
def Obligations.ResetMemoryCanonical : Prop := State.reset.Inv

/-! ## Encoding -/

/-- Every well-formed instruction, whatever bytes follow it, is read back with every operand. -/
def Obligations.DecodeEncodeRoundTrip : Prop :=
  ∀ (i : Instr) (rest : List Byte), i.WellFormed → decode (encode i ++ rest) = .insn i

/-- What the decoder accepts is well-formed, 4 to 15 bytes long (R50), and lies inside the bytes given. -/
def Obligations.DecodedInstructionsWellFormed : Prop :=
  ∀ (bs : List Byte) (i : Instr), decode bs = .insn i →
    i.WellFormed ∧ 4 ≤ i.len ∧ i.len ≤ 15 ∧ i.len ≤ bs.length

/-- The bytes 95_test_vectors.md S1 gives for one row of each format and opcode. -/
def Obligations.DecodesSpecBytes : Prop :=
  decode [0x66, 0x0F, 0x6F, 0x08] = .insn (.movdqaLoad ⟨[.opSize], false, 1, .mem (.base 0 .zero)⟩) ∧
  decode [0xC5, 0xFD, 0x7F, 0x08] = .insn (.vmovdqaYmmStore ⟨[], false, 1, .mem (.base 0 .zero)⟩) ∧
  decode [0x62, 0xF1, 0x7D, 0x48, 0x6F, 0x08] =
    .insn (.vmovdqa32ZmmLoad ⟨[], 1, .mem (.base 0 .zero), 0, false⟩) ∧
  decode [0x62, 0xF1, 0xFD, 0x28, 0x7F, 0x08] =
    .insn (.vmovdqa64YmmStore ⟨[], 1, .mem (.base 0 .zero), 0, false⟩)

/-- R68: a `vvvv` field other than 1111b raises #UD (over 15 bytes, the length fault of R140 item 1), in both VEX forms and
in EVEX. The length is that of R73: prefixes, format bytes, and ModRM to displacement. `tail` holds ModRM and what follows,
at least the longest operand. -/
def Obligations.ReservedVvvvUndefined : Prop :=
  (∀ (ps : List Prefix) (p op : Byte) (tail : List Byte), op = 0x6F ∨ op = 0x7F → 6 ≤ tail.length →
    p.extractLsb' 0 2 = 1#2 → p.extractLsb' 3 4 ≠ 0xF#4 →
    decode (ps.map Prefix.byte ++ 0xC5 :: p :: op :: tail) = undefinedBytes (ps.length + 3 + modrmSize tail)) ∧
  (∀ (ps : List Prefix) (p1 p2 op : Byte) (tail : List Byte), op = 0x6F ∨ op = 0x7F → 6 ≤ tail.length →
    p1.extractLsb' 0 5 = 1#5 → p2.extractLsb' 0 2 = 1#2 → p2.extractLsb' 3 4 ≠ 0xF#4 →
    decode (ps.map Prefix.byte ++ 0xC4 :: p1 :: p2 :: op :: tail) =
      undefinedBytes (ps.length + 4 + modrmSize tail)) ∧
  (∀ (ps : List Prefix) (p0 p1 p2 op : Byte) (tail : List Byte), op = 0x6F ∨ op = 0x7F → 6 ≤ tail.length →
    p0.extractLsb' 0 2 = 1#2 → p1.extractLsb' 0 2 = 1#2 → p1.extractLsb' 3 4 ≠ 0xF#4 →
    decode (ps.map Prefix.byte ++ 0x62 :: p0 :: p1 :: p2 :: op :: tail) =
      undefinedBytes (ps.length + 5 + modrmSize tail))

/-- R69, line by line (the spec's own decision D14, not a sentence of the source): each listed field value raises #UD (over
15 bytes, the length fault), and another map or implied prefix is not this family. `m` is the ModRM byte. -/
def Obligations.EvexReservedFieldsUndefined : Prop :=
  ∀ (ps : List Prefix) (p0 p1 p2 op m : Byte) (tail : List Byte), op = 0x6F ∨ op = 0x7F → 5 ≤ tail.length →
    (p0.extractLsb' 0 2 = 1#2 → p1.extractLsb' 0 2 = 1#2 →
      (p0.extractLsb' 2 2 ≠ 0#2 ∨ p1.getLsbD 2 = false ∨ p2.getLsbD 3 = false ∨ p2.getLsbD 4 = true ∨
        p2.extractLsb' 5 2 = 3#2 ∨ (p2.getLsbD 7 = true ∧ p2.extractLsb' 0 3 = 0#3) ∨
        (p2.getLsbD 7 = true ∧ op = 0x7F ∧ m.extractLsb' 6 2 ≠ 3#2) ∨
        Prefix.opSize ∈ ps ∨ Prefix.repne ∈ ps ∨ Prefix.rep ∈ ps ∨ Prefix.lock ∈ ps ∨
        (∃ w, ps.getLast? = some (.rex w))) →
      decode (ps.map Prefix.byte ++ 0x62 :: p0 :: p1 :: p2 :: op :: m :: tail) =
        undefinedBytes (ps.length + 5 + modrmSize (m :: tail))) ∧
    (p0.extractLsb' 2 2 = 0#2 → p1.getLsbD 2 = true → (p0.extractLsb' 0 2 ≠ 1#2 ∨ p1.extractLsb' 0 2 ≠ 1#2) →
      decode (ps.map Prefix.byte ++ 0x62 :: p0 :: p1 :: p2 :: op :: m :: tail) = .notThisFamily)

/-- R70 (the spec's own decision D15, not a sentence of the source): a 66H, F2H, F3H, LOCK or REX prefix before a VEX prefix
raises #UD (over 15 bytes, the length fault), another map or implied prefix is not this family, `W` has no effect, and the
other prefixes are allowed. -/
def Obligations.VexPrefixRules : Prop :=
  (∀ (ps : List Prefix) (p1 p2 op : Byte) (tail : List Byte), op = 0x6F ∨ op = 0x7F → 6 ≤ tail.length →
    (Prefix.opSize ∈ ps ∨ Prefix.repne ∈ ps ∨ Prefix.rep ∈ ps ∨ Prefix.lock ∈ ps ∨
      (∃ w, ps.getLast? = some (.rex w))) →
    (p2.extractLsb' 0 2 = 1#2 →
      decode (ps.map Prefix.byte ++ 0xC5 :: p2 :: op :: tail) = undefinedBytes (ps.length + 3 + modrmSize tail) ∧
      (p1.extractLsb' 0 5 = 1#5 →
        decode (ps.map Prefix.byte ++ 0xC4 :: p1 :: p2 :: op :: tail) =
          undefinedBytes (ps.length + 4 + modrmSize tail)))) ∧
  (∀ (ps : List Prefix) (p1 p2 op : Byte) (tail : List Byte),
    (p2.extractLsb' 0 2 ≠ 1#2 → decode (ps.map Prefix.byte ++ 0xC5 :: p2 :: op :: tail) = .notThisFamily) ∧
    (p1.extractLsb' 0 5 ≠ 1#5 ∨ p2.extractLsb' 0 2 ≠ 1#2 →
      decode (ps.map Prefix.byte ++ 0xC4 :: p1 :: p2 :: op :: tail) = .notThisFamily)) ∧
  (∀ (ps : List Prefix) (p1 p2 op : Byte) (tail : List Byte),
    decode (ps.map Prefix.byte ++ 0xC4 :: p1 :: (p2 ||| 0x80) :: op :: tail) =
      decode (ps.map Prefix.byte ++ 0xC4 :: p1 :: (p2 &&& 0x7F) :: op :: tail)) ∧
  (∀ (ps : List Prefix) (l store : Bool) (o : VexOps),
    (∀ p ∈ ps, p = .segCs ∨ p = .segSs ∨ p = .segDs ∨ p = .segEs ∨ p = .segFs ∨ p = .segGs ∨ p = .addrSize) →
    (vexRow l store o).WellFormed → ps.length + o.len ≤ 15 →
    decode (ps.map Prefix.byte ++ encode (vexRow l store o)) = .insn (vexRow l store { o with pre := ps ++ o.pre }))

/-- R71: opcodes 0F 6F and 0F 7F without 66H, or with F2H or F3H among the prefixes, are never taken for MOVDQA. -/
def Obligations.LegacyOpcodeNeeds66Alone : Prop :=
  ∀ (ps : List Prefix) (op : Byte) (tail : List Byte),
    (Prefix.opSize ∉ ps ∨ Prefix.repne ∈ ps ∨ Prefix.rep ∈ ps) →
    decode (ps.map Prefix.byte ++ 0x0F :: op :: tail) = .notThisFamily

/-- R73, U8, R140 item 1: prefixes that bring an instruction over 15 bytes turn it into #GP(0), before any other test: in
every row any list of prefixes but F2H and F3H (which make the legacy bytes another instruction, R71), and in the VEX and
EVEX rows any list at all. -/
def Obligations.OverlongInstructionGp : Prop :=
  (∀ (i : Instr) (ps : List Prefix) (rest : List Byte), i.WellFormed → 15 < ps.length + i.len →
    Prefix.repne ∉ ps → Prefix.rep ∉ ps →
    decode (ps.map Prefix.byte ++ (encode i ++ rest)) = .gp0 (ps.length + i.len)) ∧
  (∀ (l st : Bool) (o : VexOps) (ps : List Prefix) (rest : List Byte), (vexRow l st o).WellFormed →
    15 < ps.length + o.len →
    decode (ps.map Prefix.byte ++ (encode (vexRow l st o) ++ rest)) = .gp0 (ps.length + o.len)) ∧
  (∀ (w : Bool) (vl : VLen) (st : Bool) (o : EvexOps) (ps : List Prefix) (rest : List Byte),
    (evexRow w vl st o).WellFormed → 15 < ps.length + o.len →
    decode (ps.map Prefix.byte ++ (encode (evexRow w vl st o) ++ rest)) = .gp0 (ps.length + o.len))

/-- The bytes a step looks at are enough: a longer look decodes to the same, and the decoder runs out of bytes only where
the next byte cannot be fetched. -/
def Obligations.FetchWindowSuffices : Prop :=
  ∀ (s : State) (n : Nat), s.fetchFuel ≤ n →
    decode (s.fetchBytes n s.rip.toNat) = decode s.fetchWindow ∧
    (decode s.fetchWindow = .truncated → s.fetchByte (s.rip.toNat + s.fetchWindow.length) = none)

/-! ## Addresses -/

/-- R62: in `LEG` and `VEX` an 8-bit displacement is sign-extended and used as is, in `EVEX` it is sign-extended and
multiplied by VL/8, a 32-bit one is never scaled; and a scaled `disp8` keeps an aligned address aligned. `legAddr`,
`vexAddr`, `evexAddr` are the addresses the meanings use; a 67H prefix is AddressSizePrefixTruncates' subject. -/
def Obligations.DisplacementScaling : Prop :=
  ∀ (s : State) (b x : GReg) (sc : BitVec 2) (d : BitVec 8) (d' : BitVec 32),
    (∀ o : LegOps, Prefix.addrSize ∉ o.pre →
      legAddr s o (.base b (.d8 d)) = legAddr s o (.base b .zero) + d.signExtend 64 ∧
      legAddr s o (.sib b x sc (.d8 d)) = legAddr s o (.sib b x sc .zero) + d.signExtend 64 ∧
      legAddr s o (.base b (.d32 d')) = legAddr s o (.base b .zero) + d'.signExtend 64 ∧
      legAddr s o (.sib b x sc (.d32 d')) = legAddr s o (.sib b x sc .zero) + d'.signExtend 64) ∧
    (∀ o : VexOps, Prefix.addrSize ∉ o.pre →
      vexAddr s o (.base b (.d8 d)) = vexAddr s o (.base b .zero) + d.signExtend 64 ∧
      vexAddr s o (.sib b x sc (.d8 d)) = vexAddr s o (.sib b x sc .zero) + d.signExtend 64 ∧
      vexAddr s o (.base b (.d32 d')) = vexAddr s o (.base b .zero) + d'.signExtend 64 ∧
      vexAddr s o (.sib b x sc (.d32 d')) = vexAddr s o (.sib b x sc .zero) + d'.signExtend 64) ∧
    (∀ (vl : VLen) (o : EvexOps), Prefix.addrSize ∉ o.pre →
      evexAddr vl s o (.base b (.d8 d)) =
        evexAddr vl s o (.base b .zero) + d.signExtend 64 * BitVec.ofNat 64 vl.bytes ∧
      evexAddr vl s o (.sib b x sc (.d8 d)) =
        evexAddr vl s o (.sib b x sc .zero) + d.signExtend 64 * BitVec.ofNat 64 vl.bytes ∧
      evexAddr vl s o (.base b (.d32 d')) = evexAddr vl s o (.base b .zero) + d'.signExtend 64 ∧
      evexAddr vl s o (.sib b x sc (.d32 d')) = evexAddr vl s o (.sib b x sc .zero) + d'.signExtend 64 ∧
      ((evexAddr vl s o (.base b .zero)).toNat % vl.bytes = 0 →
        (evexAddr vl s o (.base b (.d8 d))).toNat % vl.bytes = 0) ∧
      ((evexAddr vl s o (.sib b x sc .zero)).toNat % vl.bytes = 0 →
        (evexAddr vl s o (.sib b x sc (.d8 d))).toNat % vl.bytes = 0))

/-- R64, R60, R40: without a 67H prefix, base, index and displacement are added modulo 2^64 to the segment's base; index
number 0100b (RSP) means no index, 1100b (R12) is a real one; a SIB form without base adds `disp32` alone. -/
def Obligations.EffectiveAddressForms : Prop :=
  ∀ (s : State) (pre : List Prefix) (n : Nat) (next : Word) (b x : GReg) (sc : BitVec 2) (d : Disp) (d' : BitVec 32),
    Prefix.addrSize ∉ pre →
    s.effectiveAddr pre n next (.base b d) = s.gpr b + dispValue n d ∧
    (x ≠ 4 → s.effectiveAddr pre n next (.sib b x sc d) =
      s.gpr b + dispValue n d + s.gpr x * BitVec.ofNat 64 (2 ^ sc.toNat)) ∧
    s.effectiveAddr pre n next (.sib b 4 sc d) = s.gpr b + dispValue n d ∧
    (x ≠ 4 → s.effectiveAddr pre n next (.sibNoBase x sc d') =
      d'.signExtend 64 + s.gpr x * BitVec.ofNat 64 (2 ^ sc.toNat)) ∧
    s.effectiveAddr pre n next (.sibNoBase 4 sc d') = d'.signExtend 64

/-- R65, R11: a RIP-relative operand is addressed from the next instruction, `rip + len`. -/
def Obligations.RipRelativeFromNextInstruction : Prop :=
  ∀ (s : State) (d : BitVec 32),
    (∀ o : LegOps, Prefix.addrSize ∉ o.pre → legAddr s o (.ripRel d) =
      s.segBase (segOf o.pre (.ripRel d)) + (s.rip + BitVec.ofNat 64 o.len + d.signExtend 64)) ∧
    (∀ o : VexOps, Prefix.addrSize ∉ o.pre → vexAddr s o (.ripRel d) =
      s.segBase (segOf o.pre (.ripRel d)) + (s.rip + BitVec.ofNat 64 o.len + d.signExtend 64)) ∧
    (∀ (vl : VLen) (o : EvexOps), Prefix.addrSize ∉ o.pre → evexAddr vl s o (.ripRel d) =
      s.segBase (segOf o.pre (.ripRel d)) + (s.rip + BitVec.ofNat 64 o.len + d.signExtend 64))

/-- R66: a 67H prefix anywhere among the prefixes truncates the effective address to 32 bits, whatever the form. -/
def Obligations.AddressSizePrefixTruncates : Prop :=
  ∀ (s : State) (pre pre' : List Prefix) (n : Nat) (next : Word) (a : Addr),
    Prefix.addrSize ∈ pre → Prefix.addrSize ∉ pre' →
    s.effectiveAddr pre n next a = ((s.effectiveAddr pre' n next a).setWidth 32).setWidth 64

/-- R51, R66, R40: the last FS or GS override selects the segment and its base is added; without one the segment is SS
for base RSP or RBP and DS otherwise, with base 0. -/
def Obligations.SegmentSelection : Prop :=
  ∀ (s : State) (pre post : List Prefix) (n : Nat) (next : Word) (a : Addr),
    (Prefix.segFs ∉ post → Prefix.segGs ∉ post →
      segOf (pre ++ .segFs :: post) a = .fs ∧ segOf (pre ++ .segGs :: post) a = .gs ∧
      s.linearAddr (pre ++ .segFs :: post) n next a =
        s.fsBase + s.effectiveAddr (pre ++ .segFs :: post) n next a ∧
      s.linearAddr (pre ++ .segGs :: post) n next a =
        s.gsBase + s.effectiveAddr (pre ++ .segGs :: post) n next a) ∧
    (Prefix.segFs ∉ pre → Prefix.segGs ∉ pre →
      segOf pre a = (if baseReg a = some 4 ∨ baseReg a = some 5 then .ss else .ds) ∧
      s.linearAddr pre n next a = s.effectiveAddr pre n next a)

/-! ## #UD and #NM -/

/-- R131: exactly these conditions make rows 1 and 2 raise #UD; XCR0 and CR4.OSXSAVE are not among them. -/
def Obligations.LegacyUndefinedConditions : Prop :=
  ∀ (st : Bool) (o : LegOps) (s : State),
    exec (legRow st o) s = .fault .ud ↔
      (s.cr0.getLsbD 2 = true ∨ s.cr4.getLsbD 9 = false ∨ s.cfg.hasSse2 = false ∨ Prefix.lock ∈ o.pre)

/-- R132: exactly these conditions make a well-formed row 3 to 6 raise #UD; CR0.EM and CR4.OSFXSR are not among them. -/
def Obligations.VexUndefinedConditions : Prop :=
  ∀ (l st : Bool) (o : VexOps) (s : State), (vexRow l st o).WellFormed →
    (exec (vexRow l st o) s = .fault .ud ↔
      (s.cr4.getLsbD 18 = false ∨ s.xcr0.getLsbD 1 = false ∨ s.xcr0.getLsbD 2 = false ∨ s.cfg.hasAvx = false ∨
        s.mode = .realAddress ∨ s.mode = .virtual8086))

/-- R133: exactly these conditions make a well-formed row 7 to 18 raise #UD, at every vector length. -/
def Obligations.EvexUndefinedConditions : Prop :=
  ∀ (w : Bool) (vl : VLen) (st : Bool) (o : EvexOps) (s : State), (evexRow w vl st o).WellFormed →
    (exec (evexRow w vl st o) s = .fault .ud ↔
      (s.cr4.getLsbD 18 = false ∨ s.xcr0.getLsbD 1 = false ∨ s.xcr0.getLsbD 2 = false ∨
        s.xcr0.getLsbD 5 = false ∨ s.xcr0.getLsbD 6 = false ∨ s.xcr0.getLsbD 7 = false ∨
        s.cfg.hasAvx512f = false ∨ (vl ≠ .v512 ∧ s.cfg.hasAvx512vl = false) ∨
        s.mode = .realAddress ∨ s.mode = .virtual8086))

/-- R134: every encoding, the register copies too, raises #NM exactly when CR0.TS = 1 and it has not raised #UD (in 64-bit
mode, R3). -/
def Obligations.DeviceNotAvailable : Prop :=
  ∀ (i : Instr) (s : State), s.mode = .mode64 →
    (exec i s = .fault .nm ↔ s.cr0.getLsbD 3 = true ∧ exec i s ≠ .fault .ud)

/-- R74, D1: outside 64-bit mode an instruction that does not raise #UD is refused by the mode's name (the model's
choice, log 12). -/
def Obligations.OtherModesRefused : Prop :=
  ∀ (i : Instr) (s : State), s.mode ≠ .mode64 →
    exec i s = .fault .ud ∨ exec i s = .refused (.otherMode s.mode)

/-! ## Address faults and refusals -/

/-- R135: a misaligned memory operand with a selected element raises #GP(0), in every row (unless its address is also
non-canonical and SS-relative, R140 item 4). -/
def Obligations.MisalignedOperandGp : Prop :=
  ∀ (i : Instr) (s : State) (kind : AccessKind) (a : Access), i.WellFormed → enabledFor i s →
    operandOf i s = some (kind, a) → a.someSelected → ¬ a.aligned → (a.seg = .ss → a.allCanonical s) →
    exec i s = .fault .gp

/-- R136, R39 step 1: an aligned operand with an accessed byte at a non-canonical address raises #SS(0) through SS and
#GP(0) otherwise. -/
def Obligations.NonCanonicalOperandFaults : Prop :=
  ∀ (i : Instr) (s : State) (kind : AccessKind) (a : Access), i.WellFormed → enabledFor i s →
    operandOf i s = some (kind, a) → a.aligned → ¬ a.allCanonical s →
    exec i s = .fault (if a.seg = .ss then .ss else .gp)

/-- R39, R140 item 4: an SS-relative operand that is non-canonical and misaligned reports what `SS_NONCANON_MISALIGNED`
says; under `either`, one of the two, whichever the free value picks. -/
def Obligations.StackNonCanonicalMisaligned : Prop :=
  ∀ (i : Instr) (s : State) (kind : AccessKind) (a : Access), i.WellFormed → enabledFor i s →
    operandOf i s = some (kind, a) → a.seg = .ss → ¬ a.aligned → ¬ a.allCanonical s →
    (exec i s = .fault .gp ∨ exec i s = .fault .ss) ∧
    (s.cfg.ssNoncanonMisaligned = .gp → exec i s = .fault .gp) ∧
    (s.cfg.ssNoncanonMisaligned = .ss → exec i s = .fault .ss)

/-- R137, R39 step 3: the first selected element whose page faults raises #PF with `Translate`'s code and the element's
linear address (element-granular address: the model's reading, log 7). -/
def Obligations.PageFaultOnSelectedElement : Prop :=
  ∀ (i : Instr) (s : State) (kind : AccessKind) (a : Access) (j : Nat) (code : BitVec 32), i.WellFormed →
    enabledFor i s → operandOf i s = some (kind, a) → a.aligned → a.allCanonical s →
    j < a.sh.kl → a.m.getLsbD j = true →
    (∀ j' < j, a.m.getLsbD j' = true → ∃ pa, s.translate (byteAddr a.la (a.sh.elem * j')) kind = .ok pa .writeBack) →
    s.translate (byteAddr a.la (a.sh.elem * j)) kind = .pageFault code →
    exec i s = .fault (.pf code (byteAddr a.la (a.sh.elem * j)))

/-- R34, R38: an aligned operand lies in one page, so one answer of `Translate` holds for all its bytes: they lie at
consecutive physical addresses of one memory type, or all page-fault with one code (4-KByte granularity: log 4). -/
def Obligations.OperandTranslatesAsOne : Prop :=
  ∀ (s : State) (kind : AccessKind) (la : Word) (vl : VLen) (i : Nat), la.toNat % vl.bytes = 0 → i < vl.bytes →
    (∀ pa t, s.translate la kind = .ok pa t → s.translate (byteAddr la i) kind = .ok (byteAddr pa i) t) ∧
    (∀ code, s.translate la kind = .pageFault code → s.translate (byteAddr la i) kind = .pageFault code)

/-- R47, R45: an operand in memory that is not write-back is refused, and so is a store into the program's bytes, whether by
their linear address or through another page mapped to the same physical bytes. -/
def Obligations.RefusedMemoryOperands : Prop :=
  ∀ (i : Instr) (s : State) (kind : AccessKind) (a : Access), i.WellFormed → enabledFor i s →
    operandOf i s = some (kind, a) → a.aligned → a.allCanonical s →
    (∀ (j : Nat) (pa : Word) (t : MemType), j < a.sh.kl → a.m.getLsbD j = true → t ≠ .writeBack →
      (∀ j' < j, a.m.getLsbD j' = true → ∃ pa', s.translate (byteAddr a.la (a.sh.elem * j')) kind = .ok pa' .writeBack) →
      s.translate (byteAddr a.la (a.sh.elem * j)) kind = .ok pa t →
      exec i s = .refused (.memoryType t)) ∧
    (kind = .write → (∀ b, a.reaches b → ∃ pa, s.translate (byteAddr a.la b) kind = .ok pa .writeBack) →
      (∃ b, a.reaches b ∧ (s.inProgram (byteAddr a.la b).toNat = true ∨
        ∃ (x : Word) (t : MemType), s.inProgram x.toNat = true ∧ s.translate x .fetch = .ok (s.bytePa .write a.la b) t)) →
      exec i s = .refused .storeIntoProgram)

/-- R31, R130: a register-copy form that is enabled never faults and is never refused, whatever memory, `Translate` and
segment bases hold. -/
def Obligations.RegisterCopyNeverFaults : Prop :=
  ∀ (i : Instr) (s : State), i.WellFormed → enabledFor i s → operandOf i s = none → ∃ t, exec i s = .next t

/-- R130, R138, R139: a register copy raises #UD or #NM only; a memory form also #SS(0), #GP(0) or #PF; vectors and error
codes are those of R130's table, so never #AC (17) nor a SIMD floating-point exception (19), and only #PF has an address. -/
def Obligations.ExceptionVectors : Prop :=
  ∀ (i : Instr) (s : State) (f : Fault), exec i s = .fault f →
    (operandOf i s = none → f.vector = 6 ∨ f.vector = 7) ∧
    (f.vector = 6 ∧ f.errorCode = none ∨ f.vector = 7 ∧ f.errorCode = none ∨
      f.vector = 12 ∧ f.errorCode = some 0 ∨ f.vector = 13 ∧ f.errorCode = some 0 ∨
      f.vector = 14 ∧ f.errorCode.isSome = true) ∧
    (f.linearAddress.isSome = true ↔ f.vector = 14) ∧ f.vector ≠ 17 ∧ f.vector ≠ 19

/-! ## Results -/

/-- R81, R82, R80, register copy (MOVDQA, both rows): bits 127:0 are copied, bits 511:128 of the destination and
everything else but `rip` are unchanged. -/
def Obligations.LegacyRegisterCopy : Prop :=
  ∀ (st : Bool) (o : LegOps) (n d r : VReg) (s : State), (legRow st o).WellFormed → LegEnabled s →
    o.rm = .reg n → d = (if st then n else o.reg) → r = (if st then o.reg else n) →
    ∃ t, exec (legRow st o) s = .next t ∧
      (t.vec d).extractLsb' 0 128 = (s.vec r).extractLsb' 0 128 ∧
      (t.vec d).extractLsb' 128 384 = (s.vec d).extractLsb' 128 384 ∧
      onlyRegisterWritten s t d o.len

/-- R81, load form (MOVDQA 6FH): byte `i` of the register is the byte at `la + i`; bits 511:128 and everything else but
`rip` are unchanged. -/
def Obligations.LegacyLoad : Prop :=
  ∀ (o : LegOps) (a : Addr) (s : State), (legRow false o).WellFormed → LegEnabled s → o.rm = .mem a →
    operandAllowed s .read (legAddr s o a) 16 (fun _ => true) →
    ∃ t, exec (legRow false o) s = .next t ∧
      (∀ i < 16, vecByte (t.vec o.reg) i = s.byteAt (s.bytePa .read (legAddr s o a) i).toNat) ∧
      (t.vec o.reg).extractLsb' 128 384 = (s.vec o.reg).extractLsb' 128 384 ∧
      onlyRegisterWritten s t o.reg o.len

/-- R82, store form (MOVDQA 7FH): exactly the 16 bytes at `la` are written, byte `i` with bits `[8i+7:8i]`. -/
def Obligations.LegacyStore : Prop :=
  ∀ (o : LegOps) (a : Addr) (s : State), (legRow true o).WellFormed → LegEnabled s → s.Inv → o.rm = .mem a →
    operandAllowed s .write (legAddr s o a) 16 (fun _ => true) →
    ∃ t, exec (legRow true o) s = .next t ∧
      (∀ i < 16, t.byteAt (s.bytePa .write (legAddr s o a) i).toNat = vecByte (s.vec o.reg) i) ∧
      onlyMemoryWritten s t (fun b => ∃ i < 16, b = (s.bytePa .write (legAddr s o a) i).toNat) o.len

/-- R86 to R89, register copy (VMOVDQA, all four rows): the low VL bits are copied and the bits above are zeroed. -/
def Obligations.VexRegisterCopy : Prop :=
  ∀ (l st : Bool) (o : VexOps) (n d r : VReg) (s : State), (vexRow l st o).WellFormed → VexEnabled s →
    o.rm = .reg n → d = (if st then n else o.reg) → r = (if st then o.reg else n) →
    ∃ t, exec (vexRow l st o) s = .next t ∧
      t.vec d = ((s.vec r).setWidth (8 * (vexLen l).bytes)).setWidth 512 ∧
      onlyRegisterWritten s t d o.len

/-- R86, R88, load form (VMOVDQA 6FH, xmm and ymm): the VL/8 bytes at `la`, and zero above. -/
def Obligations.VexLoad : Prop :=
  ∀ (l : Bool) (o : VexOps) (a : Addr) (s : State), (vexRow l false o).WellFormed → VexEnabled s → o.rm = .mem a →
    operandAllowed s .read (vexAddr s o a) (vexLen l).bytes (fun _ => true) →
    ∃ t, exec (vexRow l false o) s = .next t ∧
      (∀ i < 64, vecByte (t.vec o.reg) i =
        if i < (vexLen l).bytes then s.byteAt (s.bytePa .read (vexAddr s o a) i).toNat else 0) ∧
      onlyRegisterWritten s t o.reg o.len

/-- R87, R89, store form (VMOVDQA 7FH, xmm and ymm): exactly the VL/8 bytes at `la` are written. -/
def Obligations.VexStore : Prop :=
  ∀ (l : Bool) (o : VexOps) (a : Addr) (s : State), (vexRow l true o).WellFormed → VexEnabled s → s.Inv →
    o.rm = .mem a → operandAllowed s .write (vexAddr s o a) (vexLen l).bytes (fun _ => true) →
    ∃ t, exec (vexRow l true o) s = .next t ∧
      (∀ i < (vexLen l).bytes, t.byteAt (s.bytePa .write (vexAddr s o a) i).toNat = vecByte (s.vec o.reg) i) ∧
      onlyMemoryWritten s t (fun b => ∃ i < (vexLen l).bytes, b = (s.bytePa .write (vexAddr s o a) i).toNat) o.len

/-- R96 to R101, R106 to R111, register copy (VMOVDQA32 and VMOVDQA64, all twelve rows): a selected element is copied, an
unselected one kept or zeroed, the bits above VL zeroed. -/
def Obligations.EvexRegisterCopy : Prop :=
  ∀ (w : Bool) (vl : VLen) (st : Bool) (o : EvexOps) (n d r : VReg) (s : State), (evexRow w vl st o).WellFormed →
    EvexEnabled vl s → o.rm = .reg n → d = (if st then n else o.reg) → r = (if st then o.reg else n) →
    ∃ t, exec (evexRow w vl st o) s = .next t ∧
      (∀ j < vl.bytes / evexElem w,
        (t.vec d).extractLsb' (8 * evexElem w * j) (8 * evexElem w) =
          if selects s o.aaa j then (s.vec r).extractLsb' (8 * evexElem w * j) (8 * evexElem w)
          else if o.z then 0 else (s.vec d).extractLsb' (8 * evexElem w * j) (8 * evexElem w)) ∧
      (t.vec d).extractLsb' (8 * vl.bytes) (512 - 8 * vl.bytes) = 0 ∧
      onlyRegisterWritten s t d o.len

/-- R96 to R98, R106 to R108, load form (the six 6FH rows): the bytes of a selected element are those at `la`, an
unselected element is kept or zeroed, the bits above VL are zeroed. -/
def Obligations.EvexLoad : Prop :=
  ∀ (w : Bool) (vl : VLen) (o : EvexOps) (a : Addr) (s : State), (evexRow w vl false o).WellFormed →
    EvexEnabled vl s → o.rm = .mem a →
    operandAllowed s .read (evexAddr vl s o a) vl.bytes (fun i => selects s o.aaa (i / evexElem w)) →
    ∃ t, exec (evexRow w vl false o) s = .next t ∧
      (∀ i < 64, vecByte (t.vec o.reg) i =
        if i < vl.bytes then
          if selects s o.aaa (i / evexElem w) then s.byteAt (s.bytePa .read (evexAddr vl s o a) i).toNat
          else if o.z then 0 else vecByte (s.vec o.reg) i
        else 0) ∧
      onlyRegisterWritten s t o.reg o.len

/-- R99 to R101, R109 to R111, store form (the six 7FH rows): exactly the bytes of the selected elements are written. -/
def Obligations.EvexStore : Prop :=
  ∀ (w : Bool) (vl : VLen) (o : EvexOps) (a : Addr) (s : State), (evexRow w vl true o).WellFormed →
    EvexEnabled vl s → s.Inv → o.rm = .mem a →
    operandAllowed s .write (evexAddr vl s o a) vl.bytes (fun i => selects s o.aaa (i / evexElem w)) →
    ∃ t, exec (evexRow w vl true o) s = .next t ∧
      (∀ i < vl.bytes, selects s o.aaa (i / evexElem w) = true →
        t.byteAt (s.bytePa .write (evexAddr vl s o a) i).toNat = vecByte (s.vec o.reg) i) ∧
      onlyMemoryWritten s t (fun b => ∃ i < vl.bytes, selects s o.aaa (i / evexElem w) = true ∧
        b = (s.bytePa .write (evexAddr vl s o a) i).toNat) o.len

/-- R32 (c), R35, R36, with no element selected: an aligned operand, or any under `ZERO_MASK_ALIGN_FAULT` = none, completes
whatever lies at the address; a misaligned one faults under `gp` and does either under `either`. When it completes, memory
is unchanged, a load keeps or zeroes its VL bits and zeroes the bits above, and a store changes no register. -/
def Obligations.EmptyMaskOutcomes : Prop :=
  ∀ (w : Bool) (vl : VLen) (st : Bool) (o : EvexOps) (a : Addr) (s : State), (evexRow w vl st o).WellFormed →
    EvexEnabled vl s → o.rm = .mem a → (∀ j < vl.bytes / evexElem w, selects s o.aaa j = false) →
    ((evexAddr vl s o a).toNat % vl.bytes = 0 ∨ s.cfg.zeroMaskAlignFault = .noFault →
      ∃ t, exec (evexRow w vl st o) s = .next t) ∧
    ((evexAddr vl s o a).toNat % vl.bytes ≠ 0 → s.cfg.zeroMaskAlignFault = .gp →
      exec (evexRow w vl st o) s = .fault .gp) ∧
    (exec (evexRow w vl st o) s = .fault .gp ∨ ∃ t, exec (evexRow w vl st o) s = .next t) ∧
    (∀ t, exec (evexRow w vl st o) s = .next t →
      t = { s with zmm := t.zmm, rip := s.rip + BitVec.ofNat 64 o.len, freeCtr := t.freeCtr } ∧
      (st = true → t.zmm = s.zmm) ∧
      (st = false → (∀ n : VReg, n ≠ o.reg → t.vec n = s.vec n) ∧
        t.vec o.reg = if o.z then 0 else ((s.vec o.reg).setWidth (8 * vl.bytes)).setWidth 512))

/-! ## Equalities between instructions -/

/-- R72 (a), C8: a register copy through opcode 7FH is the copy through 6FH with the operand roles exchanged. -/
def Obligations.OpcodesAgreeOnRegisterCopy : Prop :=
  ∀ (d r : VReg) (s : State),
    (∀ (pre : List Prefix) (rex : Bool),
      exec (legRow true ⟨pre, rex, r, .reg d⟩) s = exec (legRow false ⟨pre, rex, d, .reg r⟩) s) ∧
    (∀ (l : Bool) (pre : List Prefix) (three : Bool),
      exec (vexRow l true ⟨pre, three, r, .reg d⟩) s = exec (vexRow l false ⟨pre, three, d, .reg r⟩) s) ∧
    (∀ (w : Bool) (vl : VLen) (pre : List Prefix) (aaa : KReg) (z : Bool),
      exec (evexRow w vl true ⟨pre, r, .reg d, aaa, z⟩) s = exec (evexRow w vl false ⟨pre, d, .reg r, aaa, z⟩) s)

/-- R105: with `aaa` = 000b VMOVDQA64 and VMOVDQA32 of the same vector length have the same effect, faults included. -/
def Obligations.ElementSizeMattersOnlyUnderMask : Prop :=
  ∀ (vl : VLen) (st : Bool) (o : EvexOps) (s : State), o.aaa = 0 →
    exec (evexRow true vl st o) s = exec (evexRow false vl st o) s

/-- R81, R86, R96, R98: copying a register onto itself changes only `rip` for MOVDQA and for a merging 512-bit copy; VEX
and shorter merging EVEX copies also clear the bits above VL. -/
def Obligations.SelfCopy : Prop :=
  ∀ (st : Bool) (n : VReg) (s : State),
    (∀ o : LegOps, (legRow st o).WellFormed → LegEnabled s → o.reg = n → o.rm = .reg n →
      exec (legRow st o) s = .next { s with rip := s.rip + BitVec.ofNat 64 o.len }) ∧
    (∀ (w : Bool) (vl : VLen) (o : EvexOps), (evexRow w vl st o).WellFormed → EvexEnabled vl s → o.z = false →
      o.reg = n → o.rm = .reg n →
      exec (evexRow w vl st o) s =
        .next ({ s with rip := s.rip + BitVec.ofNat 64 o.len }.setVec n
          (((s.vec n).setWidth (8 * vl.bytes)).setWidth 512))) ∧
    (∀ (l : Bool) (o : VexOps), (vexRow l st o).WellFormed → VexEnabled s → o.reg = n → o.rm = .reg n →
      exec (vexRow l st o) s =
        .next ({ s with rip := s.rip + BitVec.ofNat 64 o.len }.setVec n
          (((s.vec n).setWidth (8 * (vexLen l).bytes)).setWidth 512)))

/-- R162, R41, for every storing row followed by every loading row, masked or not, whatever the widths, element sizes and
offset of the two operands: a loaded byte that lies where the store wrote one is the stored byte, and any other loaded byte
is what memory held before the store. The same byte is the same physical byte (R38): whether `Translate` sends a load and a
store of one linear address to the same byte is left to it (the model's choice, log 4). -/
def Obligations.LoadReturnsStoredBytes : Prop :=
  ∀ (i j : Instr) (s t u : State) (a b : Access) (r d : VReg), s.Inv →
    operandOf i s = some (.write, a) → srcOf i = some r → exec i s = .next t →
    operandOf j t = some (.read, b) → destOf j = some d → exec j t = .next u →
    ∀ q, b.reaches q →
      (∀ p, a.reaches p → s.bytePa .read b.la q = s.bytePa .write a.la p →
        vecByte (u.vec d) q = vecByte (s.vec r) p) ∧
      ((∀ p, a.reaches p → s.bytePa .read b.la q ≠ s.bytePa .write a.la p) →
        vecByte (u.vec d) q = s.byteAt (s.bytePa .read b.la q).toNat)

/-! ## What an instruction does not depend on -/

/-- R35: a load reads only the bytes of selected elements, and a register copy no memory at all. -/
def Obligations.UnselectedBytesNotRead : Prop :=
  ∀ (i : Instr) (s : State) (m : Memory),
    (∀ kind a, operandOf i s = some (kind, a) →
      kind = .read ∧ ∀ b, a.reaches b → m.read (s.bytePa .read a.la b).toNat = s.byteAt (s.bytePa .read a.la b).toNat) →
    exec i { s with mem := m } = mapOut (fun t => { t with mem := m }) (exec i s)

/-- R35, R36, R146, D8: the privilege level and `Translate` matter only through the translation of accessed bytes, and for a
store through where the program's bytes are fetched from (R45): a byte of an unselected element raises no fault. -/
def Obligations.UnselectedBytesNotTranslated : Prop :=
  ∀ (i : Instr) (s : State) (cpl : BitVec 2) (pages : List PageRule) (dflt : PageDefault),
    (∀ kind a, operandOf i s = some (kind, a) →
      (∀ b, a.reaches b →
        { s with cpl := cpl, pages := pages, pageDefault := dflt }.translate (byteAddr a.la b) kind =
          s.translate (byteAddr a.la b) kind) ∧
      (kind = .write → ∀ x : Word, s.inProgram x.toNat = true →
        { s with cpl := cpl, pages := pages, pageDefault := dflt }.translate x .fetch = s.translate x .fetch)) →
    exec i { s with cpl := cpl, pages := pages, pageDefault := dflt } =
      mapOut (fun t => { t with cpl := cpl, pages := pages, pageDefault := dflt }) (exec i s)

/-- R23, R58: of the opmask registers only the low KL bits of `K[aaa]`, `aaa` != 000b, are read, and by EVEX rows only. -/
def Obligations.OnlyLowMaskBitsRead : Prop :=
  ∀ (s : State) (k : Vector Word 8),
    (∀ (w : Bool) (vl : VLen) (st : Bool) (o : EvexOps),
      (∀ j < vl.bytes / evexElem w, selects { s with k := k } o.aaa j = selects s o.aaa j) →
      exec (evexRow w vl st o) { s with k := k } = mapOut (fun t => { t with k := k }) (exec (evexRow w vl st o) s)) ∧
    (∀ (st : Bool) (o : LegOps),
      exec (legRow st o) { s with k := k } = mapOut (fun t => { t with k := k }) (exec (legRow st o) s)) ∧
    (∀ (l st : Bool) (o : VexOps),
      exec (vexRow l st o) { s with k := k } = mapOut (fun t => { t with k := k }) (exec (vexRow l st o) s))

/-- R12, R13, R24, R40, R138: no flag but VM, no MXCSR bit, no base of CS, DS, ES or SS and no D bit has any influence;
CR0.AM and RFLAGS.AC do not change what a misaligned operand does. -/
def Obligations.FlagsAndFlatBasesNotRead : Prop :=
  ∀ (i : Instr) (s : State) (fl cs ds es ss : Word) (mx : BitVec 32) (d am : Bool),
    fl.getLsbD 17 = s.rflags.getLsbD 17 →
    exec i { s with rflags := fl, mxcsr := mx, csD := d, csBase := cs, dsBase := ds, esBase := es, ssBase := ss,
                    cr0 := (s.cr0 &&& ~~~0x40000#64) ||| (BitVec.ofBool am).setWidth 64 <<< 18 } =
      mapOut (fun t => { t with rflags := fl, mxcsr := mx, csD := d, csBase := cs, dsBase := ds, esBase := es,
                                ssBase := ss,
                                cr0 := (s.cr0 &&& ~~~0x40000#64) ||| (BitVec.ofBool am).setWidth 64 <<< 18 })
        (exec i s)

/-! ## The whole machine -/

/-- 10_state.md (opening), R10, R11, R20, R23, R34 to R36: whatever the instruction, the frame: every vector register but
the destination register is unchanged, every byte of memory but those of the selected elements of a memory destination is
unchanged (all of memory, where the operand is read or there is none), `rip` advances by the instruction's length, and
nothing else changes but the model's own counter (log 6). -/
def Obligations.ExecChangesOnlyDestination : Prop :=
  ∀ (i : Instr) (s t : State), s.Inv → exec i s = .next t →
    t = { s with zmm := t.zmm, mem := t.mem, rip := s.rip + BitVec.ofNat 64 i.len, freeCtr := t.freeCtr } ∧
    (∀ n : VReg, destOf i ≠ some n → t.vec n = s.vec n) ∧
    (∀ b : Nat,
      (∀ a, operandOf i s = some (.write, a) → ∀ k, a.reaches k → b ≠ (s.bytePa .write a.la k).toNat) →
      t.byteAt b = s.byteAt b) ∧
    ((∀ a, operandOf i s ≠ some (.write, a)) → t.mem = s.mem)

/-- R22: when an instruction completes, the bits above the operand in its register destination are as the encoding
class says, every other register is unchanged, and a memory destination leaves every register unchanged. -/
def Obligations.UpperBitsByEncodingClass : Prop :=
  (∀ (st : Bool) (o : LegOps) (s t : State), exec (legRow st o) s = .next t →
    (∀ d, destReg st o.reg o.rm = some d → (t.vec d).extractLsb' 128 384 = (s.vec d).extractLsb' 128 384) ∧
    (∀ n, destReg st o.reg o.rm ≠ some n → t.vec n = s.vec n)) ∧
  (∀ (l st : Bool) (o : VexOps) (s t : State), exec (vexRow l st o) s = .next t →
    (∀ d, destReg st o.reg o.rm = some d →
      (t.vec d).extractLsb' (8 * (vexLen l).bytes) (512 - 8 * (vexLen l).bytes) = 0) ∧
    (∀ n, destReg st o.reg o.rm ≠ some n → t.vec n = s.vec n)) ∧
  (∀ (w : Bool) (vl : VLen) (st : Bool) (o : EvexOps) (s t : State), exec (evexRow w vl st o) s = .next t →
    (∀ d, destReg st o.reg o.rm = some d →
      (t.vec d).extractLsb' (8 * vl.bytes) (512 - 8 * vl.bytes) = 0 ∧
      ∀ j < vl.bytes / evexElem w, selects s o.aaa j = false →
        (t.vec d).extractLsb' (8 * evexElem w * j) (8 * evexElem w) =
          if o.z then 0 else (s.vec d).extractLsb' (8 * evexElem w * j) (8 * evexElem w)) ∧
    (∀ n, destReg st o.reg o.rm ≠ some n → t.vec n = s.vec n))

/-- Every step keeps memory in its canonical form. The form is the model's own (DESIGN CHOICE, log 3): no rule of the spec
gives it. -/
def Obligations.StepKeepsMemoryCanonical : Prop :=
  ∀ s t : State, s.Inv → step s = .next t → t.Inv

/-- R45, R162, R166 (c): no step changes a byte of the program: every address of the program fetches after it what it
fetched before. -/
def Obligations.StepKeepsProgramBytes : Prop :=
  ∀ s t : State, s.Inv → step s = .next t →
    t.program = s.program ∧ ∀ x : Nat, s.inProgram x = true → t.fetchByte x = s.fetchByte x

/-- A step writes no general register, opmask register, flag, control register, segment, parameter or `Translate` row:
only vector registers, memory, `rip` and the model's own counter change. -/
def Obligations.StepWritesOnlyVectorsMemoryRip : Prop :=
  ∀ s t : State, step s = .next t →
    t = { s with zmm := t.zmm, mem := t.mem, rip := t.rip, freeCtr := t.freeCtr }

/-- R11, U9: the instruction pointer a step leaves is canonical, and lies 4 to 15 bytes further on, without wrapping. -/
def Obligations.StepKeepsRipCanonical : Prop :=
  ∀ s t : State, step s = .next t →
    canonical t.cfg.vaBits t.rip = true ∧ s.rip.toNat + 4 ≤ t.rip.toNat ∧ t.rip.toNat ≤ s.rip.toNat + 15

/-- A step is `exec` of the decoded instruction: in 64-bit mode, TF = 0, the instruction's bytes and the next address
canonical, and the bytes inside the declared program (R11, R153, R165, R166). -/
def Obligations.StepRunsDecodedInstruction : Prop :=
  ∀ (s : State) (i : Instr) (p : ProgramRange), s.mode = .mode64 → s.rflags.getLsbD 8 = false →
    s.program = some p → p.start ≤ s.rip.toNat → s.rip.toNat + i.len ≤ p.stop → decode s.fetchWindow = .insn i →
    s.rip.toNat + i.len < 2 ^ 64 → (∀ j ≤ i.len, canonical s.cfg.vaBits (byteAddr s.rip j) = true) →
    step s = exec i s

/-- The same from the bytes in memory: where the encoding of a well-formed instruction lies at `rip`, in readable and
executable write-back memory of the declared program (a read reaching the fetched byte), the step runs that instruction,
whatever follows it. -/
def Obligations.StepRunsBytesInMemory : Prop :=
  ∀ (s : State) (i : Instr) (p : ProgramRange), s.mode = .mode64 → s.rflags.getLsbD 8 = false →
    s.program = some p → p.start ≤ s.rip.toNat → s.rip.toNat + i.len ≤ p.stop → i.WellFormed →
    (∀ j < i.len, ∃ pa, s.translate (byteAddr s.rip j) .fetch = .ok pa .writeBack ∧
      s.translate (byteAddr s.rip j) .read = .ok pa .writeBack ∧ some (s.byteAt pa.toNat) = (encode i)[j]?) →
    s.rip.toNat + i.len < 2 ^ 64 → (∀ j ≤ i.len, canonical s.cfg.vaBits (byteAddr s.rip j) = true) →
    step s = exec i s

/-- What the model's load (log 10) sets up of R166's launch state: 64-bit mode (a), TF = 0 (f; bit 8, log 13), `rip` at the
first byte (d), and the bytes given readable, executable and fetched from `rip` on (c), whatever `Translate` held before. -/
def Obligations.LoadedProgramIsReady : Prop :=
  ∀ (s : State) (n : Nat) (bs : List Byte), s.Inv → 0 < bs.length → bs.length ≤ 4096 →
    s.rip.toNat + bs.length ≤ 2 ^ 64 →
    (s.load n bs).mode = .mode64 ∧ (s.load n bs).rflags.getLsbD 8 = false ∧ (s.load n bs).rip = s.rip ∧
      ∀ k < bs.length, (s.load n bs).fetchByte (s.rip.toNat + k) = bs[k]?

/-- Every way a step stops without running an instruction: another mode (R74), the end of the program (R165), bytes of
another instruction (R78, R165), a byte the decoder needs that cannot be fetched (R153, R166 (c), log 14), an instruction
byte or the next address outside the canonical range (R11, U9, log 14), an instruction outside the declared program (R165,
log 9); and the decoder's `UD` and `GP0` are #UD and #GP(0) (R78). The refusal of RFLAGS.TF = 1 is the model's DESIGN CHOICE
and TF's place, bit 8, PRESUMED (log 13): R151 and R166 (f) only assume TF = 0. The order of the tests is the model's. -/
def Obligations.StepStopsByName : Prop :=
  ∀ s : State,
    (s.mode ≠ .mode64 → step s = .refused (.otherMode s.mode)) ∧
    (s.mode = .mode64 → s.rflags.getLsbD 8 = true → step s = .refused .singleStepArmed) ∧
    (s.mode = .mode64 → s.rflags.getLsbD 8 = false →
      (∀ p, s.program = some p → s.rip.toNat = p.stop → step s = .refused .endOfProgram) ∧
      ((∀ p, s.program = some p → s.rip.toNat ≠ p.stop) →
        (decode s.fetchWindow = .notThisFamily → step s = .refused .notThisFamily) ∧
        (decode s.fetchWindow = .truncated → step s = .refused .fetchNotExecutable) ∧
        (∀ n, (∃ i, decode s.fetchWindow = .insn i ∧ i.len = n) ∨ decode s.fetchWindow = .ud n ∨
            decode s.fetchWindow = .gp0 n →
          ((∃ k ≤ n, 2 ^ 64 ≤ s.rip.toNat + k ∨ canonical s.cfg.vaBits (byteAddr s.rip k) = false) →
            step s = .refused .fetchNotCanonical) ∧
          ((∀ k ≤ n, s.rip.toNat + k < 2 ^ 64 ∧ canonical s.cfg.vaBits (byteAddr s.rip k) = true) →
            ((∀ p, s.program = some p → s.rip.toNat < p.start ∨ p.stop < s.rip.toNat + n) →
              step s = .refused .outsideProgram) ∧
            (∀ p, s.program = some p → p.start ≤ s.rip.toNat → s.rip.toNat + n ≤ p.stop →
              (decode s.fetchWindow = .ud n → step s = .fault .ud) ∧
              (decode s.fetchWindow = .gp0 n → step s = .fault .gp))))))
end

