-- ==== Sys2Proof/Laws/Decode.lean ====
section
/-! SUPPORT. Decoder and encoder, piece by piece: prefixes, ModRM and SIB, displacement, prefix bit fields. -/

namespace Sys2Proof

/-! ## Prefixes -/

theorem Prefix.ofByte_byte (p : Prefix) : Prefix.ofByte p.byte = some p := by
  cases p with
  | rex w => revert w; decide
  | _ => decide

/-- Scanning stops at the first byte that is no prefix (R78 step 1). -/
theorem scanPrefixes_map (ps : List Prefix) {b : Byte} (bs : List Byte) (h : Prefix.ofByte b = none) :
    scanPrefixes (ps.map Prefix.byte ++ b :: bs) = (ps, b :: bs) := by
  induction ps with
  | nil => simp [scanPrefixes, h]
  | cons p ps ih => simp [scanPrefixes, Prefix.ofByte_byte, ih]

/-- What scanning splits a byte list into. -/
theorem scanPrefixes_spec (bs : List Byte) :
    bs.length = (scanPrefixes bs).1.length + (scanPrefixes bs).2.length := by
  induction bs with
  | nil => rfl
  | cons b bs ih =>
    simp only [scanPrefixes]
    split
    · simp_all; omega
    · simp

theorem splitRex_concat (ps : List Prefix) (w : BitVec 4) : splitRex (ps ++ [.rex w]) = (ps, some w) := by
  simp [splitRex]

/-- Without a REX prefix last, nothing is split off. -/
theorem splitRex_of_not_rex {ps : List Prefix} (h : endsInRex ps = false) : splitRex ps = (ps, none) := by
  unfold endsInRex splitRex at *
  split at h <;> simp_all

/-- The two cases of R78's `rex`. -/
theorem splitRex_cases (ps : List Prefix) :
    (splitRex ps = (ps, none) ∧ endsInRex ps = false) ∨
      ∃ qs w, ps = qs ++ [.rex w] ∧ splitRex ps = (qs, some w) := by
  by_cases h : endsInRex ps = true
  · right
    unfold endsInRex splitRex at h
    split at h
    · rename_i w hw
      obtain ⟨qs, rfl⟩ := List.getLast?_eq_some_iff.1 hw
      exact ⟨qs, w, rfl, splitRex_concat qs w⟩
    · simp at h
  · left
    have h' : endsInRex ps = false := by simpa using h
    exact ⟨splitRex_of_not_rex h', h'⟩

/-- The bytes that start the opcode are no prefixes. -/
theorem opcodeStart_not_prefix {b : Byte} (h : b = 0x0F ∨ b = 0xC5 ∨ b = 0xC4 ∨ b = 0x62) : Prefix.ofByte b = none := by
  rcases h with rfl | rfl | rfl | rfl <;> decide

/-- Decoding after any list of prefixes (R78 steps 1 and 2). -/
theorem decode_prefixes (ps : List Prefix) {b : Byte} (bs : List Byte) (h : Prefix.ofByte b = none) :
    decode (ps.map Prefix.byte ++ b :: bs) = decodeOpcode ps (b :: bs) := by
  simp [decode, scanPrefixes_map ps bs h]

/-! ## Bit fields -/

theorem modrm_mod (md : BitVec 2) (a b : BitVec 3) : (modrm md a b).extractLsb' 6 2 = md := by
  revert md a b; decide +kernel

theorem modrm_reg (md : BitVec 2) (a b : BitVec 3) : (modrm md a b).extractLsb' 3 3 = a := by
  revert md a b; decide +kernel

theorem modrm_rm (md : BitVec 2) (a b : BitVec 3) : (modrm md a b).extractLsb' 0 3 = b := by
  revert md a b; decide +kernel

theorem ext4_split (b : BitVec 4) : ext4 (b.getLsbD 3) (b.extractLsb' 0 3) = b := by
  revert b; decide +kernel

theorem ext5_split (b : BitVec 5) : ext5 (b.getLsbD 4) (b.getLsbD 3) (b.extractLsb' 0 3) = b := by
  revert b; decide +kernel

theorem ext5_low (b : BitVec 5) (h : b.getLsbD 4 = false) : ext5 false (b.getLsbD 3) (b.extractLsb' 0 3) = b := by
  revert h; revert b; decide +kernel

/-! ## Displacement -/

theorem parse32_le32 (d : BitVec 32) (rest : List Byte) : parse32 (le32 d ++ rest) = some d := by
  simp only [le32, parse32, List.cons_append, List.nil_append, Option.some.injEq]
  ext i hi
  simp only [BitVec.getElem_append, BitVec.getElem_extractLsb']
  split_ifs
  all_goals rw [← BitVec.getLsbD_eq_getElem]; congr 1; omega

theorem parseDisp_bytes (d : Disp) (rest : List Byte) : parseDisp d.mod (d.bytes ++ rest) = some d := by
  cases d <;> simp [parseDisp, Disp.mod, Disp.bytes, parse32_le32]

theorem Disp.mod_ne_three (d : Disp) : d.mod ≠ 3 := by cases d <;> simp [Disp.mod]

theorem Disp.mod_eq_zero (d : Disp) : d.mod = 0 ↔ d = .zero := by cases d <;> simp [Disp.mod]

/-! ## ModRM and SIB -/

/-- An encoded operand is read back, whatever follows it. `x4` is bit 4 of a register operand. -/
theorem parseOperand_bytes (rm : Operand) (reg3 : BitVec 3) (x4 : Bool) (rest : List Byte) (h : rm.WellFormed)
    (h4 : ∀ n, rm = .reg n → x4 = n.getLsbD 4) :
    parseOperand rm.extX rm.extB x4 (rm.bytes reg3 ++ rest) = some (reg3, rm) := by
  cases rm with
  | reg n =>
    simp only [h4 n rfl, parseOperand, Operand.bytes, List.cons_append, modrm_mod, modrm_reg, modrm_rm, if_true,
      Operand.extB, ext5_split]
  | mem a =>
    cases a with
    | base b d =>
      obtain ⟨h1, h2⟩ := h
      have h3 : ¬ (d.mod = 0 ∧ b.extractLsb' 0 3 = 5) := fun ⟨e1, e2⟩ => h2 (d.mod_eq_zero.1 e1) e2
      simp only [parseOperand, Operand.bytes, modrm_mod, modrm_reg, modrm_rm, Operand.extX, Operand.extB, ext4_split,
        List.cons_append, d.mod_ne_three, if_false, parseDisp_bytes, h1, h3]
      rfl
    | sib b x sc d =>
      have h3 : ¬ (d.mod = 0 ∧ b.extractLsb' 0 3 = 5) := fun ⟨e1, e2⟩ => h (d.mod_eq_zero.1 e1) e2
      simp only [parseOperand, Operand.bytes, modrm_mod, modrm_reg, modrm_rm, Operand.extX, Operand.extB, ext4_split,
        List.cons_append, d.mod_ne_three, if_false, if_true, parseSib, h3, parseDisp_bytes]
      rfl
    | sibNoBase x sc d =>
      simp only [parseOperand, Operand.bytes, modrm_mod, modrm_reg, modrm_rm, Operand.extX, ext4_split,
        List.cons_append, parseSib, parse32_le32]
      rfl
    | ripRel d =>
      simp only [parseOperand, Operand.bytes, modrm_mod, modrm_reg, modrm_rm, List.cons_append, parse32_le32]
      rfl

/-- An operand occupies as many bytes as R73 counts. -/
theorem Operand.length_bytes (rm : Operand) (reg3 : BitVec 3) : (rm.bytes reg3).length = rm.size := by
  cases rm with
  | reg n => rfl
  | mem a =>
    cases a with
    | base b d => cases d <;> rfl
    | sib b x sc d => cases d <;> rfl
    | sibNoBase x sc d => rfl
    | ripRel d => rfl

theorem Operand.size_pos (rm : Operand) : 1 ≤ rm.size := by
  unfold Operand.size
  split <;> omega

theorem Operand.size_le (rm : Operand) : rm.size ≤ 6 := by
  cases rm with
  | reg n => simp [Operand.size]
  | mem a =>
    cases a with
    | base b d => cases d <;> simp [Operand.size, Disp.size]
    | sib b x sc d => cases d <;> simp [Operand.size, Disp.size]
    | sibNoBase x sc d => simp [Operand.size]
    | ripRel d => simp [Operand.size]

/-- R73's length is the number of bytes of the encoding. -/
theorem Instr.length_encode (i : Instr) : (encode i).length = i.len := by
  cases i <;>
    simp only [encode, encodeLeg, encodeVex, encodeEvex, Instr.len, LegOps.len, VexOps.len, EvexOps.len,
      List.length_append, List.length_map, List.length_cons, Operand.length_bytes] <;>
    first
      | omega
      | (split <;> simp <;> omega)

/-- Any six bytes hold an operand. -/
theorem parseOperand_of_six (x b x4 : Bool) {bs : List Byte} (h : 6 ≤ bs.length) :
    ∃ r, parseOperand x b x4 bs = some r := by
  match bs, h with
  | m :: b0 :: b1 :: b2 :: b3 :: b4 :: rest, _ =>
    simp only [parseOperand, parseSib, parseDisp, parse32]
    split_ifs <;> simp

/-- What reads an operand reads the same operand when more bytes follow. -/
theorem parseOperand_append {x b x4 : Bool} {bs : List Byte} {r : BitVec 3 × Operand} (h : parseOperand x b x4 bs = some r)
    (more : List Byte) : parseOperand x b x4 (bs ++ more) = some r := by
  have h32 : ∀ {cs : List Byte} {d : BitVec 32}, parse32 cs = some d → parse32 (cs ++ more) = some d := by
    intro cs d hd
    match cs, hd with
    | b0 :: b1 :: b2 :: b3 :: cs, hd => simpa [parse32] using hd
  have hdisp : ∀ {md : BitVec 2} {cs : List Byte} {d : Disp}, parseDisp md cs = some d → parseDisp md (cs ++ more) = some d := by
    intro md cs d hd
    unfold parseDisp at *
    split_ifs at hd ⊢
    · exact hd
    · match cs, hd with
      | c :: cs, hd => simpa using hd
    · simp only [Option.map_eq_some_iff] at *
      obtain ⟨e, he, rfl⟩ := hd
      exact ⟨e, h32 he, rfl⟩
  match bs, h with
  | m :: bs, h =>
    simp only [parseOperand, List.cons_append] at *
    split_ifs at h ⊢
    · exact h
    · simp only [Option.map_eq_some_iff] at *
      obtain ⟨a, ha, rfl⟩ := h
      refine ⟨a, ?_, rfl⟩
      match bs, ha with
      | sb :: bs, ha =>
        simp only [parseSib, List.cons_append] at *
        split_ifs at ha ⊢
        · simp only [Option.map_eq_some_iff] at *
          obtain ⟨e, he, rfl⟩ := ha
          exact ⟨e, h32 he, rfl⟩
        · simp only [Option.map_eq_some_iff] at *
          obtain ⟨e, he, rfl⟩ := ha
          exact ⟨e, hdisp he, rfl⟩
    · simp only [Option.map_eq_some_iff] at *
      obtain ⟨e, he, rfl⟩ := h
      exact ⟨e, h32 he, rfl⟩
    · simp only [Option.map_eq_some_iff] at *
      obtain ⟨e, he, rfl⟩ := h
      exact ⟨e, hdisp he, rfl⟩

/-- What the operand reader answers is well-formed, inside the bytes given, and its extension bits are those passed in
where a field uses them. -/
theorem parseOperand_spec {x b x4 : Bool} {bs : List Byte} {r : BitVec 3 × Operand} (h : parseOperand x b x4 bs = some r) :
    r.2.WellFormed ∧ r.2.size ≤ bs.length ∧
      (x4 = false → r.2.regBelow16) ∧ (x = false → x4 = false → r.2.extX = false) ∧ (b = false → r.2.extB = false) := by
  have h32 : ∀ {cs : List Byte} {d : BitVec 32}, parse32 cs = some d → 4 ≤ cs.length := by
    intro cs d hd
    match cs, hd with
    | b0 :: b1 :: b2 :: b3 :: cs, _ => simp
  have hdisp : ∀ {md : BitVec 2} {cs : List Byte} {d : Disp}, parseDisp md cs = some d →
      d.size ≤ cs.length ∧ (d = .zero → md = 0) := by
    intro md cs d hd
    unfold parseDisp at hd
    split_ifs at hd with h1 h2
    · obtain rfl : Disp.zero = d := by simpa using hd
      exact ⟨by simp [Disp.size], fun _ => h1⟩
    · match cs, hd with
      | c :: cs, hd =>
        obtain rfl : Disp.d8 c = d := by simpa using hd
        exact ⟨by simp [Disp.size], by simp⟩
    · simp only [Option.map_eq_some_iff] at hd
      obtain ⟨e, he, rfl⟩ := hd
      exact ⟨h32 he, by simp⟩
  have e4 : ∀ (e : Bool) (q : BitVec 3), (ext4 e q).extractLsb' 0 3 = q := by decide +kernel
  have e4' : ∀ (e : Bool) (q : BitVec 3), (ext4 e q).getLsbD 3 = e := by decide +kernel
  have e5 : ∀ (h e : Bool) (q : BitVec 3), (ext5 h e q).getLsbD 4 = h ∧ (ext5 h e q).getLsbD 3 = e := by decide +kernel
  match bs, h with
  | m :: bs, h =>
    simp only [parseOperand] at h
    split_ifs at h with h1 h2 h3
    · obtain rfl := by simpa using h.symm
      refine ⟨trivial, by simp [Operand.size], ?_, ?_, ?_⟩
      · intro hx; simpa [Operand.regBelow16, hx] using (e5 x4 b _).1
      · intro _ hx; simpa [Operand.extX, hx] using (e5 x4 b _).1
      · intro hb; simpa [Operand.extB, hb] using (e5 x4 b _).2
    · simp only [Option.map_eq_some_iff] at h
      obtain ⟨a, ha, rfl⟩ := h
      match bs, ha with
      | sb :: bs, ha =>
        simp only [parseSib] at ha
        split_ifs at ha with h4
        · simp only [Option.map_eq_some_iff] at ha
          obtain ⟨d, hd, rfl⟩ := ha
          have := h32 hd
          refine ⟨trivial, ?_, fun _ => trivial, ?_, fun _ => rfl⟩
          · simp only [Operand.size, List.length_cons]; omega
          · intro hx _; simp only [Operand.extX, hx, e4']
        · simp only [Option.map_eq_some_iff] at ha
          obtain ⟨d, hd, rfl⟩ := ha
          obtain ⟨h5, h6⟩ := hdisp hd
          refine ⟨?_, ?_, fun _ => trivial, ?_, ?_⟩
          · intro hz; rw [e4]; exact fun h7 => h4 ⟨h6 hz, h7⟩
          · simp only [Operand.size, List.length_cons]; omega
          · intro hx _; simp only [Operand.extX, hx, e4']
          · intro hb; simp only [Operand.extB, hb, e4']
    · simp only [Option.map_eq_some_iff] at h
      obtain ⟨d, hd, rfl⟩ := h
      have := h32 hd
      refine ⟨trivial, ?_, fun _ => trivial, fun _ _ => rfl, fun _ => rfl⟩
      simp only [Operand.size, List.length_cons]; omega
    · simp only [Option.map_eq_some_iff] at h
      obtain ⟨d, hd, rfl⟩ := h
      obtain ⟨h5, h6⟩ := hdisp hd
      refine ⟨⟨by rw [e4]; exact h2, ?_⟩, ?_, fun _ => trivial, fun _ _ => rfl, ?_⟩
      · intro hz; rw [e4]; exact fun h7 => h3 ⟨h6 hz, h7⟩
      · simp only [Operand.size, List.length_cons]; omega
      · intro hb; simp only [Operand.extB, hb, e4']

/-- The number of bytes the operand parser takes is that of `modrmSize` (R61, R73). -/
theorem parseOperand_size {x b x4 : Bool} {bs : List Byte} {r : BitVec 3 × Operand} (h : parseOperand x b x4 bs = some r) :
    r.2.size = Machine.modrmSize bs := by
  have hdisp : ∀ {md : BitVec 2} {cs : List Byte} {d : Disp}, parseDisp md cs = some d →
      d.size = if md = 0 then 0 else if md = 1 then 1 else 4 := by
    intro md cs d hd
    unfold parseDisp at hd
    split_ifs at hd ⊢ with h1 h2
    · obtain rfl : Disp.zero = d := by simpa using hd
      rfl
    · match cs, hd with
      | c :: cs, hd =>
        obtain rfl : Disp.d8 c = d := by simpa using hd
        rfl
    · simp only [Option.map_eq_some_iff] at hd
      obtain ⟨e, he, rfl⟩ := hd
      rfl
  have m2 : ∀ md : BitVec 2, md = 0 ∨ md = 1 ∨ md = 2 ∨ md = 3 := by decide
  have hsib : ∀ {md : BitVec 2} {cs : List Byte} {a : Addr}, md ≠ 3 → parseSib x b md cs = some a →
      (Operand.mem a).size = 2 + (if md = 1 then 1 else if md = 2 then 4
        else if (cs.headD 0).extractLsb' 0 3 = 5 then 4 else 0) := by
    intro md cs a h3 ha
    match cs, ha with
    | sb :: cs, ha =>
      simp only [parseSib] at ha
      have hh : (sb :: cs).headD 0 = sb := rfl
      split_ifs at ha with h4
      · simp only [Option.map_eq_some_iff] at ha
        obtain ⟨d, hd, rfl⟩ := ha
        simp [Operand.size, h4.1, h4.2]
      · simp only [Option.map_eq_some_iff] at ha
        obtain ⟨d, hd, rfl⟩ := ha
        simp only [Operand.size, hdisp hd]
        rcases m2 md with hm | hm | hm | hm
        · have h5 : ¬ sb.extractLsb' 0 3 = 5 := fun e => h4 ⟨hm, e⟩
          rw [if_pos hm, if_neg (by rw [hm]; decide), if_neg (by rw [hm]; decide), hh, if_neg h5]
        · rw [if_neg (by rw [hm]; decide), if_pos hm, if_pos hm]
        · rw [if_neg (by rw [hm]; decide), if_neg (by rw [hm]; decide), if_neg (by rw [hm]; decide), if_pos hm]
        · exact absurd hm h3
  match bs, h with
  | m :: bs, h =>
    simp only [parseOperand] at h
    simp only [Machine.modrmSize]
    split_ifs at h with h1 h2 h3
    · obtain rfl := by simpa using h.symm
      simp [h1, Operand.size]
    · simp only [Option.map_eq_some_iff] at h
      obtain ⟨a, ha, rfl⟩ := h
      rw [if_neg h1, if_pos h2, hsib h1 ha]
      simp [h2]
    · simp only [Option.map_eq_some_iff] at h
      obtain ⟨a, ha, rfl⟩ := h
      rw [if_neg h1, if_neg h2]
      simp [h3, Operand.size]
    · simp only [Option.map_eq_some_iff] at h
      obtain ⟨d, hd, rfl⟩ := h
      rw [if_neg h1, if_neg h2]
      simp only [Operand.size, hdisp hd]
      rcases m2 (m.extractLsb' 6 2) with hm | hm | hm | hm
      · have h5 : ¬ m.extractLsb' 0 3 = 5 := fun e => h3 ⟨hm, e⟩
        rw [if_pos hm, if_neg (by rw [hm]; decide), if_neg (by rw [hm]; decide),
          if_neg (by rintro (e | ⟨e, -⟩); exacts [h5 e, h2 e])]
      · rw [if_neg (by rw [hm]; decide), if_pos hm, if_pos hm]
      · rw [if_neg (by rw [hm]; decide), if_neg (by rw [hm]; decide), if_neg (by rw [hm]; decide), if_pos hm]
      · exact absurd hm h1

/-! ## The verdict -/

theorem conclude_insn {len : Nat} {ud : Bool} {i : Option Instr} {j : Instr} (h : conclude len ud i = .insn j) :
    len ≤ 15 ∧ ud = false ∧ i = some j := by
  unfold conclude at h
  split at h
  · simp at h
  · split at h
    · simp at h
    · split at h
      · rename_i h1 h2 _ _
        exact ⟨by omega, by simpa using h2, by simpa using h⟩
      · simp at h

theorem conclude_ud (len : Nat) (i : Option Instr) : conclude len true i = if len > 15 then .gp0 len else .ud len := by
  unfold conclude
  split <;> simp

/-- The verdict on undefined bytes is #UD, or the length fault. -/
theorem conclude_undefined (len : Nat) (i : Option Instr) : conclude len true i = Machine.undefinedBytes len :=
  conclude_ud len i

theorem conclude_of_le {len : Nat} (h : len ≤ 15) (i : Instr) : conclude len false (some i) = .insn i := by
  unfold conclude
  simp [show ¬ len > 15 by omega]

theorem conclude_of_gt {len : Nat} (h : 15 < len) (ud : Bool) (i : Option Instr) : conclude len ud i = .gp0 len := by
  unfold conclude
  simp [h]

end Sys2Proof
end

