-- ==== Sys2Proof/Laws/Memory.lean ====
section
/-! SUPPORT. Memory: a read after a write, the canonical form that every write keeps, and what translation keeps. -/

namespace Sys2Proof.Machine

theorem Memory.wf_nil : Memory.wf [] := by simp [Memory.wf]

theorem Memory.wf_cons {c : Host.Cell} {m : Memory} :
    Memory.wf (c :: m) ↔ (∀ d ∈ m, c.1 < d.1) ∧ c.1 < 2 ^ 64 ∧ c.2 ≠ Memory.unlisted ∧ Memory.wf m := by
  simp only [Memory.wf, List.pairwise_cons, List.mem_cons, forall_eq_or_imp]
  tauto

/-- The canonical form by comparing neighbours only. -/
theorem Memory.wf_of_chain {m : Memory} (h : m.IsChain fun c d => c.1 < d.1)
    (h' : ∀ c ∈ m, c.1 < 2 ^ 64 ∧ c.2 ≠ Memory.unlisted) : m.wf := by
  refine ⟨?_, h'⟩
  have htr : IsTrans Host.Cell (fun c d => c.1 < d.1) := ⟨fun _ _ _ => Nat.lt_trans⟩
  exact List.isChain_iff_pairwise.1 h

/-- An address below every listed one reads as an unlisted byte. -/
theorem Memory.read_below {m : Memory} {a : Nat} (h : ∀ c ∈ m, a < c.1) : m.read a = Memory.unlisted := by
  induction m with
  | nil => rfl
  | cons c m ih =>
    have h1 := h c (by simp)
    have h2 : a ≠ c.1 := by omega
    rw [show c = (c.1, c.2) from rfl, Memory.read]
    simp [h2, ih fun d hd => h d (by simp [hd])]

/-- A byte that does not read as unlisted is listed. -/
theorem Memory.mem_of_read_ne {m : Memory} {a : Nat} (h : m.read a ≠ Memory.unlisted) : a ∈ m.map (·.1) := by
  induction m with
  | nil => simp [Memory.read] at h
  | cons c m ih =>
    obtain ⟨b, w⟩ := c
    by_cases hab : a = b
    · simp [hab]
    · simp only [Memory.read, hab, if_false] at h
      simpa using Or.inr (by simpa using ih h)

theorem Memory.read_write_same {m : Memory} (hm : m.wf) (a : Nat) (v : Byte) : (m.write a v).read a = v := by
  induction m with
  | nil =>
    simp only [Memory.write]
    split <;> simp_all [Memory.read]
  | cons c m ih =>
    obtain ⟨b, w⟩ := c
    obtain ⟨h1, -, -, h4⟩ := Memory.wf_cons.1 hm
    simp only [Memory.write]
    split
    · rename_i hab
      split
      · rename_i hv
        have : ∀ d ∈ ((b, w) :: m : Memory), a < d.1 := by
          intro d hd
          rcases List.mem_cons.1 hd with rfl | hd
          · exact hab
          · exact Nat.lt_trans hab (h1 d hd)
        rw [Memory.read_below this, hv]
      · simp [Memory.read]
    · split
      · rename_i hab
        subst hab
        split
        · rename_i hv
          rw [Memory.read_below (fun d hd => h1 d hd), hv]
        · simp [Memory.read]
      · rename_i hab
        simp [Memory.read, hab, ih h4]

theorem Memory.read_write_other {m : Memory} (hm : m.wf) {a a' : Nat} (v : Byte) (h : a' ≠ a) :
    (m.write a v).read a' = m.read a' := by
  induction m with
  | nil =>
    simp only [Memory.write]
    split <;> simp [Memory.read, h]
  | cons c m ih =>
    obtain ⟨b, w⟩ := c
    obtain ⟨h1, -, -, h4⟩ := Memory.wf_cons.1 hm
    simp only [Memory.write]
    split
    · split
      · rfl
      · simp [Memory.read, h]
    · split
      · rename_i hab
        subst hab
        split <;> simp [Memory.read, h]
      · simp [Memory.read, ih h4]

theorem Memory.mem_write {m : Memory} {a : Nat} {v : Byte} {c : Host.Cell} (h : c ∈ m.write a v) :
    c ∈ m ∨ c = (a, v) := by
  induction m with
  | nil =>
    simp only [Memory.write] at h
    split at h <;> simp_all
  | cons d m ih =>
    obtain ⟨b, w⟩ := d
    simp only [Memory.write] at h
    split at h
    · split at h
      · exact Or.inl h
      · rcases List.mem_cons.1 h with h | h
        · exact Or.inr h
        · exact Or.inl h
    · split at h
      · split at h
        · exact Or.inl (List.mem_cons_of_mem _ h)
        · rcases List.mem_cons.1 h with h | h
          · exact Or.inr h
          · exact Or.inl (List.mem_cons_of_mem _ h)
      · rcases List.mem_cons.1 h with h | h
        · exact Or.inl (by simp [h])
        · rcases ih h with h | h
          · exact Or.inl (List.mem_cons_of_mem _ h)
          · exact Or.inr h

/-- A write keeps the canonical form. -/
theorem Memory.write_wf {m : Memory} (hm : m.wf) {a : Nat} (ha : a < 2 ^ 64) (v : Byte) : (m.write a v).wf := by
  induction m with
  | nil =>
    simp only [Memory.write]
    split
    · exact Memory.wf_nil
    · rename_i hv
      exact Memory.wf_cons.2 ⟨by simp, ha, hv, Memory.wf_nil⟩
  | cons c m ih =>
    obtain ⟨b, w⟩ := c
    obtain ⟨h1, h2, h3, h4⟩ := Memory.wf_cons.1 hm
    simp only [Memory.write]
    split
    · rename_i hab
      split
      · exact hm
      · rename_i hv
        refine Memory.wf_cons.2 ⟨?_, ha, hv, hm⟩
        intro d hd
        rcases List.mem_cons.1 hd with rfl | hd
        · exact hab
        · exact Nat.lt_trans hab (h1 d hd)
    · split
      · rename_i hab
        subst hab
        split
        · exact h4
        · rename_i hv
          exact Memory.wf_cons.2 ⟨h1, h2, hv, h4⟩
      · rename_i hnlt hne
        refine Memory.wf_cons.2 ⟨?_, h2, h3, ih h4⟩
        intro d hd
        rcases Memory.mem_write hd with hd | rfl
        · exact h1 d hd
        · show b < a; omega

theorem Memory.writeBytes_wf {m : Memory} (hm : m.wf) (addr : Nat → Word) (v : Vec) (sel : Nat → Bool) (n : Nat) :
    (m.writeBytes addr v sel n).wf := by
  induction n with
  | zero => exact hm
  | succ n ih =>
    simp only [Memory.writeBytes]
    split
    · exact Memory.write_wf ih (BitVec.isLt _) _
    · exact ih

theorem Memory.place_wf {m : Memory} (hm : m.wf) (addr : Word → Word) (a : Word) (bs : List Byte) :
    (m.place addr a bs).wf := by
  induction bs generalizing m a with
  | nil => exact hm
  | cons b bs ih => exact ih (Memory.write_wf hm (BitVec.isLt _) _) _

/-- Distinct offsets below 2^64 name distinct byte addresses. -/
theorem byteAddr_ne {la : Word} {i j : Nat} (hi : i < 2 ^ 64) (hj : j < 2 ^ 64) (h : i ≠ j) :
    (byteAddr la i).toNat ≠ (byteAddr la j).toNat := by
  intro e
  have e' := BitVec.eq_of_toNat_eq e
  simp only [byteAddr, BitVec.add_right_inj] at e'
  have := congrArg BitVec.toNat e'
  simp only [BitVec.toNat_ofNat, Nat.mod_eq_of_lt hi, Nat.mod_eq_of_lt hj] at this
  exact h this

/-- A store leaves every byte it does not write. -/
theorem Memory.read_writeBytes_other {m : Memory} (hm : m.wf) (addr : Nat → Word) (v : Vec) (sel : Nat → Bool) (n : Nat)
    {a : Nat} (h : ∀ i < n, sel i = true → a ≠ (addr i).toNat) : (m.writeBytes addr v sel n).read a = m.read a := by
  induction n with
  | zero => rfl
  | succ n ih =>
    have ih' := ih fun i hi => h i (by omega)
    simp only [Memory.writeBytes]
    split
    · rename_i hs
      rw [Memory.read_write_other (Memory.writeBytes_wf hm _ _ _ _) _ (h n (by omega) hs), ih']
    · exact ih'

/-- A store writes byte `i` of the value to `addr i`. -/
theorem Memory.read_writeBytes_stored {m : Memory} (hm : m.wf) (addr : Nat → Word) (v : Vec) (sel : Nat → Bool) {n : Nat}
    (hinj : ∀ i < n, ∀ j < n, i ≠ j → (addr i).toNat ≠ (addr j).toNat) {i : Nat} (hi : i < n) (hs : sel i = true) :
    (m.writeBytes addr v sel n).read (addr i).toNat = v.extractLsb' (8 * i) 8 := by
  induction n with
  | zero => omega
  | succ n ih =>
    simp only [Memory.writeBytes]
    by_cases hin : i = n
    · subst hin
      rw [if_pos hs, Memory.read_write_same (Memory.writeBytes_wf hm _ _ _ _)]
    · have ih' := ih (fun i hi j hj => hinj i (by omega) j (by omega)) (by omega)
      split
      · rw [Memory.read_write_other (Memory.writeBytes_wf hm _ _ _ _) _ (hinj i hi n (by omega) hin), ih']
      · exact ih'

/-! ## Translation (R38) -/

theorem Translation.isWriteBack_iff {t : Translation} : t.isWriteBack = true ↔ ∃ pa, t = .ok pa .writeBack := by
  cases t <;> simp [Translation.isWriteBack]

/-- Bit `i` of an address put together from page and offset. -/
theorem getLsbD_page_offset (f : BitVec 52) (o : BitVec 12) (i : Nat) :
    (f ++ o : Word).getLsbD i = if i < 12 then o.getLsbD i else f.getLsbD (i - 12) :=
  (BitVec.getLsbD_append (x := f) (y := o) (i := i)).trans (by split <;> simp_all)

theorem page_offset_low (f : BitVec 52) (o : BitVec 12) : (f ++ o : Word).extractLsb' 0 12 = o := by
  ext i hi
  rw [BitVec.getElem_extractLsb', getLsbD_page_offset]
  simp [hi]

/-- An address is its page and its offset. -/
theorem page_offset_self (x : Word) : (x.extractLsb' 12 52 ++ x.extractLsb' 0 12 : Word) = x := by
  apply BitVec.eq_of_getLsbD_eq
  intro i hi
  rw [getLsbD_page_offset]
  split
  · simp [*]
  · rw [BitVec.getLsbD_extractLsb', decide_eq_true (by omega), Bool.true_and]; congr 1; omega

/-- Translation keeps the offset in the page. -/
theorem State.translate_low {s : State} {a pa : Word} {kind : AccessKind} {t : MemType} (h : s.translate a kind = .ok pa t) :
    pa.extractLsb' 0 12 = a.extractLsb' 0 12 := by
  unfold State.translate at h
  split at h
  · rename_i r _
    unfold PageEntry.answer at h
    split at h
    · rename_i f t' _
      obtain ⟨rfl, -⟩ : f ++ a.extractLsb' 0 12 = pa ∧ _ := by simpa using h
      exact page_offset_low f _
    · simp at h
  · unfold PageDefault.answer at h
    split at h
    · simp at h; rw [h.1]
    · simp at h

theorem State.physAddr_low (s : State) (kind : AccessKind) (a : Word) :
    (s.physAddr kind a).extractLsb' 0 12 = a.extractLsb' 0 12 := by
  unfold State.physAddr
  split
  · rename_i h; exact State.translate_low h
  · rfl

theorem State.physAddr_of_ok {s : State} {a pa : Word} {kind : AccessKind} {t : MemType} (h : s.translate a kind = .ok pa t) :
    s.physAddr kind a = pa := by simp [State.physAddr, h]

/-- Distinct bytes of an operand lie at distinct physical addresses. -/
theorem State.bytePa_ne (s : State) (kind : AccessKind) (la : Word) {i j : Nat} (hi : i < 4096) (hj : j < 4096) (h : i ≠ j) :
    (s.bytePa kind la i).toNat ≠ (s.bytePa kind la j).toNat := by
  intro e
  have e' : s.bytePa kind la i = s.bytePa kind la j := BitVec.eq_of_toNat_eq e
  have e2 := congrArg (fun w : Word => (w.extractLsb' 0 12).toNat) e'
  simp only [State.bytePa, State.physAddr_low, byteAddr, BitVec.extractLsb'_toNat, BitVec.toNat_add, BitVec.toNat_ofNat] at e2
  omega

/-- The program's bytes in physical memory (R45). -/
theorem State.holdsProgram_iff {s : State} {pa : Word} :
    s.holdsProgram pa = true ↔ ∃ x : Word, s.inProgram x.toNat = true ∧ ∃ t, s.translate x .fetch = .ok pa t := by
  have hf : ∀ x, s.fetchesFrom x pa = true ↔ ∃ t, s.translate x .fetch = .ok pa t := by
    intro x
    unfold State.fetchesFrom
    split
    · rename_i pa' t h; rw [h]; simp
    · rename_i h; rw [h]; simp
  simp only [State.holdsProgram, List.any_eq_true, Bool.and_eq_true, hf]
  refine ⟨fun ⟨x, _, h⟩ => ⟨x, h⟩, fun ⟨x, hx, t, ht⟩ => ⟨x, ?_, hx, t, ht⟩⟩
  have hlow := State.translate_low ht
  unfold State.translate at ht
  split at ht
  · rename_i r hr
    refine List.mem_cons_of_mem _ (List.mem_map.2 ⟨r, List.mem_of_find?_eq_some hr, ?_⟩)
    have hp : r.page = x.extractLsb' 12 52 := by
      have := List.find?_some hr
      simp only [Bool.and_eq_true, beq_iff_eq] at this
      exact this.1.1
    rw [hlow, hp, page_offset_self]
  · unfold PageDefault.answer at ht
    split at ht
    · obtain ⟨rfl, -⟩ : x = pa ∧ _ := by simpa using ht
      simp
    · simp at ht

/-- The store test of R45: the program's range, and its bytes in physical memory. -/
theorem State.storesProgram_iff {s : State} {a : Word} :
    s.storesProgram a = true ↔ s.inProgram a.toNat = true ∨
      ∃ x : Word, s.inProgram x.toNat = true ∧ ∃ t, s.translate x .fetch = .ok (s.physAddr .write a) t := by
  simp [State.storesProgram, State.holdsProgram_iff]

/-! ## Loaded operands -/

/-- Bit `b` of a loaded operand: bit `b % 8` of byte `b / 8`, if that byte is selected. -/
theorem Memory.getLsbD_readBytes (m : Memory) (addr : Nat → Word) (sel : Nat → Bool) {n : Nat} (hn : n ≤ 64) (b : Nat) :
    (m.readBytes addr sel n).getLsbD b =
      (decide (b < 8 * n) && (sel (b / 8) && (m.read (addr (b / 8)).toNat).getLsbD (b % 8))) := by
  induction n with
  | zero => simp [Memory.readBytes]
  | succ n ih =>
    simp only [Memory.readBytes, BitVec.getLsbD_or, ih (by omega)]
    by_cases hb : b / 8 = n
    · have h1 : ¬ b < 8 * n := by omega
      have h2 : b < 8 * (n + 1) := by omega
      have h3 : b - 8 * n = b % 8 := by omega
      have h4 : b < 512 := by omega
      cases hs : sel n
      · simp [hb, hs, h2]
      · simp [hb, hs, h1, h2, h3, h4]
    · by_cases hlt : b < 8 * n
      · have h2 : b < 8 * (n + 1) := by omega
        cases hs : sel n <;> simp [hlt, h2, BitVec.getLsbD_shiftLeft]
      · have h2 : ¬ b < 8 * (n + 1) := by omega
        have h3 : 8 ≤ b - 8 * n := by omega
        have h4 : (m.read (addr n).toNat).getLsbD (b - 8 * n) = false := BitVec.getLsbD_of_ge _ _ h3
        cases hs : sel n <;> simp [hlt, h2, h4, BitVec.getLsbD_shiftLeft, BitVec.getLsbD_setWidth]

/-- Byte `i` of a loaded operand. -/
theorem Memory.extract_readBytes (m : Memory) (addr : Nat → Word) (sel : Nat → Bool) {n : Nat} (hn : n ≤ 64) {i : Nat}
    (hi : i < n) (hs : sel i = true) : (m.readBytes addr sel n).extractLsb' (8 * i) 8 = m.read (addr i).toNat := by
  ext b hb
  have h1 : (8 * i + b) / 8 = i := by omega
  have h2 : (8 * i + b) % 8 = b := by omega
  have h3 : 8 * i + b < 8 * n := by omega
  simp only [BitVec.getElem_extractLsb', Memory.getLsbD_readBytes m addr sel hn, h1, h2, hs, h3]
  simp [BitVec.getLsbD_eq_getElem hb]

end Sys2Proof.Machine
end

