-- ==== Sys2Proof/Laws/State.lean ====
section
/-! SUPPORT. What each update of the state leaves in each field: one lemma per field and update. -/

namespace Sys2Proof.Machine

/-! ## Writing a vector register -/

@[simp] theorem State.setVec_x (s : State) (n : VReg) (v : Vec) : (s.setVec n v).x = s.x := rfl
@[simp] theorem State.setVec_rip (s : State) (n : VReg) (v : Vec) : (s.setVec n v).rip = s.rip := rfl
@[simp] theorem State.setVec_rflags (s : State) (n : VReg) (v : Vec) : (s.setVec n v).rflags = s.rflags := rfl
@[simp] theorem State.setVec_mxcsr (s : State) (n : VReg) (v : Vec) : (s.setVec n v).mxcsr = s.mxcsr := rfl
@[simp] theorem State.setVec_cr0 (s : State) (n : VReg) (v : Vec) : (s.setVec n v).cr0 = s.cr0 := rfl
@[simp] theorem State.setVec_cr4 (s : State) (n : VReg) (v : Vec) : (s.setVec n v).cr4 = s.cr4 := rfl
@[simp] theorem State.setVec_xcr0 (s : State) (n : VReg) (v : Vec) : (s.setVec n v).xcr0 = s.xcr0 := rfl
@[simp] theorem State.setVec_efer (s : State) (n : VReg) (v : Vec) : (s.setVec n v).efer = s.efer := rfl
@[simp] theorem State.setVec_csL (s : State) (n : VReg) (v : Vec) : (s.setVec n v).csL = s.csL := rfl
@[simp] theorem State.setVec_csD (s : State) (n : VReg) (v : Vec) : (s.setVec n v).csD = s.csD := rfl
@[simp] theorem State.setVec_csBase (s : State) (n : VReg) (v : Vec) : (s.setVec n v).csBase = s.csBase := rfl
@[simp] theorem State.setVec_dsBase (s : State) (n : VReg) (v : Vec) : (s.setVec n v).dsBase = s.dsBase := rfl
@[simp] theorem State.setVec_esBase (s : State) (n : VReg) (v : Vec) : (s.setVec n v).esBase = s.esBase := rfl
@[simp] theorem State.setVec_ssBase (s : State) (n : VReg) (v : Vec) : (s.setVec n v).ssBase = s.ssBase := rfl
@[simp] theorem State.setVec_fsBase (s : State) (n : VReg) (v : Vec) : (s.setVec n v).fsBase = s.fsBase := rfl
@[simp] theorem State.setVec_gsBase (s : State) (n : VReg) (v : Vec) : (s.setVec n v).gsBase = s.gsBase := rfl
@[simp] theorem State.setVec_cpl (s : State) (n : VReg) (v : Vec) : (s.setVec n v).cpl = s.cpl := rfl
@[simp] theorem State.setVec_k (s : State) (n : VReg) (v : Vec) : (s.setVec n v).k = s.k := rfl
@[simp] theorem State.setVec_mem (s : State) (n : VReg) (v : Vec) : (s.setVec n v).mem = s.mem := rfl
@[simp] theorem State.setVec_pages (s : State) (n : VReg) (v : Vec) : (s.setVec n v).pages = s.pages := rfl
@[simp] theorem State.setVec_pageDefault (s : State) (n : VReg) (v : Vec) : (s.setVec n v).pageDefault = s.pageDefault := rfl
@[simp] theorem State.setVec_program (s : State) (n : VReg) (v : Vec) : (s.setVec n v).program = s.program := rfl
@[simp] theorem State.setVec_cfg (s : State) (n : VReg) (v : Vec) : (s.setVec n v).cfg = s.cfg := rfl
@[simp] theorem State.setVec_freeCtr (s : State) (n : VReg) (v : Vec) : (s.setVec n v).freeCtr = s.freeCtr := rfl

@[simp] theorem State.vec_setVec_same (s : State) (n : VReg) (v : Vec) : (s.setVec n v).vec n = v := by
  simp [State.setVec, State.vec]

theorem State.vec_setVec_other (s : State) (n m : VReg) (v : Vec) (h : m ≠ n) : (s.setVec n v).vec m = s.vec m := by
  have h' : n.toNat ≠ m.toNat := fun e => h (BitVec.eq_of_toNat_eq e.symm)
  simp [State.setVec, State.vec, h']

/-! ## What `Translate` and the program's range do not depend on -/

@[simp] theorem State.setVec_translate (s : State) (n : VReg) (v : Vec) (a : Word) (kind : AccessKind) :
    (s.setVec n v).translate a kind = s.translate a kind := rfl
@[simp] theorem State.retire_translate (s : State) (len : Nat) (a : Word) (kind : AccessKind) :
    (s.retire len).translate a kind = s.translate a kind := rfl
@[simp] theorem State.storeOperand_translate (s : State) (x : Access) (v : Vec) (a : Word) (kind : AccessKind) :
    (s.storeOperand x v).translate a kind = s.translate a kind := rfl
@[simp] theorem State.setVec_inProgram (s : State) (n : VReg) (v : Vec) (a : Nat) :
    (s.setVec n v).inProgram a = s.inProgram a := rfl
@[simp] theorem State.retire_inProgram (s : State) (len a : Nat) : (s.retire len).inProgram a = s.inProgram a := rfl
@[simp] theorem State.storeOperand_inProgram (s : State) (x : Access) (v : Vec) (a : Nat) :
    (s.storeOperand x v).inProgram a = s.inProgram a := rfl

@[simp] theorem State.advanceChoice_translate (s : State) (x : Access) (a : Word) (kind : AccessKind) :
    (s.advanceChoice x).translate a kind = s.translate a kind := by
  unfold State.advanceChoice; split <;> rfl
@[simp] theorem State.advanceChoice_inProgram (s : State) (x : Access) (a : Nat) :
    (s.advanceChoice x).inProgram a = s.inProgram a := by
  unfold State.advanceChoice; split <;> rfl

/-! ## Advancing the instruction pointer -/

@[simp] theorem State.retire_x (s : State) (len : Nat) : (s.retire len).x = s.x := rfl
@[simp] theorem State.retire_rflags (s : State) (len : Nat) : (s.retire len).rflags = s.rflags := rfl
@[simp] theorem State.retire_mxcsr (s : State) (len : Nat) : (s.retire len).mxcsr = s.mxcsr := rfl
@[simp] theorem State.retire_cr0 (s : State) (len : Nat) : (s.retire len).cr0 = s.cr0 := rfl
@[simp] theorem State.retire_cr4 (s : State) (len : Nat) : (s.retire len).cr4 = s.cr4 := rfl
@[simp] theorem State.retire_xcr0 (s : State) (len : Nat) : (s.retire len).xcr0 = s.xcr0 := rfl
@[simp] theorem State.retire_efer (s : State) (len : Nat) : (s.retire len).efer = s.efer := rfl
@[simp] theorem State.retire_csL (s : State) (len : Nat) : (s.retire len).csL = s.csL := rfl
@[simp] theorem State.retire_csD (s : State) (len : Nat) : (s.retire len).csD = s.csD := rfl
@[simp] theorem State.retire_csBase (s : State) (len : Nat) : (s.retire len).csBase = s.csBase := rfl
@[simp] theorem State.retire_dsBase (s : State) (len : Nat) : (s.retire len).dsBase = s.dsBase := rfl
@[simp] theorem State.retire_esBase (s : State) (len : Nat) : (s.retire len).esBase = s.esBase := rfl
@[simp] theorem State.retire_ssBase (s : State) (len : Nat) : (s.retire len).ssBase = s.ssBase := rfl
@[simp] theorem State.retire_fsBase (s : State) (len : Nat) : (s.retire len).fsBase = s.fsBase := rfl
@[simp] theorem State.retire_gsBase (s : State) (len : Nat) : (s.retire len).gsBase = s.gsBase := rfl
@[simp] theorem State.retire_cpl (s : State) (len : Nat) : (s.retire len).cpl = s.cpl := rfl
@[simp] theorem State.retire_zmm (s : State) (len : Nat) : (s.retire len).zmm = s.zmm := rfl
@[simp] theorem State.retire_k (s : State) (len : Nat) : (s.retire len).k = s.k := rfl
@[simp] theorem State.retire_mem (s : State) (len : Nat) : (s.retire len).mem = s.mem := rfl
@[simp] theorem State.retire_pages (s : State) (len : Nat) : (s.retire len).pages = s.pages := rfl
@[simp] theorem State.retire_pageDefault (s : State) (len : Nat) : (s.retire len).pageDefault = s.pageDefault := rfl
@[simp] theorem State.retire_program (s : State) (len : Nat) : (s.retire len).program = s.program := rfl
@[simp] theorem State.retire_cfg (s : State) (len : Nat) : (s.retire len).cfg = s.cfg := rfl
@[simp] theorem State.retire_freeCtr (s : State) (len : Nat) : (s.retire len).freeCtr = s.freeCtr := rfl

@[simp] theorem State.retire_rip (s : State) (len : Nat) : (s.retire len).rip = s.rip + BitVec.ofNat 64 len := rfl

@[simp] theorem State.vec_retire (s : State) (len : Nat) (n : VReg) : (s.retire len).vec n = s.vec n := rfl

/-! ## Storing an operand -/

@[simp] theorem State.storeOperand_x (s : State) (a : Access) (v : Vec) : (s.storeOperand a v).x = s.x := rfl
@[simp] theorem State.storeOperand_rip (s : State) (a : Access) (v : Vec) : (s.storeOperand a v).rip = s.rip := rfl
@[simp] theorem State.storeOperand_rflags (s : State) (a : Access) (v : Vec) : (s.storeOperand a v).rflags = s.rflags := rfl
@[simp] theorem State.storeOperand_mxcsr (s : State) (a : Access) (v : Vec) : (s.storeOperand a v).mxcsr = s.mxcsr := rfl
@[simp] theorem State.storeOperand_cr0 (s : State) (a : Access) (v : Vec) : (s.storeOperand a v).cr0 = s.cr0 := rfl
@[simp] theorem State.storeOperand_cr4 (s : State) (a : Access) (v : Vec) : (s.storeOperand a v).cr4 = s.cr4 := rfl
@[simp] theorem State.storeOperand_xcr0 (s : State) (a : Access) (v : Vec) : (s.storeOperand a v).xcr0 = s.xcr0 := rfl
@[simp] theorem State.storeOperand_efer (s : State) (a : Access) (v : Vec) : (s.storeOperand a v).efer = s.efer := rfl
@[simp] theorem State.storeOperand_csL (s : State) (a : Access) (v : Vec) : (s.storeOperand a v).csL = s.csL := rfl
@[simp] theorem State.storeOperand_csD (s : State) (a : Access) (v : Vec) : (s.storeOperand a v).csD = s.csD := rfl
@[simp] theorem State.storeOperand_csBase (s : State) (a : Access) (v : Vec) : (s.storeOperand a v).csBase = s.csBase := rfl
@[simp] theorem State.storeOperand_dsBase (s : State) (a : Access) (v : Vec) : (s.storeOperand a v).dsBase = s.dsBase := rfl
@[simp] theorem State.storeOperand_esBase (s : State) (a : Access) (v : Vec) : (s.storeOperand a v).esBase = s.esBase := rfl
@[simp] theorem State.storeOperand_ssBase (s : State) (a : Access) (v : Vec) : (s.storeOperand a v).ssBase = s.ssBase := rfl
@[simp] theorem State.storeOperand_fsBase (s : State) (a : Access) (v : Vec) : (s.storeOperand a v).fsBase = s.fsBase := rfl
@[simp] theorem State.storeOperand_gsBase (s : State) (a : Access) (v : Vec) : (s.storeOperand a v).gsBase = s.gsBase := rfl
@[simp] theorem State.storeOperand_cpl (s : State) (a : Access) (v : Vec) : (s.storeOperand a v).cpl = s.cpl := rfl
@[simp] theorem State.storeOperand_zmm (s : State) (a : Access) (v : Vec) : (s.storeOperand a v).zmm = s.zmm := rfl
@[simp] theorem State.storeOperand_k (s : State) (a : Access) (v : Vec) : (s.storeOperand a v).k = s.k := rfl
@[simp] theorem State.storeOperand_pages (s : State) (a : Access) (v : Vec) : (s.storeOperand a v).pages = s.pages := rfl
@[simp] theorem State.storeOperand_pageDefault (s : State) (a : Access) (v : Vec) : (s.storeOperand a v).pageDefault = s.pageDefault := rfl
@[simp] theorem State.storeOperand_program (s : State) (a : Access) (v : Vec) : (s.storeOperand a v).program = s.program := rfl
@[simp] theorem State.storeOperand_cfg (s : State) (a : Access) (v : Vec) : (s.storeOperand a v).cfg = s.cfg := rfl
@[simp] theorem State.storeOperand_freeCtr (s : State) (a : Access) (v : Vec) : (s.storeOperand a v).freeCtr = s.freeCtr := rfl

@[simp] theorem State.storeOperand_mem (s : State) (a : Access) (v : Vec) :
    (s.storeOperand a v).mem = s.mem.writeBytes (s.bytePa .write a.la) v a.byteSelected a.sh.bytes := rfl

@[simp] theorem State.vec_storeOperand (s : State) (a : Access) (v : Vec) (n : VReg) :
    (s.storeOperand a v).vec n = s.vec n := rfl

/-! ## Using up an open choice -/

@[simp] theorem State.advanceChoice_x (s : State) (a : Access) : (s.advanceChoice a).x = s.x := by
  unfold State.advanceChoice; split <;> rfl
@[simp] theorem State.advanceChoice_rip (s : State) (a : Access) : (s.advanceChoice a).rip = s.rip := by
  unfold State.advanceChoice; split <;> rfl
@[simp] theorem State.advanceChoice_rflags (s : State) (a : Access) : (s.advanceChoice a).rflags = s.rflags := by
  unfold State.advanceChoice; split <;> rfl
@[simp] theorem State.advanceChoice_mxcsr (s : State) (a : Access) : (s.advanceChoice a).mxcsr = s.mxcsr := by
  unfold State.advanceChoice; split <;> rfl
@[simp] theorem State.advanceChoice_cr0 (s : State) (a : Access) : (s.advanceChoice a).cr0 = s.cr0 := by
  unfold State.advanceChoice; split <;> rfl
@[simp] theorem State.advanceChoice_cr4 (s : State) (a : Access) : (s.advanceChoice a).cr4 = s.cr4 := by
  unfold State.advanceChoice; split <;> rfl
@[simp] theorem State.advanceChoice_xcr0 (s : State) (a : Access) : (s.advanceChoice a).xcr0 = s.xcr0 := by
  unfold State.advanceChoice; split <;> rfl
@[simp] theorem State.advanceChoice_efer (s : State) (a : Access) : (s.advanceChoice a).efer = s.efer := by
  unfold State.advanceChoice; split <;> rfl
@[simp] theorem State.advanceChoice_csL (s : State) (a : Access) : (s.advanceChoice a).csL = s.csL := by
  unfold State.advanceChoice; split <;> rfl
@[simp] theorem State.advanceChoice_csD (s : State) (a : Access) : (s.advanceChoice a).csD = s.csD := by
  unfold State.advanceChoice; split <;> rfl
@[simp] theorem State.advanceChoice_csBase (s : State) (a : Access) : (s.advanceChoice a).csBase = s.csBase := by
  unfold State.advanceChoice; split <;> rfl
@[simp] theorem State.advanceChoice_dsBase (s : State) (a : Access) : (s.advanceChoice a).dsBase = s.dsBase := by
  unfold State.advanceChoice; split <;> rfl
@[simp] theorem State.advanceChoice_esBase (s : State) (a : Access) : (s.advanceChoice a).esBase = s.esBase := by
  unfold State.advanceChoice; split <;> rfl
@[simp] theorem State.advanceChoice_ssBase (s : State) (a : Access) : (s.advanceChoice a).ssBase = s.ssBase := by
  unfold State.advanceChoice; split <;> rfl
@[simp] theorem State.advanceChoice_fsBase (s : State) (a : Access) : (s.advanceChoice a).fsBase = s.fsBase := by
  unfold State.advanceChoice; split <;> rfl
@[simp] theorem State.advanceChoice_gsBase (s : State) (a : Access) : (s.advanceChoice a).gsBase = s.gsBase := by
  unfold State.advanceChoice; split <;> rfl
@[simp] theorem State.advanceChoice_cpl (s : State) (a : Access) : (s.advanceChoice a).cpl = s.cpl := by
  unfold State.advanceChoice; split <;> rfl
@[simp] theorem State.advanceChoice_zmm (s : State) (a : Access) : (s.advanceChoice a).zmm = s.zmm := by
  unfold State.advanceChoice; split <;> rfl
@[simp] theorem State.advanceChoice_k (s : State) (a : Access) : (s.advanceChoice a).k = s.k := by
  unfold State.advanceChoice; split <;> rfl
@[simp] theorem State.advanceChoice_mem (s : State) (a : Access) : (s.advanceChoice a).mem = s.mem := by
  unfold State.advanceChoice; split <;> rfl
@[simp] theorem State.advanceChoice_pages (s : State) (a : Access) : (s.advanceChoice a).pages = s.pages := by
  unfold State.advanceChoice; split <;> rfl
@[simp] theorem State.advanceChoice_pageDefault (s : State) (a : Access) : (s.advanceChoice a).pageDefault = s.pageDefault := by
  unfold State.advanceChoice; split <;> rfl
@[simp] theorem State.advanceChoice_program (s : State) (a : Access) : (s.advanceChoice a).program = s.program := by
  unfold State.advanceChoice; split <;> rfl
@[simp] theorem State.advanceChoice_cfg (s : State) (a : Access) : (s.advanceChoice a).cfg = s.cfg := by
  unfold State.advanceChoice; split <;> rfl

@[simp] theorem State.vec_advanceChoice (s : State) (a : Access) (n : VReg) : (s.advanceChoice a).vec n = s.vec n := by
  unfold State.advanceChoice; split <;> rfl

theorem State.advanceChoice_of_selected (s : State) (a : Access) (h : a.selected ≠ []) : s.advanceChoice a = s := by
  have : a.selected.isEmpty = false := by simpa [List.isEmpty_iff] using h
  simp [State.advanceChoice, State.usesChoice, this]

theorem State.advanceChoice_of_aligned (s : State) (a : Access) (h : a.misaligned = false) : s.advanceChoice a = s := by
  simp [State.advanceChoice, State.usesChoice, h]

/-! ## Launch and load -/

@[simp] theorem State.mapPage_mem (s : State) (kind : AccessKind) (f : BitVec 52) (a : Word) :
    (s.mapPage kind f a).mem = s.mem := by
  unfold State.mapPage; split <;> rfl

@[simp] theorem State.mapPage_rip (s : State) (kind : AccessKind) (f : BitVec 52) (a : Word) :
    (s.mapPage kind f a).rip = s.rip := by
  unfold State.mapPage; split <;> rfl

@[simp] theorem State.mapCode_mem (s : State) (a : Word) : (s.mapCode a).mem = s.mem := by
  simp [State.mapCode]

@[simp] theorem State.mapCode_rip (s : State) (a : Word) : (s.mapCode a).rip = s.rip := by
  simp [State.mapCode]

@[simp] theorem State.launched_mem (s : State) : s.launched.mem = s.mem := by
  unfold State.launched State.boot; split <;> rfl

@[simp] theorem State.launched_rip (s : State) : s.launched.rip = s.rip := by
  unfold State.launched State.boot; split <;> rfl

/-- The load's preparation changes the table of `Translate` only, beside the launch. -/
theorem State.ready_eq (s : State) (n : Nat) : ∃ p, s.ready n = { s.launched with pages := p } := by
  have hp : ∀ (s : State) kind f a, ∃ p, s.mapPage kind f a = { s with pages := p } := fun s kind f a => by
    unfold State.mapPage; split <;> exact ⟨_, rfl⟩
  have hc : ∀ (s : State) a, ∃ p, s.mapCode a = { s with pages := p } := fun s a => by
    unfold State.mapCode
    obtain ⟨p, e⟩ := hp s .fetch (s.codeFrame a) a
    obtain ⟨p', e'⟩ := hp { s with pages := p } .read (s.codeFrame a) a
    rw [e, e']; exact ⟨_, rfl⟩
  unfold State.ready
  obtain ⟨p, e⟩ := hc s.launched s.rip
  obtain ⟨p', e'⟩ := hc { s.launched with pages := p } (byteAddr s.rip (n - 1))
  rw [e, e']; exact ⟨_, rfl⟩

theorem State.boot_mode (s : State) : s.boot.mode = .mode64 := by
  unfold State.mode State.eferLma State.boot
  simp

end Sys2Proof.Machine
end

