-- ==== Sys2Proof/Laws/Ops.lean ====
section
/-! SUPPORT. What the shared operations do, said once: masks, register results, the checks of an access, and the two
moves every meaning is built from. -/

namespace Sys2Proof.Machine

/-! ## Masks -/

theorem getLsbD_allSelected {kl : Nat} (hkl : kl ≤ 16) (j : Nat) : (allSelected kl).getLsbD j = decide (j < kl) := by
  have hlt : 2 ^ kl - 1 < 2 ^ 16 := by
    have : 2 ^ kl ≤ 2 ^ 16 := Nat.pow_le_pow_right (by omega) hkl
    have : 0 < 2 ^ kl := Nat.two_pow_pos kl
    omega
  rw [allSelected, BitVec.getLsbD, BitVec.toNat_ofNat, Nat.mod_eq_of_lt hlt, Nat.testBit_two_pow_sub_one]

/-- Bit `j` of the effective mask (R9). -/
theorem getLsbD_effectiveMask (s : State) (aaa : KReg) {kl : Nat} (hkl : kl ≤ 16) (j : Nat) :
    (effectiveMask s aaa kl).getLsbD j = (decide (j < kl) && selects s aaa j) := by
  unfold effectiveMask selects
  by_cases h : aaa = 0
  · simp [h, getLsbD_allSelected hkl]
  · have hb : (aaa == 0) = false := by simpa using h
    rw [if_neg h, hb, BitVec.getLsbD_and, getLsbD_allSelected hkl, BitVec.getLsbD_setWidth]
    by_cases hj : j < kl
    · have : j < 16 := by omega
      simp [hj, this]
    · simp [hj]

/-! ## Register results -/

/-- Bit `b` of a blend (R95 (a)). -/
theorem getLsbD_blend {es : Nat} (hes : 0 < es) (m : BitVec 16) (z : Bool) (src old : Vec) {n : Nat} (hn : es * n ≤ 64)
    (b : Nat) : (blend es m z src old n).getLsbD b =
      (decide (b < 8 * es * n) &&
        (if m.getLsbD (b / (8 * es)) then src.getLsbD b else if z then false else old.getLsbD b)) := by
  induction n with
  | zero => simp [blend]
  | succ n ih =>
    have hle : es * n ≤ 64 := by
      have : es * n ≤ es * (n + 1) := Nat.mul_le_mul_left _ (by omega)
      omega
    have hw : 0 < 8 * es := by omega
    simp only [blend, BitVec.getLsbD_or, ih hle]
    have e1 : 8 * es * (n + 1) = 8 * es * n + 8 * es := Nat.mul_succ _ _
    have e2 : 8 * es * n + 8 * es ≤ 512 := by
      have h1 : 8 * es * (n + 1) = 8 * (es * (n + 1)) := Nat.mul_assoc 8 es (n + 1)
      omega
    generalize hA : 8 * es * n = A at *
    by_cases hlt : b < A
    · have h2 : b < 8 * es * (n + 1) := by omega
      simp [hlt, h2, BitVec.getLsbD_shiftLeft]
    · by_cases hin : b < A + 8 * es
      · have hq : b / (8 * es) = n := by
          apply Nat.div_eq_of_lt_le
          · rw [Nat.mul_comm n]; omega
          · rw [Nat.mul_comm (n + 1)]; omega
        have h2 : b < 8 * es * (n + 1) := by omega
        have h3 : b < 512 := by omega
        have h4 : b - A < 8 * es := by omega
        have h5 : A + (b - A) = b := by omega
        have h6 : b - A < 512 := by omega
        simp only [hlt, h2, hq, BitVec.getLsbD_shiftLeft, BitVec.getLsbD_setWidth, h3]
        by_cases hm : m.getLsbD n
        · simp [hm, h4, h5, h6]
        · cases z <;> simp [hm, h4, h5, h6]
      · have h2 : ¬ b < 8 * es * (n + 1) := by omega
        have h6 : ∀ v : BitVec (8 * es), v.getLsbD (b - A) = false :=
          fun v => BitVec.getLsbD_of_ge _ _ (by omega)
        simp [hlt, h2, BitVec.getLsbD_shiftLeft, BitVec.getLsbD_setWidth, h6]

/-- Element `j` of a blend (R95 (a)). -/
theorem extract_blend {es : Nat} (hes : 0 < es) (m : BitVec 16) (z : Bool) (src old : Vec) {n : Nat} (hn : es * n ≤ 64)
    {j : Nat} (hj : j < n) : (blend es m z src old n).extractLsb' (8 * es * j) (8 * es) =
      if m.getLsbD j then src.extractLsb' (8 * es * j) (8 * es)
      else if z then 0 else old.extractLsb' (8 * es * j) (8 * es) := by
  ext b hb
  have hw : 0 < 8 * es := by omega
  have hq : (8 * es * j + b) / (8 * es) = j := by
    rw [Nat.mul_add_div hw, Nat.div_eq_of_lt hb, Nat.add_zero]
  have hlt : 8 * es * j + b < 8 * es * n := by
    have : 8 * es * (j + 1) ≤ 8 * es * n := Nat.mul_le_mul_left _ hj
    rw [Nat.mul_succ] at this
    omega
  simp only [BitVec.getElem_extractLsb', getLsbD_blend hes m z src old hn, hq, hlt, decide_true, Bool.true_and]
  by_cases hm : m.getLsbD j
  · simp [hm]
  · cases z <;> simp [hm]

/-- The bits above a blend are 0 (R22). -/
theorem blend_above {es : Nat} (hes : 0 < es) (m : BitVec 16) (z : Bool) (src old : Vec) {n : Nat} (hn : es * n ≤ 64)
    {lo w : Nat} (hlo : 8 * es * n ≤ lo) : (blend es m z src old n).extractLsb' lo w = 0 := by
  ext b hb
  have : ¬ lo + b < 8 * es * n := by omega
  simp [BitVec.getElem_extractLsb', getLsbD_blend hes m z src old hn, this]

/-- The two shapes with elements, and the whole-operand shape, fit a vector register. -/
theorem Shape.fits {sh : Shape} (h : (∃ vl, sh = .whole vl) ∨ (∃ vl, sh = .dword vl) ∨ ∃ vl, sh = .qword vl) :
    0 < sh.elem ∧ sh.elem * sh.kl = sh.bytes ∧ sh.bytes ≤ 64 ∧ sh.kl ≤ 16 ∧ 0 < sh.bytes := by
  rcases h with ⟨vl, rfl⟩ | ⟨vl, rfl⟩ | ⟨vl, rfl⟩ <;> cases vl <;> decide

/-! ## The checks of an access -/

theorem Access.mem_selected {a : Access} {j : Nat} : j ∈ a.selected ↔ j < a.sh.kl ∧ a.m.getLsbD j = true := by
  simp [Access.selected]

theorem Access.mem_touched {a : Access} {i : Nat} : i ∈ a.touched ↔ a.byteSelected i = true := by
  unfold Access.touched Access.byteSelected
  simp

/-- A selected element touches its bytes. -/
theorem Access.byteSelected_of_selected {a : Access} (hes : 0 < a.sh.elem) (hb : a.sh.elem * a.sh.kl = a.sh.bytes) {j i : Nat}
    (hj : j ∈ a.selected) (hi : i < a.sh.elem) : a.byteSelected (a.sh.elem * j + i) = true := by
  obtain ⟨h1, h2⟩ := Access.mem_selected.1 hj
  have h3 : (a.sh.elem * j + i) / a.sh.elem = j := by
    rw [Nat.mul_add_div hes, Nat.div_eq_of_lt hi, Nat.add_zero]
  have h4 : a.sh.elem * (j + 1) ≤ a.sh.elem * a.sh.kl := Nat.mul_le_mul_left _ h1
  rw [Nat.mul_succ] at h4
  unfold Access.byteSelected
  simp only [h3, h2, Bool.and_true, decide_eq_true_eq]
  omega

/-- The byte test of an access, in the words of R35 and R36. -/
theorem Access.byteSelected_iff {a : Access} {i : Nat} : a.byteSelected i = true ↔ a.reaches i := by
  simp [Access.byteSelected, Access.reaches]

/-- The canonical test of R39 step 1 fails on no accessed byte. -/
theorem State.nonCanonical_eq_false {s : State} {a : Access} : s.nonCanonical a = false ↔ a.allCanonical s := by
  simp only [State.nonCanonical, List.any_eq_false, Access.mem_touched, Access.byteSelected_iff, Access.allCanonical]
  simp

/-- The alignment test of R31. -/
theorem Access.misaligned_eq_false {a : Access} : a.misaligned = false ↔ a.aligned := by
  simp [Access.misaligned, Access.aligned]

/-- An access with a selected element is not an empty one. -/
theorem Access.selected_isEmpty {a : Access} (h : a.someSelected) : a.selected.isEmpty = false := by
  obtain ⟨j, h1, h2⟩ := h
  have hj : j ∈ a.selected := Access.mem_selected.2 ⟨h1, h2⟩
  rw [List.isEmpty_eq_false_iff]
  exact List.ne_nil_of_mem hj

theorem State.elementCheck_none {s : State} {kind : AccessKind} {a : Word} :
    s.elementCheck kind a = none ↔ (s.translate a kind).isWriteBack = true := by
  unfold State.elementCheck
  constructor
  · intro h
    split at h <;> simp_all [Translation.isWriteBack]
  · intro h
    obtain ⟨pa, h⟩ := Translation.isWriteBack_iff.1 h
    rw [h]

theorem State.translateCheck_none {s : State} {kind : AccessKind} {a : Access} :
    s.translateCheck kind a = none ↔
      ∀ j ∈ a.selected, (s.translate (byteAddr a.la (a.sh.elem * j)) kind).isWriteBack = true := by
  simp only [State.translateCheck, List.findSome?_eq_none_iff, State.elementCheck_none]

/-- An access whose touched bytes are all allowed passes every check (R39, R45, R47). -/
theorem State.accessCheck_of_allowed {s : State} {kind : AccessKind} {a : Access} (hes : 0 < a.sh.elem)
    (hb : a.sh.elem * a.sh.kl = a.sh.bytes) (h : operandAllowed s kind a.la a.sh.bytes a.byteSelected) :
    s.accessCheck kind a = none := by
  obtain ⟨hal, hby⟩ := h
  have hmis : a.misaligned = false := by simp [Access.misaligned, hal]
  have hbs : ∀ i, a.byteSelected i = true → byteAllowed s kind (byteAddr a.la i) := by
    intro i hi
    have : i < a.sh.bytes := by
      unfold Access.byteSelected at hi
      simp at hi; exact hi.1
    exact hby i this hi
  have hcan : s.nonCanonical a = false := by
    simp only [State.nonCanonical, List.any_eq_false, Access.mem_touched]
    intro i hi
    simp [(hbs i hi).1]
  have htr : s.translateCheck kind a = none := by
    rw [State.translateCheck_none]
    intro j hj
    exact (hbs _ (by simpa using Access.byteSelected_of_selected hes hb hj hes)).2.1
  have hpr : ¬ (kind = .write ∧ s.hitsProgram a = true) := by
    rintro ⟨hk, hp⟩
    simp only [State.hitsProgram, List.any_eq_true, Access.mem_touched] at hp
    obtain ⟨i, hi, hp⟩ := hp
    rw [(hbs i hi).2.2 hk] at hp
    exact absurd hp (by decide)
  unfold State.accessCheck
  simp [hmis, hcan, htr, hpr]

/-- An access stops with #GP, #SS, a page fault, or one of two refusals; never with #UD or #NM (R39, R45, R47). -/
theorem State.accessCheck_some {s : State} {kind : AccessKind} {a : Access} {st : Stop} (h : s.accessCheck kind a = some st) :
    st = .fault .gp ∨ st = .fault .ss ∨ (∃ c l, st = .fault (.pf c l)) ∨ (∃ t, st = .refuse (.memoryType t)) ∨
      (kind = .write ∧ st = .refuse .storeIntoProgram) := by
  unfold State.accessCheck at h
  split at h
  · split at h
    · left; simpa using h.symm
    · simp at h
  · split at h
    · split at h
      · split at h
        · have : st = .fault s.ssChoice := by simpa using h.symm
          unfold State.ssChoice at this
          split at this
          · exact Or.inl this
          · exact Or.inr (Or.inl this)
          · split at this
            · exact Or.inr (Or.inl this)
            · exact Or.inl this
        · exact Or.inr (Or.inl (by simpa using h.symm))
      · exact Or.inl (by simpa using h.symm)
    · split at h
      · exact Or.inl (by simpa using h.symm)
      · split at h
        · rename_i st' hst
          obtain rfl : st' = st := by simpa using h
          obtain ⟨j, -, hj⟩ := List.exists_of_findSome?_eq_some hst
          unfold State.elementCheck at hj
          split at hj
          all_goals first
            | (simp at hj; done)
            | (obtain rfl := by simpa using hj.symm
               simp)
        · split at h
          · rename_i hk
            exact Or.inr (Or.inr (Or.inr (Or.inr ⟨hk.1, by simpa using h.symm⟩)))
          · simp at h

/-! ## The moves -/

/-- What comes before any operand (R140 items 2 and 3). -/
theorem guarded_eq {ud : Bool} {s : State} (k : Out) (hud : ud = false) (hm : s.mode = .mode64) (hts : s.cr0Ts = false) :
    guarded ud s k = k := by simp [guarded, hud, hm, hts]

theorem guarded_next {ud : Bool} {s t : State} {k : Out} (h : guarded ud s k = .next t) :
    ud = false ∧ s.mode = .mode64 ∧ s.cr0Ts = false ∧ k = .next t := by
  unfold guarded at h
  split at h
  · simp [raise] at h
  · split at h
    · simp at h
    · split at h
      · simp [raise] at h
      · rename_i h1 h2 h3
        refine ⟨by simpa using h1, by simpa using h2, by simpa using h3, h⟩

/-- A load that completes. -/
theorem loadMem_next {mv : Move} {d : VReg} {a : Addr} {s t : State} (h : loadMem mv d a s = .next t) :
    s.accessCheck .read (s.access mv a) = none ∧
      t = ((s.setVec d (mv.result (s.loadOperand (s.access mv a)) (s.vec d))).advanceChoice (s.access mv a)).retire
        mv.len := by
  unfold loadMem at h
  split at h
  · rename_i st _
    cases st <;> simp [Stop.out, raise] at h
  · rename_i hc
    exact ⟨hc, by simpa using h.symm⟩

/-- A store that completes. -/
theorem storeMem_next {mv : Move} {a : Addr} {r : VReg} {s t : State} (h : storeMem mv a r s = .next t) :
    s.accessCheck .write (s.access mv a) = none ∧
      t = ((s.storeOperand (s.access mv a) (s.vec r)).advanceChoice (s.access mv a)).retire mv.len := by
  unfold storeMem at h
  split at h
  · rename_i st _
    cases st <;> simp [Stop.out, raise] at h
  · rename_i hc
    exact ⟨hc, by simpa using h.symm⟩

/-- Everything a 6FH row can do when it completes. -/
theorem moveToReg_next {mv : Move} {d : VReg} {src : Operand} {s t : State} (h : moveToReg mv d src s = .next t) :
    mv.ud = false ∧ s.mode = .mode64 ∧ s.cr0Ts = false ∧
      ((∃ r, src = .reg r ∧ t = (s.setVec d (mv.result (s.vec r) (s.vec d))).retire mv.len) ∨
       (∃ a, src = .mem a ∧ s.accessCheck .read (s.access mv a) = none ∧
        t = ((s.setVec d (mv.result (s.loadOperand (s.access mv a)) (s.vec d))).advanceChoice
          (s.access mv a)).retire mv.len)) := by
  obtain ⟨h1, h2, h3, h4⟩ := guarded_next h
  refine ⟨h1, h2, h3, ?_⟩
  cases src with
  | reg r => exact Or.inl ⟨r, rfl, by simpa [regCopy] using h4.symm⟩
  | mem a => exact Or.inr ⟨a, rfl, loadMem_next h4⟩

/-- Everything a 7FH row can do when it completes. -/
theorem moveFromReg_next {mv : Move} {dst : Operand} {r : VReg} {s t : State} (h : moveFromReg mv dst r s = .next t) :
    mv.ud = false ∧ s.mode = .mode64 ∧ s.cr0Ts = false ∧
      ((∃ d, dst = .reg d ∧ t = (s.setVec d (mv.result (s.vec r) (s.vec d))).retire mv.len) ∨
       (∃ a, dst = .mem a ∧ s.accessCheck .write (s.access mv a) = none ∧
        t = ((s.storeOperand (s.access mv a) (s.vec r)).advanceChoice (s.access mv a)).retire mv.len)) := by
  obtain ⟨h1, h2, h3, h4⟩ := guarded_next h
  refine ⟨h1, h2, h3, ?_⟩
  cases dst with
  | reg d => exact Or.inl ⟨d, rfl, by simpa [regCopy] using h4.symm⟩
  | mem a => exact Or.inr ⟨a, rfl, storeMem_next h4⟩

/-! ## Rows -/

theorem exec_legRow (store : Bool) (o : LegOps) (s : State) :
    exec (legRow store o) s =
      if store then moveFromReg (legMove o s) o.rm o.reg s else moveToReg (legMove o s) o.reg o.rm s := by
  cases store <;> rfl

theorem exec_vexRow (l store : Bool) (o : VexOps) (s : State) :
    exec (vexRow l store o) s =
      if store then moveFromReg (vexMove (vexLen l) o s) o.rm o.reg s
      else moveToReg (vexMove (vexLen l) o s) o.reg o.rm s := by
  cases l <;> cases store <;> rfl

theorem exec_evexRow (w : Bool) (vl : VLen) (store : Bool) (o : EvexOps) (s : State) :
    exec (evexRow w vl store o) s =
      if store then moveFromReg (evexMove vl ⟨vl.bytes, evexElem w⟩ true o s) o.rm o.reg s
      else moveToReg (evexMove vl ⟨vl.bytes, evexElem w⟩ false o s) o.reg o.rm s := by
  cases w <;> cases vl <;> cases store <;> rfl

/-- Every instruction is a row of R67. -/
theorem Instr.row_cases (i : Instr) :
    (∃ st o, i = legRow st o) ∨ (∃ l st o, i = vexRow l st o) ∨ (∃ w vl st o, i = evexRow w vl st o) := by
  cases i with
  | movdqaLoad o => exact Or.inl ⟨false, o, rfl⟩
  | movdqaStore o => exact Or.inl ⟨true, o, rfl⟩
  | vmovdqaXmmLoad o => exact Or.inr (Or.inl ⟨false, false, o, rfl⟩)
  | vmovdqaXmmStore o => exact Or.inr (Or.inl ⟨false, true, o, rfl⟩)
  | vmovdqaYmmLoad o => exact Or.inr (Or.inl ⟨true, false, o, rfl⟩)
  | vmovdqaYmmStore o => exact Or.inr (Or.inl ⟨true, true, o, rfl⟩)
  | vmovdqa32XmmLoad o => exact Or.inr (Or.inr ⟨false, .v128, false, o, rfl⟩)
  | vmovdqa32YmmLoad o => exact Or.inr (Or.inr ⟨false, .v256, false, o, rfl⟩)
  | vmovdqa32ZmmLoad o => exact Or.inr (Or.inr ⟨false, .v512, false, o, rfl⟩)
  | vmovdqa32XmmStore o => exact Or.inr (Or.inr ⟨false, .v128, true, o, rfl⟩)
  | vmovdqa32YmmStore o => exact Or.inr (Or.inr ⟨false, .v256, true, o, rfl⟩)
  | vmovdqa32ZmmStore o => exact Or.inr (Or.inr ⟨false, .v512, true, o, rfl⟩)
  | vmovdqa64XmmLoad o => exact Or.inr (Or.inr ⟨true, .v128, false, o, rfl⟩)
  | vmovdqa64YmmLoad o => exact Or.inr (Or.inr ⟨true, .v256, false, o, rfl⟩)
  | vmovdqa64ZmmLoad o => exact Or.inr (Or.inr ⟨true, .v512, false, o, rfl⟩)
  | vmovdqa64XmmStore o => exact Or.inr (Or.inr ⟨true, .v128, true, o, rfl⟩)
  | vmovdqa64YmmStore o => exact Or.inr (Or.inr ⟨true, .v256, true, o, rfl⟩)
  | vmovdqa64ZmmStore o => exact Or.inr (Or.inr ⟨true, .v512, true, o, rfl⟩)

end Sys2Proof.Machine
end

