-- ==== Sys2Proof/Laws/PerInstr.lean ====
section
/-! SUPPORT. Statements made per instruction, one lemma per constructor. LengthInRange: a well-formed instruction is 4 to
15 bytes long (R50, R73). -/

namespace Sys2Proof.Laws

theorem Operand.one_le_size (rm : Operand) : 1 ≤ rm.size := by
  unfold Operand.size
  split <;> omega

theorem legLength {o : LegOps} (h : o.WellFormed) : 4 ≤ o.len ∧ o.len ≤ 15 := by
  obtain ⟨h1, -, -, -, -, -, -, -, h2⟩ := h
  have := Operand.one_le_size o.rm
  have := List.length_pos_of_mem h1
  refine ⟨?_, h2⟩
  unfold LegOps.len
  omega

theorem vexLength {o : VexOps} (h : o.WellFormed) : 4 ≤ o.len ∧ o.len ≤ 15 := by
  obtain ⟨-, -, -, -, -, h2⟩ := h
  have := Operand.one_le_size o.rm
  refine ⟨?_, h2⟩
  unfold VexOps.len
  split <;> omega

theorem evexLength {store : Bool} {o : EvexOps} (h : o.WellFormed store) : 4 ≤ o.len ∧ o.len ≤ 15 := by
  obtain ⟨-, -, -, h2⟩ := h
  have := Operand.one_le_size o.rm
  refine ⟨?_, h2⟩
  unfold EvexOps.len
  omega

/-- A well-formed instruction is 4 to 15 bytes long (R50, R73). -/
def LengthInRange.Statement (i : Instr) : Prop := i.WellFormed → 4 ≤ i.len ∧ i.len ≤ 15

theorem LengthInRange.movdqaLoad (o : LegOps) : LengthInRange.Statement (.movdqaLoad o) := fun h => legLength h
theorem LengthInRange.movdqaStore (o : LegOps) : LengthInRange.Statement (.movdqaStore o) := fun h => legLength h
theorem LengthInRange.vmovdqaXmmLoad (o : VexOps) : LengthInRange.Statement (.vmovdqaXmmLoad o) := fun h => vexLength h
theorem LengthInRange.vmovdqaXmmStore (o : VexOps) : LengthInRange.Statement (.vmovdqaXmmStore o) := fun h => vexLength h
theorem LengthInRange.vmovdqaYmmLoad (o : VexOps) : LengthInRange.Statement (.vmovdqaYmmLoad o) := fun h => vexLength h
theorem LengthInRange.vmovdqaYmmStore (o : VexOps) : LengthInRange.Statement (.vmovdqaYmmStore o) := fun h => vexLength h
theorem LengthInRange.vmovdqa32XmmLoad (o : EvexOps) : LengthInRange.Statement (.vmovdqa32XmmLoad o) := fun h => evexLength h
theorem LengthInRange.vmovdqa32YmmLoad (o : EvexOps) : LengthInRange.Statement (.vmovdqa32YmmLoad o) := fun h => evexLength h
theorem LengthInRange.vmovdqa32ZmmLoad (o : EvexOps) : LengthInRange.Statement (.vmovdqa32ZmmLoad o) := fun h => evexLength h
theorem LengthInRange.vmovdqa32XmmStore (o : EvexOps) : LengthInRange.Statement (.vmovdqa32XmmStore o) := fun h => evexLength h
theorem LengthInRange.vmovdqa32YmmStore (o : EvexOps) : LengthInRange.Statement (.vmovdqa32YmmStore o) := fun h => evexLength h
theorem LengthInRange.vmovdqa32ZmmStore (o : EvexOps) : LengthInRange.Statement (.vmovdqa32ZmmStore o) := fun h => evexLength h
theorem LengthInRange.vmovdqa64XmmLoad (o : EvexOps) : LengthInRange.Statement (.vmovdqa64XmmLoad o) := fun h => evexLength h
theorem LengthInRange.vmovdqa64YmmLoad (o : EvexOps) : LengthInRange.Statement (.vmovdqa64YmmLoad o) := fun h => evexLength h
theorem LengthInRange.vmovdqa64ZmmLoad (o : EvexOps) : LengthInRange.Statement (.vmovdqa64ZmmLoad o) := fun h => evexLength h
theorem LengthInRange.vmovdqa64XmmStore (o : EvexOps) : LengthInRange.Statement (.vmovdqa64XmmStore o) := fun h => evexLength h
theorem LengthInRange.vmovdqa64YmmStore (o : EvexOps) : LengthInRange.Statement (.vmovdqa64YmmStore o) := fun h => evexLength h
theorem LengthInRange.vmovdqa64ZmmStore (o : EvexOps) : LengthInRange.Statement (.vmovdqa64ZmmStore o) := fun h => evexLength h

end Sys2Proof.Laws
end

