-- ==== Sys2Proof/Laws/Rows.lean ====
section
/-! SUPPORT. The rows of R67 one format at a time: well-formedness, length, encoding, and that an enabled well-formed row
passes its #UD tests (R131 to R133, R161). -/

namespace Sys2Proof

theorem legRow_wellFormed (st : Bool) (o : LegOps) : (legRow st o).WellFormed ↔ o.WellFormed := by cases st <;> rfl

theorem vexRow_wellFormed (l st : Bool) (o : VexOps) : (vexRow l st o).WellFormed ↔ o.WellFormed := by
  cases l <;> cases st <;> rfl

theorem evexRow_wellFormed (w : Bool) (vl : VLen) (st : Bool) (o : EvexOps) :
    (evexRow w vl st o).WellFormed ↔ o.WellFormed st := by cases w <;> cases vl <;> cases st <;> rfl

theorem legRow_len (st : Bool) (o : LegOps) : (legRow st o).len = o.len := by cases st <;> rfl

theorem vexRow_len (l st : Bool) (o : VexOps) : (vexRow l st o).len = o.len := by cases l <;> cases st <;> rfl

theorem evexRow_len (w : Bool) (vl : VLen) (st : Bool) (o : EvexOps) : (evexRow w vl st o).len = o.len := by
  cases w <;> cases vl <;> cases st <;> rfl

theorem encode_legRow (st : Bool) (o : LegOps) : encode (legRow st o) = encodeLeg st o := by cases st <;> rfl

theorem encode_vexRow (l st : Bool) (o : VexOps) : encode (vexRow l st o) = encodeVex l st o := by
  cases l <;> cases st <;> rfl

theorem encode_evexRow (w : Bool) (vl : VLen) (st : Bool) (o : EvexOps) :
    encode (evexRow w vl st o) = encodeEvex w vl st o := by cases w <;> cases vl <;> cases st <;> rfl

namespace Machine

/-! ## Enabled rows pass the #UD tests -/

theorem legMove_ud {o : LegOps} {s : State} (h : LegEnabled s) (hw : o.WellFormed) : (legMove o s).ud = false := by
  obtain ⟨-, h2, h3, -, h5⟩ := h
  simp [legMove, udLeg, h2, h3, h5, hw.2.2.2.1]

theorem vexMove_ud {vl : VLen} {o : VexOps} {s : State} (h : VexEnabled s) (hw : o.WellFormed) :
    (vexMove vl o s).ud = false := by
  obtain ⟨h1, h2, h3, -, h5⟩ := h
  simp [vexMove, udVex, h2, h3, h5, hw.1, State.realOrV86, h1]

theorem evexMove_ud {vl : VLen} {sh : Shape} {st : Bool} {o : EvexOps} {s : State} (h : EvexEnabled vl s)
    (hw : o.WellFormed st) : (evexMove vl sh st o s).ud = false := by
  obtain ⟨h1, h2, h3, h4, -, h6, h7⟩ := h
  have hbad : (o.z && (o.aaa == 0 || (st && o.rm.isMem))) = false := by
    cases hz : o.z with
    | false => rfl
    | true =>
      obtain ⟨a, b⟩ := hw.2.1 hz
      have ha : (o.aaa == 0) = false := by simpa using a
      cases st with
      | false => simp only [ha]; rfl
      | true => simp only [ha, b rfl]; rfl
  have hvl : (vl != .v512 && !s.cfg.hasAvx512vl) = false := by
    by_cases e : vl = .v512
    · simp [e]
    · simp [h7 e]
  simp only [evexMove, udEvex, hbad]
  simp [h2, h3, h4, h6, hw.1, State.realOrV86, h1, hvl]

/-- A failing #UD test is the first thing that happens (R140 item 2). -/
theorem moveToReg_ud {mv : Move} {d : VReg} {src : Operand} {s : State} (h : mv.ud = true) :
    moveToReg mv d src s = .fault .ud := by simp [moveToReg, guarded, h, raise]

theorem moveFromReg_ud {mv : Move} {dst : Operand} {r : VReg} {s : State} (h : mv.ud = true) :
    moveFromReg mv dst r s = .fault .ud := by simp [moveFromReg, guarded, h, raise]

/-! ## Register results by class (R22) -/

/-- Bit `b` of a legacy result: bits 511:128 are kept. -/
theorem getLsbD_result_leg (o : LegOps) (s : State) (src old : Vec) {b : Nat} (hb : b < 512) :
    ((legMove o s).result src old).getLsbD b = if b < 128 then src.getLsbD b else old.getLsbD b := by
  have h : (legMove o s).result src old = BitVec.cast rfl (old.extractLsb' 128 384 ++ src.extractLsb' 0 128) := rfl
  rw [h, BitVec.getLsbD_cast, BitVec.getLsbD_append]
  simp only [BitVec.getLsbD_extractLsb']
  split
  · rename_i h; simp [h]
  · rename_i h; rw [show 128 + (b - 128) = b by omega]; simp; omega

/-- Bit `b` of a VEX result: the bits above VL are zeroed. -/
theorem getLsbD_result_vex (vl : VLen) (o : VexOps) (s : State) (src old : Vec) (b : Nat) :
    ((vexMove vl o s).result src old).getLsbD b = (decide (b < 8 * vl.bytes) && src.getLsbD b) := by
  have hk : (Shape.whole vl).kl = 1 := by cases vl <;> rfl
  have hb : 0 < vl.bytes ∧ vl.bytes * 1 ≤ 64 := by cases vl <;> simp [VLen.bytes]
  simp only [Move.result, vexMove, Bool.false_eq_true, if_false]
  rw [hk, show (Shape.whole vl).elem = vl.bytes from rfl, getLsbD_blend hb.1 _ _ _ _ hb.2, Nat.mul_one]
  by_cases h : b < 8 * vl.bytes
  · rw [Nat.div_eq_of_lt h]; simp [h, allSelected]
  · simp [h]

end Machine
end Sys2Proof
end

