-- ==== Sys2Proof/Laws/Step.lean ====
section
/-! SUPPORT. What a step's tests say, the bytes it looks at, what the load leaves, and what a step that completes has done. -/

namespace Sys2Proof

/-- Scanning that stops at a byte stops there when more bytes follow. -/
theorem scanPrefixes_append {bs : List Byte} (more : List Byte) (h : (scanPrefixes bs).2 ≠ []) :
    scanPrefixes (bs ++ more) = ((scanPrefixes bs).1, (scanPrefixes bs).2 ++ more) := by
  induction bs with
  | nil => simp [scanPrefixes] at h
  | cons b bs ih =>
    simp only [scanPrefixes, List.cons_append] at *
    split
    · rename_i p hp
      rw [hp] at h
      simp only at h
      rw [ih h]
    · rfl

/-- The segment override of a list of prefixes is that of its last FS or GS override (R51). -/
theorem Machine.segOverride_concat (ps : List Prefix) (p : Prefix) :
    Machine.segOverride (ps ++ [p]) =
      if p = .segFs then some .fs else if p = .segGs then some .gs else Machine.segOverride ps := by
  simp only [Machine.segOverride, List.foldl_append, List.foldl_cons, List.foldl_nil]
  cases p <;> rfl

namespace Machine

/-! ## What the tests of a step say -/

theorem State.fetchCanonical_iff {s : State} {n : Nat} :
    s.fetchCanonical n = true ↔
      ∀ k ≤ n, s.rip.toNat + k < 2 ^ 64 ∧ canonical s.cfg.vaBits (byteAddr s.rip k) = true := by
  simp only [State.fetchCanonical, List.all_eq_true, List.mem_range, Bool.and_eq_true, decide_eq_true_eq]
  exact ⟨fun h k hk => h k (by omega), fun h k hk => h k (by omega)⟩

theorem State.atEnd_iff {s : State} : s.atEnd = true ↔ ∃ p, s.program = some p ∧ s.rip.toNat = p.stop := by
  unfold State.atEnd
  split
  · rename_i h; simp [h]
  · rename_i p h; simp [h]

theorem State.programHolds_iff {s : State} {n : Nat} :
    s.programHolds n = true ↔ ∃ p, s.program = some p ∧ p.start ≤ s.rip.toNat ∧ s.rip.toNat + n ≤ p.stop := by
  unfold State.programHolds
  split
  · rename_i h; simp [h]
  · rename_i p h; simp [h]

/-! ## The bytes a step looks at -/

theorem State.fetchBytes_of_some {s : State} {a : Nat} {b : Byte} (h : s.fetchByte a = some b) (n : Nat) :
    s.fetchBytes (n + 1) a = b :: s.fetchBytes n (a + 1) := by
  rw [State.fetchBytes, h]

theorem State.fetchBytes_of_none {s : State} {a : Nat} (h : s.fetchByte a = none) (n : Nat) :
    s.fetchBytes (n + 1) a = [] := by
  rw [State.fetchBytes, h]

/-- Byte `i` of the window is the byte at `a + i`. -/
theorem State.fetchBytes_getElem {s : State} {n a i : Nat} {b : Byte} (h : (s.fetchBytes n a)[i]? = some b) :
    s.fetchByte (a + i) = some b := by
  induction n generalizing a i with
  | zero => simp [State.fetchBytes] at h
  | succ n ih =>
    cases hc : s.fetchByte a with
    | none => simp [State.fetchBytes_of_none hc] at h
    | some c =>
      rw [State.fetchBytes_of_some hc] at h
      cases i with
      | zero => simpa [hc] using h
      | succ i => rw [← ih (a := a + 1) (i := i) (by simpa using h)]; congr 1; omega

/-- A window is shorter than asked for only where the next byte cannot be fetched. -/
theorem State.fetchBytes_length (s : State) (n a : Nat) : (s.fetchBytes n a).length ≤ n ∧
    ((s.fetchBytes n a).length < n → s.fetchByte (a + (s.fetchBytes n a).length) = none) := by
  induction n generalizing a with
  | zero => simp [State.fetchBytes]
  | succ n ih =>
    cases hc : s.fetchByte a with
    | none => simp [State.fetchBytes_of_none hc, hc]
    | some c =>
      obtain ⟨h1, h2⟩ := ih (a + 1)
      rw [State.fetchBytes_of_some hc]
      refine ⟨by simpa using h1, fun h => ?_⟩
      rw [← h2 (by simpa using h)]
      congr 1
      simp only [List.length_cons]; omega

/-- A longer window begins with the shorter one. -/
theorem State.fetchBytes_add (s : State) (n m a : Nat) :
    s.fetchBytes (n + m) a =
      s.fetchBytes n a ++ (if (s.fetchBytes n a).length = n then s.fetchBytes m (a + n) else []) := by
  induction n generalizing a with
  | zero => simp [State.fetchBytes]
  | succ n ih =>
    rw [show n + 1 + m = (n + m) + 1 by omega]
    cases hc : s.fetchByte a with
    | none => simp [State.fetchBytes_of_none hc]
    | some c =>
      rw [State.fetchBytes_of_some hc, State.fetchBytes_of_some hc, ih (a + 1)]
      simp [show a + 1 + n = a + (n + 1) by omega]

/-- A window over bytes that can all be fetched begins with them. -/
theorem State.fetchBytes_of_bytes {s : State} {bs : List Byte} {a : Nat} (n : Nat)
    (h : ∀ j < bs.length, s.fetchByte (a + j) = bs[j]?) :
    s.fetchBytes (bs.length + n) a = bs ++ s.fetchBytes n (a + bs.length) := by
  induction bs generalizing a with
  | nil => simp
  | cons b bs ih =>
    have h0 : s.fetchByte a = some b := by simpa using h 0 (by simp)
    rw [show (b :: bs).length + n = (bs.length + n) + 1 by simp only [List.length_cons]; omega,
      State.fetchBytes_of_some h0, List.cons_append]
    rw [ih (fun j hj => by simpa [Nat.add_assoc, Nat.add_comm 1] using h (j + 1) (by simpa using hj))]
    simp [Nat.add_assoc, Nat.add_comm 1]

/-! ## The load -/

/-- An answer holds for its whole page, each address keeping its offset. -/
theorem State.translate_of_page {s : State} {a x : Word} {kind : AccessKind} {f : BitVec 52} {t : MemType}
    (h : s.translate a kind = .ok (f ++ a.extractLsb' 0 12) t) (hp : x.extractLsb' 12 52 = a.extractLsb' 12 52) :
    s.translate x kind = .ok (f ++ x.extractLsb' 0 12) t := by
  have hi : ∀ {g g' : BitVec 52} {o : BitVec 12}, (g ++ o : Word) = g' ++ o → g = g' := fun {g g' o} e => by
    apply BitVec.eq_of_getLsbD_eq
    intro i _
    have := congrArg (fun w : Word => w.getLsbD (i + 12)) e
    simpa [getLsbD_page_offset] using this
  unfold State.translate at h ⊢
  rw [hp]
  split at h
  · rename_i r _
    cases e : r.entry with
    | frame g t' =>
      rw [e] at h
      obtain ⟨h1, rfl⟩ : g ++ a.extractLsb' 0 12 = f ++ a.extractLsb' 0 12 ∧ t' = t := by
        simpa only [PageEntry.answer, Translation.ok.injEq] using h
      rw [hi h1]; rfl
    | pageFault c => rw [e] at h; simp [PageEntry.answer] at h
  · cases e : s.pageDefault with
    | identity t' =>
      rw [e] at h
      obtain ⟨h1, rfl⟩ : a = f ++ a.extractLsb' 0 12 ∧ t' = t := by
        simpa only [PageDefault.answer, Translation.ok.injEq] using h
      have h2 : a.extractLsb' 12 52 = f := hi ((page_offset_self a).trans h1)
      rw [← h2, ← hp, page_offset_self]; rfl
    | pageFault c => rw [e] at h; simp [PageDefault.answer] at h

/-- Everything mapping a page does: its addresses go to that frame, for that kind of access. -/
theorem State.mapPage_translate (s : State) (k k' : AccessKind) (f : BitVec 52) (a x : Word) :
    (s.mapPage k f a).translate x k' =
      if k' = k ∧ x.extractLsb' 12 52 = a.extractLsb' 12 52 then .ok (f ++ x.extractLsb' 0 12) .writeBack
      else s.translate x k' := by
  unfold State.mapPage
  split
  · rename_i h
    split
    · rename_i hc; obtain ⟨rfl, hp⟩ := hc; exact State.translate_of_page h hp
    · rfl
  · split
    · rename_i hc; obtain ⟨rfl, hp⟩ := hc; simp [State.translate, hp, PageEntry.answer]
    · rename_i hc
      have : (a.extractLsb' 12 52 == x.extractLsb' 12 52 && k == k') = false := by
        rw [← Bool.not_eq_true, Bool.and_eq_true, beq_iff_eq, beq_iff_eq]
        exact fun h => hc ⟨h.2.symm, h.1.symm⟩
      simp [State.translate, this]

/-- Everything making a page code does: fetches and reads of its addresses go to one frame of ordinary memory. -/
theorem State.mapCode_translate (s : State) {k' : AccessKind} (a x : Word) (hk : k' ≠ .write) :
    (s.mapCode a).translate x k' =
      if x.extractLsb' 12 52 = a.extractLsb' 12 52 then .ok (s.codeFrame a ++ x.extractLsb' 0 12) .writeBack
      else s.translate x k' := by
  simp only [State.mapCode, State.mapPage_translate]
  cases k' <;> simp at hk ⊢

/-- Bytes placed at distinct addresses read back, and no other byte changes. -/
theorem Memory.read_place {m : Memory} (hm : m.wf) (addr : Word → Word) (a : Word) (bs : List Byte)
    (hinj : ∀ i < bs.length, ∀ j < bs.length, i ≠ j → (addr (byteAddr a i)).toNat ≠ (addr (byteAddr a j)).toNat) :
    (∀ q, (∀ i < bs.length, q ≠ (addr (byteAddr a i)).toNat) → (m.place addr a bs).read q = m.read q) ∧
      ∀ k < bs.length, some ((m.place addr a bs).read (addr (byteAddr a k)).toNat) = bs[k]? := by
  induction bs generalizing m a with
  | nil => simp [Memory.place]
  | cons b bs ih =>
    have hs : ∀ i, byteAddr (a + 1) i = byteAddr a (i + 1) := fun i => by
      apply BitVec.eq_of_toNat_eq; simp [byteAddr]; omega
    have h0 : byteAddr a 0 = a := by simp [byteAddr]
    obtain ⟨i1, i2⟩ := ih (Memory.write_wf hm (BitVec.isLt (addr a)) b) (a + 1) fun i hi j hj hij => by
      rw [hs, hs]
      exact hinj _ (by simpa using hi) _ (by simpa using hj) (by omega)
    refine ⟨fun q hq => ?_, fun k hk => ?_⟩
    · rw [Memory.place, i1 q fun i hi => by rw [hs]; exact hq _ (by simpa using hi)]
      exact Memory.read_write_other hm _ (by simpa [h0] using hq 0 (by simp))
    · rw [Memory.place]
      cases k with
      | zero =>
        rw [h0, i1 _ fun i hi => by
          rw [hs]; simpa [h0] using hinj 0 (by simp) (i + 1) (by simpa using hi) (by omega),
          Memory.read_write_same hm]
        rfl
      | succ k => rw [← hs, i2 k (by simpa using hk)]; rfl

/-! ## A step that completes -/

theorem State.fetched_next {s t : State} {n : Nat} {out : Out} (h : s.fetched n out = .next t) :
    out = .next t ∧ s.fetchCanonical n = true ∧ s.programHolds n = true := by
  unfold State.fetched at h
  split at h
  · simp at h
  split at h
  · simp at h
  · rename_i h1 h2
    exact ⟨h, by simpa using h1, by simpa using h2⟩

/-- Everything a step that completes has done: it ran one decoded instruction whose bytes could be fetched and are
the program's. -/
theorem step_next {s t : State} (h : step s = .next t) :
    s.mode = .mode64 ∧ s.flagTf = false ∧ s.atEnd = false ∧
      ∃ i, decode s.fetchWindow = .insn i ∧ exec i s = .next t ∧ s.fetchCanonical i.len = true ∧
        s.programHolds i.len = true := by
  unfold step at h
  split at h
  · simp at h
  split at h
  · simp at h
  split at h
  · simp at h
  rename_i h1 h2 h3
  refine ⟨by simpa using h1, by simpa using h2, by simpa using h3, ?_⟩
  split at h
  · rename_i i hi
    exact ⟨i, hi, State.fetched_next h⟩
  · simpa [raise] using (State.fetched_next h).1
  · simpa [raise] using (State.fetched_next h).1
  · simp at h
  · simp at h

end Machine
end Sys2Proof
end

