-- ==== Sys2Proof/Tests/Slice0.lean ====
section
/-! SUPPORT. Tests. Expected results are the spec's own (95_test_vectors.md: S<n> the source's rows, V<n> the derived
vectors), or follow from the rule a test names. -/

namespace Sys2Proof.Tests

set_option Elab.async false

open Sys2Proof.Machine

/-! ## WellFormed refuses an ill-formed term for each of its checks -/

/-- A well-formed legacy, VEX and EVEX term; each smoke test spoils one point of one of them. -/
abbrev leg0 : LegOps := ⟨[.opSize], false, 1, .mem (.base 0 .zero)⟩
abbrev vex0 : VexOps := ⟨[], false, 1, .mem (.base 0 .zero)⟩
abbrev evex0 : EvexOps := ⟨[], 1, .mem (.base 0 .zero), 0, false⟩

theorem test_wf_terms : (Instr.movdqaLoad leg0).WellFormed ∧ (Instr.vmovdqaYmmStore vex0).WellFormed ∧
    (Instr.vmovdqa64ZmmStore evex0).WellFormed := by decide

theorem test_wf_leg_needs_66 : ¬ (Instr.movdqaLoad ⟨[], false, 1, .mem (.base 0 .zero)⟩).WellFormed := by decide
theorem test_wf_leg_no_F2 : ¬ (Instr.movdqaLoad ⟨[.opSize, .repne], false, 1, .mem (.base 0 .zero)⟩).WellFormed := by decide
theorem test_wf_leg_no_F3 : ¬ (Instr.movdqaLoad ⟨[.rep, .opSize], false, 1, .mem (.base 0 .zero)⟩).WellFormed := by decide
theorem test_wf_leg_no_lock : ¬ (Instr.movdqaStore ⟨[.lock, .opSize], false, 1, .mem (.base 0 .zero)⟩).WellFormed := by decide
theorem test_wf_leg_rex_bit_needs_rex : ¬ (Instr.movdqaLoad ⟨[.opSize], false, 8, .mem (.base 0 .zero)⟩).WellFormed := by decide
theorem test_wf_leg_base_needs_rex : ¬ (Instr.movdqaLoad ⟨[.opSize], false, 1, .mem (.base 9 .zero)⟩).WellFormed := by decide
theorem test_wf_leg_index_needs_rex :
    ¬ (Instr.movdqaLoad ⟨[.opSize], false, 1, .mem (.sib 0 9 0 .zero)⟩).WellFormed := by decide
theorem test_wf_leg_trailing_rex : ¬ (Instr.movdqaLoad ⟨[.opSize, .rex 0], false, 1, .mem (.base 0 .zero)⟩).WellFormed := by decide
theorem test_wf_leg_reg_below_16 : ¬ (Instr.movdqaLoad ⟨[.opSize], true, 16, .mem (.base 0 .zero)⟩).WellFormed := by decide
theorem test_wf_leg_rm_below_16 : ¬ (Instr.movdqaLoad ⟨[.opSize], true, 1, .reg 16⟩).WellFormed := by decide
theorem test_wf_leg_length :
    ¬ (Instr.movdqaLoad ⟨List.replicate 13 .opSize, false, 1, .mem (.base 0 .zero)⟩).WellFormed := by decide
theorem test_wf_base_needs_sib : ¬ (Instr.movdqaLoad ⟨[.opSize], false, 1, .mem (.base 4 (.d8 0))⟩).WellFormed := by decide
theorem test_wf_base_needs_disp : ¬ (Instr.movdqaLoad ⟨[.opSize], false, 1, .mem (.base 5 .zero)⟩).WellFormed := by decide
theorem test_wf_sib_base_needs_disp :
    ¬ (Instr.movdqaLoad ⟨[.opSize], false, 1, .mem (.sib 5 0 0 .zero)⟩).WellFormed := by decide
theorem test_wf_vex_no_66 : ¬ (Instr.vmovdqaXmmLoad ⟨[.opSize], false, 1, .mem (.base 0 .zero)⟩).WellFormed := by decide
theorem test_wf_vex_no_rex : ¬ (Instr.vmovdqaXmmLoad ⟨[.rex 0], false, 1, .mem (.base 0 .zero)⟩).WellFormed := by decide
theorem test_wf_vex_two_byte_no_B : ¬ (Instr.vmovdqaXmmLoad ⟨[], false, 1, .reg 8⟩).WellFormed := by decide
theorem test_wf_vex_reg_below_16 : ¬ (Instr.vmovdqaYmmLoad ⟨[], false, 16, .mem (.base 0 .zero)⟩).WellFormed := by decide
theorem test_wf_vex_rm_below_16 :
    ¬ (Instr.vmovdqaYmmLoad ⟨[], true, 1, .reg 16⟩).WellFormed := by decide
theorem test_wf_vex_length :
    ¬ (Instr.vmovdqaYmmLoad ⟨List.replicate 12 .segCs, false, 1, .mem (.base 0 .zero)⟩).WellFormed := by decide
theorem test_wf_evex_no_lock : ¬ (Instr.vmovdqa32ZmmLoad ⟨[.lock], 1, .mem (.base 0 .zero), 0, false⟩).WellFormed := by decide
theorem test_wf_evex_z_needs_mask : ¬ (Instr.vmovdqa32ZmmLoad ⟨[], 1, .mem (.base 0 .zero), 0, true⟩).WellFormed := by decide
theorem test_wf_evex_z_store :
    ¬ (Instr.vmovdqa32ZmmStore ⟨[], 1, .mem (.base 0 .zero), 1, true⟩).WellFormed := by decide
theorem test_wf_evex_length :
    ¬ (Instr.vmovdqa64XmmLoad ⟨List.replicate 10 .segCs, 1, .mem (.base 0 .zero), 0, false⟩).WellFormed := by decide

/-! ## Decoding: the bytes of 95_test_vectors.md S1, row by row, and other encodings -/

theorem test_decode_row1 : decode [0x66, 0x0F, 0x6F, 0x08] = .insn (.movdqaLoad leg0) := by decide
theorem test_decode_row2 : decode [0x66, 0x0F, 0x7F, 0x08] = .insn (.movdqaStore leg0) := by decide
theorem test_decode_row3 : decode [0xC5, 0xF9, 0x6F, 0x08] = .insn (.vmovdqaXmmLoad vex0) := by decide
theorem test_decode_row4 : decode [0xC5, 0xF9, 0x7F, 0x08] = .insn (.vmovdqaXmmStore vex0) := by decide
theorem test_decode_row5 : decode [0xC5, 0xFD, 0x6F, 0x08] = .insn (.vmovdqaYmmLoad vex0) := by decide
theorem test_decode_row6 : decode [0xC5, 0xFD, 0x7F, 0x08] = .insn (.vmovdqaYmmStore vex0) := by decide
theorem test_decode_row7 : decode [0x62, 0xF1, 0x7D, 0x08, 0x6F, 0x08] = .insn (.vmovdqa32XmmLoad evex0) := by decide
theorem test_decode_row8 : decode [0x62, 0xF1, 0x7D, 0x28, 0x6F, 0x08] = .insn (.vmovdqa32YmmLoad evex0) := by decide
theorem test_decode_row9 : decode [0x62, 0xF1, 0x7D, 0x48, 0x6F, 0x08] = .insn (.vmovdqa32ZmmLoad evex0) := by decide
theorem test_decode_row10 : decode [0x62, 0xF1, 0x7D, 0x08, 0x7F, 0x08] = .insn (.vmovdqa32XmmStore evex0) := by decide
theorem test_decode_row11 : decode [0x62, 0xF1, 0x7D, 0x28, 0x7F, 0x08] = .insn (.vmovdqa32YmmStore evex0) := by decide
theorem test_decode_row12 : decode [0x62, 0xF1, 0x7D, 0x48, 0x7F, 0x08] = .insn (.vmovdqa32ZmmStore evex0) := by decide
theorem test_decode_row13 : decode [0x62, 0xF1, 0xFD, 0x08, 0x6F, 0x08] = .insn (.vmovdqa64XmmLoad evex0) := by decide
theorem test_decode_row14 : decode [0x62, 0xF1, 0xFD, 0x28, 0x6F, 0x08] = .insn (.vmovdqa64YmmLoad evex0) := by decide
theorem test_decode_row15 : decode [0x62, 0xF1, 0xFD, 0x48, 0x6F, 0x08] = .insn (.vmovdqa64ZmmLoad evex0) := by decide
theorem test_decode_row16 : decode [0x62, 0xF1, 0xFD, 0x08, 0x7F, 0x08] = .insn (.vmovdqa64XmmStore evex0) := by decide
theorem test_decode_row17 : decode [0x62, 0xF1, 0xFD, 0x28, 0x7F, 0x08] = .insn (.vmovdqa64YmmStore evex0) := by decide
theorem test_decode_row18 : decode [0x62, 0xF1, 0xFD, 0x48, 0x7F, 0x08] = .insn (.vmovdqa64ZmmStore evex0) := by decide

/-- V9: REX.R and REX.B, an 8-bit displacement. -/
theorem test_decode_V9 : decode [0x66, 0x45, 0x0F, 0x6F, 0x41, 0x10] =
    .insn (.movdqaLoad ⟨[.opSize], true, 8, .mem (.base 9 (.d8 0x10))⟩) := by decide
/-- V10: RIP-relative. -/
theorem test_decode_V10 : decode [0x66, 0x0F, 0x6F, 0x05, 0x40, 0, 0, 0] =
    .insn (.movdqaLoad ⟨[.opSize], false, 0, .mem (.ripRel 0x40)⟩) := by decide
/-- R64: R12 as a base takes a SIB byte whose index number 4 means no index. -/
theorem test_decode_R12 : decode [0x66, 0x41, 0x0F, 0x6F, 0x14, 0x24] =
    .insn (.movdqaLoad ⟨[.opSize], true, 2, .mem (.sib 12 4 0 .zero)⟩) := by decide
/-- V24: the three-byte VEX form with R and B. -/
theorem test_decode_V24 : decode [0xC4, 0x41, 0x7D, 0x6F, 0x0A] =
    .insn (.vmovdqaYmmLoad ⟨[], true, 9, .mem (.base 10 .zero)⟩) := by decide
/-- V21: W = 1 is the same instruction. -/
theorem test_decode_V21 : decode [0xC4, 0xE1, 0xFD, 0x6F, 0x08] =
    .insn (.vmovdqaYmmLoad ⟨[], true, 1, .mem (.base 0 .zero)⟩) := by decide
/-- V40: EVEX register numbers 17 and 30. -/
theorem test_decode_V40 : decode [0x62, 0x81, 0xFD, 0x48, 0x6F, 0xCE] =
    .insn (.vmovdqa64ZmmLoad ⟨[], 17, .reg 30, 0, false⟩) := by decide
/-- V44: R', R, X, B, a SIB byte and an 8-bit displacement. -/
theorem test_decode_V44 : decode [0x62, 0x01, 0xFD, 0x28, 0x6F, 0x7C, 0xB7, 0x01] =
    .insn (.vmovdqa64YmmLoad ⟨[], 31, .mem (.sib 15 14 2 (.d8 1)), 0, false⟩) := by decide
/-- V26: zeroing, K[1]. -/
theorem test_decode_V26 : decode [0x62, 0xF1, 0x7D, 0xC9, 0x6F, 0x08] =
    .insn (.vmovdqa32ZmmLoad ⟨[], 1, .mem (.base 0 .zero), 1, true⟩) := by decide
/-- V7, V19, V20, V35, V36, V37: #UD. -/
theorem test_decode_ud :
    decode [0xF0, 0x66, 0x0F, 0x7F, 0x07] = .ud 5 ∧ decode [0xC5, 0xF5, 0x6F, 0x08] = .ud 4 ∧
    decode [0x66, 0xC5, 0xFD, 0x6F, 0x08] = .ud 5 ∧ decode [0x62, 0xF1, 0x75, 0x48, 0x6F, 0x08] = .ud 6 ∧
    decode [0x62, 0xF1, 0x7D, 0xC9, 0x7F, 0x0B] = .ud 6 ∧ decode [0x62, 0xF1, 0x7D, 0x68, 0x6F, 0x08] = .ud 6 ∧
    decode [0x62, 0xF1, 0x7D, 0x58, 0x6F, 0x08] = .ud 6 ∧ decode [0x62, 0xF1, 0x7D, 0x88, 0x6F, 0xCA] = .ud 6 ∧
    decode [0x62, 0xF1, 0x7D, 0x40, 0x6F, 0x08] = .ud 6 ∧ decode [0x62, 0xF9, 0x7D, 0x48, 0x6F, 0x08] = .ud 6 ∧
    decode [0x62, 0xF1, 0x79, 0x48, 0x6F, 0x08] = .ud 6 ∧
    decode [0xF0, 0x62, 0xF1, 0x7D, 0x48, 0x7F, 0x0B] = .ud 7 := by decide
/-- V14f, V25e, R71: another instruction. -/
theorem test_decode_other :
    decode [0xF3, 0x0F, 0x6F, 0x08] = .notThisFamily ∧ decode [0x0F, 0x6F, 0x08] = .notThisFamily ∧
    decode [0x66, 0xF3, 0x0F, 0x6F, 0x08] = .notThisFamily ∧ decode [0xC5, 0xFA, 0x6F, 0x08] = .notThisFamily ∧
    decode [0xF2, 0x0F, 0x6F, 0x08] = .notThisFamily ∧ decode [0x90] = .notThisFamily ∧
    decode [0x66, 0x0F] = .truncated := by decide
/-- R73: sixteen bytes through redundant prefixes; fifteen are an instruction. -/
theorem test_decode_gp0 : decode (List.replicate 13 0x66 ++ [0x0F, 0x6F, 0xCA]) = .gp0 16 ∧
    decode (List.replicate 12 0x66 ++ [0x0F, 0x6F, 0xCA]) =
      .insn (.movdqaLoad ⟨List.replicate 12 .opSize, false, 1, .reg 2⟩) := by decide

/-- The encoder writes V44's bytes. -/
theorem test_encode_V44 : encode (.vmovdqa64YmmLoad ⟨[], 31, .mem (.sib 15 14 2 (.d8 1)), 0, false⟩) =
    [0x62, 0x01, 0xFD, 0x28, 0x6F, 0x7C, 0xB7, 0x01] := by decide

/-! ## The start state S0 of 95_test_vectors.md, as far as the tests below need its memory -/

/-- Bytes `a` to `a + n - 1` of page 1000H: `Mem[a] = (7a + 3) mod 256`. -/
def page1 (a n : Nat) : Memory := (List.range n).map fun i => (a + i, BitVec.ofNat 8 (7 * (a + i) + 3))

def s0 : State :=
  { State.reset with
    x := #v[0x1000, 0, 0, 0x3000, 0, 0x1000, 0x1000, 0x3000, 0, 0x1100, 0x1200, 0, 0, 0, 0x10, 0x1400]
    rip := 0x400000
    cr0 := 0x80000011
    cr4 := 0x40200
    xcr0 := 0xE7
    efer := 0x400
    csL := true
    zmm := Vector.ofFn fun n : Fin 32 => BitVec.ofNat 512
      ((List.range 64).foldl (fun acc i => acc + (16 * n.val + i) % 256 * 256 ^ i) 0)
    k := #v[0, 0xFF, 0, 0xFFF0, 0xA5, 3, 1, 0xFFFFFFFFFFFFFFFF]
    mem := page1 0x1000 128 ++ page1 0x1110 16 ++ page1 0x1200 32 ++ page1 0x1460 32 ++
      (List.range 64).map (fun i => (0x3000 + i, 0xEE))
    pages := [⟨1, .read, 0, .frame 1 .writeBack⟩, ⟨1, .write, 0, .frame 1 .writeBack⟩, ⟨3, .read, 0, .frame 3 .writeBack⟩,
      ⟨3, .write, 0, .frame 3 .writeBack⟩, ⟨5, .read, 0, .frame 5 .writeBack⟩, ⟨0x400, .fetch, 0, .frame 0x400 .writeBack⟩,
      ⟨0x400, .read, 0, .frame 0x400 .writeBack⟩]
    pageDefault := .pageFault 0
    program := some ⟨0x400000, 0x401000⟩ }

/-- The outcome of the instruction with these bytes. -/
def run (bs : List Byte) (s : State) : Out :=
  match decode bs with
  | .insn i => exec i s
  | .ud _ => .fault .ud
  | .gp0 _ => .fault .gp
  | .notThisFamily => .refused .notThisFamily
  | .truncated => .refused .notThisFamily

/-- What the next state of an outcome holds, if there is one. -/
def seen (f : State → α) : Out → Option α
  | .next t => some (f t)
  | .fault _ => none
  | .refused _ => none

/-- The exception an outcome is, if it is one. -/
def faultOf : Out → Option Fault
  | .next _ => none
  | .fault f => some f
  | .refused _ => none

/-- The refusal an outcome is, if it is one. -/
def refusalOf : Out → Option Refusal
  | .next _ => none
  | .fault _ => none
  | .refused r => some r

/-- `n` bytes of memory from `a` upwards. -/
def bytesAt (a n : Nat) (s : State) : List Byte := (List.range n).map fun i => s.byteAt (a + i)

/-! ## One step per test -/

/-- V1 -/
theorem test_movdqaLoad_V1 : seen (fun t => (t.vec 1, t.rip)) (run [0x66, 0x0F, 0x6F, 0xCA] s0) =
    some (0x4F4E4D4C4B4A494847464544434241403F3E3D3C3B3A393837363534333231302F2E2D2C2B2A292827262524232221202F2E2D2C2B2A29282726252423222120, 0x400004) := by
  decide +kernel
/-- V9: `disp8` unscaled, REX.R and REX.B. -/
theorem test_movdqaLoad_V9 : seen (fun t => ((t.vec 8).extractLsb' 0 128, t.rip))
    (run [0x66, 0x45, 0x0F, 0x6F, 0x41, 0x10] s0) = some (0xDCD5CEC7C0B9B2ABA49D968F88817A73, 0x400006) := by
  decide +kernel
/-- V4 -/
theorem test_movdqaStore_V4 : seen (bytesAt 0x3000 17) (run [0x66, 0x0F, 0x7F, 0x0F] s0) =
    some [0x10, 0x11, 0x12, 0x13, 0x14, 0x15, 0x16, 0x17, 0x18, 0x19, 0x1A, 0x1B, 0x1C, 0x1D, 0x1E, 0x1F, 0xEE] := by
  decide +kernel
/-- V14c -/
theorem test_movdqaStore_V14c : faultOf (run [0x66, 0x0F, 0x7F, 0x07] { s0 with x := s0.x.set 7 0x5000 }) =
      some (.pf 0 0x5000) := by decide +kernel
/-- V16 -/
theorem test_vmovdqaXmmLoad_V16 : seen (·.vec 1) (run [0xC5, 0xF9, 0x6F, 0xC9] s0) =
    some 0x1F1E1D1C1B1A19181716151413121110 := by decide +kernel
/-- V18b -/
theorem test_vmovdqaXmmLoad_V18b : seen (·.vec 1) (run [0xC5, 0xF9, 0x6F, 0x08] { s0 with x := s0.x.set 0 0x1010 }) =
    some 0xDCD5CEC7C0B9B2ABA49D968F88817A73 := by decide +kernel
/-- V23 -/
theorem test_vmovdqaXmmStore_V23 : seen (bytesAt 0x3000 17) (run [0xC5, 0xF9, 0x7F, 0x0B] s0) =
    some [0x10, 0x11, 0x12, 0x13, 0x14, 0x15, 0x16, 0x17, 0x18, 0x19, 0x1A, 0x1B, 0x1C, 0x1D, 0x1E, 0x1F, 0xEE] := by
  decide +kernel
/-- V17 -/
theorem test_vmovdqaYmmLoad_V17 : seen (fun t => (t.vec 1, t.rip)) (run [0xC5, 0xFD, 0x6F, 0x08] s0) =
    some (0xDCD5CEC7C0B9B2ABA49D968F88817A736C655E575049423B342D261F18110A03, 0x400004) := by decide +kernel
/-- V18 -/
theorem test_vmovdqaYmmLoad_V18 : faultOf (run [0xC5, 0xFD, 0x6F, 0x08] { s0 with x := s0.x.set 0 0x1010 }) =
      some .gp := by
  decide +kernel
/-- V22 -/
theorem test_vmovdqaYmmStore_V22 : seen (·.vec 1) (run [0xC5, 0xFD, 0x7F, 0xD1] s0) =
    some 0x3F3E3D3C3B3A393837363534333231302F2E2D2C2B2A29282726252423222120 := by decide +kernel
/-- V23b: bytes 31 and 32. -/
theorem test_vmovdqaYmmStore_V23b : seen (bytesAt 0x301E 3) (run [0xC5, 0xFD, 0x7F, 0x0B] s0) =
    some [0x2E, 0x2F, 0xEE] := by decide +kernel
/-- V38a -/
theorem test_vmovdqa32XmmLoad_V38a : seen (·.vec 1) (run [0x62, 0xF1, 0x7D, 0x0D, 0x6F, 0xCA] s0) =
    some 0x1F1E1D1C1B1A19182726252423222120 := by decide +kernel
/-- V31 under `none` and under `gp`. -/
theorem test_vmovdqa32XmmLoad_V31 :
    seen (fun t => (t.vec 1, t.rip)) (run [0x62, 0xF1, 0x7D, 0x0B, 0x6F, 0x08]
      { s0 with x := s0.x.set 0 0x1004, cfg := { s0.cfg with zeroMaskAlignFault := .noFault } }) =
        some (0x1F1E1D1C1B1A19181716151413121110, 0x400006) ∧
    faultOf (run [0x62, 0xF1, 0x7D, 0x0B, 0x6F, 0x08]
      { s0 with x := s0.x.set 0 0x1004, cfg := { s0.cfg with zeroMaskAlignFault := .gp } }) =
      some .gp := by
  decide +kernel
/-- V33b: `disp8` = -1 scaled by 32. -/
theorem test_vmovdqa32YmmLoad_V33b : seen (fun t => (t.vec 2, t.rip))
    (run [0x62, 0xF1, 0x7D, 0x28, 0x6F, 0x50, 0xFF] { s0 with x := s0.x.set 0 0x1040 }) =
      some (0xBCB5AEA7A099928B847D766F68615A534C453E373029221B140D06FFF8F1EAE3, 0x400007) := by decide +kernel
/-- V26 -/
theorem test_vmovdqa32ZmmLoad_V26 : seen (·.vec 1) (run [0x62, 0xF1, 0x7D, 0xC9, 0x6F, 0x08] s0) =
    some 0xDCD5CEC7C0B9B2ABA49D968F88817A736C655E575049423B342D261F18110A03 := by decide +kernel
/-- V42a: nothing selected, page absent. -/
theorem test_vmovdqa32ZmmLoad_V42a : seen id (run [0x62, 0xF1, 0x7D, 0x4A, 0x6F, 0x08] { s0 with x := s0.x.set 0 0x2000 }) =
    some { s0 with x := s0.x.set 0 0x2000, rip := 0x400006 } := by decide +kernel
/-- V39 -/
theorem test_vmovdqa32XmmStore_V39 : seen (·.vec 1) (run [0x62, 0xF1, 0x7D, 0x8C, 0x7F, 0xD1] s0) =
    some 0x000000002B2A29280000000023222120 := by decide +kernel
/-- R100 with K[5] = 3: doublewords 0 and 1 stored, no more. -/
theorem test_vmovdqa32YmmStore_masked : seen (bytesAt 0x3006 3) (run [0x62, 0xF1, 0x7D, 0x2D, 0x7F, 0x0B] s0) =
    some [0x16, 0x17, 0xEE] := by decide +kernel
/-- V29 -/
theorem test_vmovdqa32ZmmStore_V29 : seen (bytesAt 0x3000 32) (run [0x62, 0xF1, 0x7D, 0x4C, 0x7F, 0x0B] s0) =
    some [0x10, 0x11, 0x12, 0x13, 0xEE, 0xEE, 0xEE, 0xEE, 0x18, 0x19, 0x1A, 0x1B, 0xEE, 0xEE, 0xEE, 0xEE,
      0xEE, 0xEE, 0xEE, 0xEE, 0x24, 0x25, 0x26, 0x27, 0xEE, 0xEE, 0xEE, 0xEE, 0x2C, 0x2D, 0x2E, 0x2F] := by
  decide +kernel
/-- V42c: a masked store with nothing selected, to a read-only page. -/
theorem test_vmovdqa32ZmmStore_V42c : seen id (run [0x62, 0xF1, 0x7D, 0x4A, 0x7F, 0x0B] { s0 with x := s0.x.set 3 0x5000 }) =
    some { s0 with x := s0.x.set 3 0x5000, rip := 0x400006 } := by decide +kernel
/-- V38b -/
theorem test_vmovdqa64XmmLoad_V38b : seen (·.vec 1) (run [0x62, 0xF1, 0xFD, 0x0D, 0x6F, 0xCA] s0) =
    some 0x2F2E2D2C2B2A29282726252423222120 := by decide +kernel
/-- V44 -/
theorem test_vmovdqa64YmmLoad_V44 : seen (fun t => (t.vec 31, t.rip))
    (run [0x62, 0x01, 0xFD, 0x28, 0x6F, 0x7C, 0xB7, 0x01] s0) =
      some (0x7C756E676059524B443D362F28211A130C05FEF7F0E9E2DBD4CDC6BFB8B1AAA3, 0x400008) := by decide +kernel
/-- V33 -/
theorem test_vmovdqa64ZmmLoad_V33 : seen (fun t => (t.vec 1, t.rip)) (run [0x62, 0xF1, 0xFD, 0x48, 0x6F, 0x48, 0x01] s0) =
    some (0x7C756E676059524B443D362F28211A130C05FEF7F0E9E2DBD4CDC6BFB8B1AAA39C958E878079726B645D564F48413A332C251E17100902FBF4EDE6DFD8D1CAC3, 0x400007) := by
  decide +kernel
/-- V40 -/
theorem test_vmovdqa64ZmmLoad_V40 : seen (·.vec 17) (run [0x62, 0x81, 0xFD, 0x48, 0x6F, 0xCE] s0) =
    some 0x1F1E1D1C1B1A191817161514131211100F0E0D0C0B0A09080706050403020100FFFEFDFCFBFAF9F8F7F6F5F4F3F2F1F0EFEEEDECEBEAE9E8E7E6E5E4E3E2E1E0 := by
  decide +kernel
/-- R109 with K[6] = 1: quadword 0 stored, no more. -/
theorem test_vmovdqa64XmmStore_masked : seen (bytesAt 0x3006 3) (run [0x62, 0xF1, 0xFD, 0x0E, 0x7F, 0x0B] s0) =
    some [0x16, 0x17, 0xEE] := by decide +kernel
/-- R110 with K[5] = 3: quadwords 0 and 1 stored, no more. -/
theorem test_vmovdqa64YmmStore_masked : seen (bytesAt 0x300E 3) (run [0x62, 0xF1, 0xFD, 0x2D, 0x7F, 0x0B] s0) =
    some [0x1E, 0x1F, 0xEE] := by decide +kernel
/-- V30 -/
theorem test_vmovdqa64ZmmStore_V30 : seen (bytesAt 0x3000 24) (run [0x62, 0xF1, 0xFD, 0x4C, 0x7F, 0x0B] s0) =
    some [0x10, 0x11, 0x12, 0x13, 0x14, 0x15, 0x16, 0x17, 0xEE, 0xEE, 0xEE, 0xEE, 0xEE, 0xEE, 0xEE, 0xEE,
      0x20, 0x21, 0x22, 0x23, 0x24, 0x25, 0x26, 0x27] := by decide +kernel

/-- R38, R41: the store of V4 through page 8, mapped to frame 3, is what a load through page 3 then reads. -/
theorem test_translate_alias : seen (bytesAt 0x3000 2)
    (run [0x66, 0x0F, 0x7F, 0x0F] { s0 with x := s0.x.set 7 0x8000, pages := ⟨8, .write, 0, .frame 3 .writeBack⟩ :: s0.pages }) =
      some [0x10, 0x11] := by decide +kernel

/-- R166 (c): a page whose fetches fault and whose reads go to frame 5: the load puts the program where reads reach it; where a
read reaches another byte than the fetch, the byte is not the program's. -/
theorem test_load_code_frame :
    ({ s0 with pages := [⟨0x400, .read, 0, .frame 5 .writeBack⟩], pageDefault := .pageFault 4 }.load 4
        [0x66, 0x0F, 0x6F, 0xCA]).translate 0x400001 .fetch = .ok 0x5001 .writeBack ∧
    ({ s0 with pages := [⟨0x400, .read, 0, .frame 5 .writeBack⟩], pageDefault := .pageFault 4 }.load 4
        [0x66, 0x0F, 0x6F, 0xCA]).fetchByte 0x400001 = some 0x0F ∧
    { s0 with pages := ⟨0x400, .read, 0, .frame 5 .writeBack⟩ :: s0.pages }.fetchByte 0x400001 = none := by
  decide +kernel

/-! ## Exceptions: order and conditions -/

/-- V8a, V8b, V8d, V11, V12, V13, V14a, V14b. -/
theorem test_exceptions :
    faultOf (run [0x66, 0x0F, 0x6F, 0xCA] { s0 with cr0 := s0.cr0 ||| 4 }) =
      some .ud ∧
    faultOf (run [0x66, 0x0F, 0x6F, 0xCA] { s0 with cr0 := s0.cr0 ||| 8 }) =
      some .nm ∧
    faultOf (run [0x66, 0x0F, 0x6F, 0xCA] { s0 with cr0 := s0.cr0 ||| 12 }) =
      some .ud ∧
    faultOf (run [0x66, 0x0F, 0x6F, 0x06] { s0 with cr0 := s0.cr0 ||| 8, x := s0.x.set 6 0x1008 }) =
      some .nm ∧
    faultOf (run [0x66, 0x0F, 0x6F, 0x06] { s0 with x := s0.x.set 6 0x2008 }) =
      some .gp ∧
    faultOf (run [0x66, 0x0F, 0x6F, 0x06] { s0 with x := s0.x.set 6 0x2000 }) =
      some (.pf 0 0x2000) ∧
    faultOf (run [0x66, 0x0F, 0x6F, 0x00] { s0 with x := s0.x.set 0 0x900000000000 }) =
      some .gp ∧
    faultOf (run [0x66, 0x0F, 0x6F, 0x45, 0x00] { s0 with x := s0.x.set 5 0x900000000000 }) =
      some .ss := by
  decide +kernel
/-- V25a, V25b, V25d, V43a, V43b, V41, V45b. -/
theorem test_exceptions_vex_evex :
    faultOf (run [0xC5, 0xF9, 0x6F, 0xCA] { s0 with cr4 := 0x200 }) =
      some .ud ∧
    faultOf (run [0xC5, 0xF9, 0x6F, 0xCA] { s0 with xcr0 := 3 }) =
      some .ud ∧
    faultOf (run [0xC5, 0xF9, 0x6F, 0xCA] { s0 with cfg := { s0.cfg with hasAvx := false } }) =
      some .ud ∧
    faultOf (run [0x62, 0xF1, 0x7D, 0x08, 0x6F, 0xCA] { s0 with xcr0 := 7 }) =
      some .ud ∧
    faultOf (run [0x62, 0xF1, 0x7D, 0x08, 0x6F, 0xCA] { s0 with cfg := { s0.cfg with hasAvx512vl := false } }) =
      some .ud ∧
    faultOf (run [0x62, 0xF1, 0x7D, 0x4E, 0x6F, 0x08] { s0 with x := s0.x.set 0 0x1004 }) =
      some .gp ∧
    faultOf (run [0x62, 0xF1, 0x7D, 0x4E, 0x6F, 0x4D, 0x00] { s0 with x := s0.x.set 5 0x900000000000 }) =
      some .ss := by
  decide +kernel
/-- R130's table. -/
theorem test_vectors : Fault.vector .ud = 6 ∧ Fault.vector .nm = 7 ∧ Fault.vector .ss = 12 ∧ Fault.vector .gp = 13 ∧
    Fault.vector (.pf 4 0x2000) = 14 ∧ Fault.errorCode (.pf 4 0x2000) = some 4 ∧
    Fault.linearAddress (.pf 4 0x2000) = some 0x2000 := by decide

/-! ## A step -/

/-- Row 9's word, in the order of opcode_table.json (first byte at the top) and with the first byte lowest. -/
theorem test_table_word :
    decodeTableWord 48 0x62F17D486F08 = some (.vmovdqa32ZmmLoad evex0) ∧
    decodeTableWord 48 0x086F487DF162 = some (.vmovdqa32ZmmLoad evex0) ∧
    decodeTableWord 24 0x660F6F = some (.movdqaLoad ⟨[.opSize], false, 0, .mem (.base 0 .zero)⟩) ∧
    decodeTableWord 32 0x660F6F08 = some (.movdqaLoad leg0) := by decide +kernel

/-- The step after a load is the instruction: row 1 with ModRM CAH (V1) and row 18 (S1). -/
theorem test_step_first_instruction :
    seen id (step (State.reset.withFetchWord 32 0x660F6FCA)) =
      seen id (exec (.movdqaLoad ⟨[.opSize], false, 1, .reg 2⟩) (State.reset.withFetchWord 32 0x660F6FCA)) ∧
    seen id (step (State.reset.withFetchWord 48 0x62F1FD487F08)) =
      seen id (exec (.vmovdqa64ZmmStore evex0) (State.reset.withFetchWord 48 0x62F1FD487F08)) ∧
    seen (·.rip) (step (State.reset.withFetchWord 32 0x660F6FCA)) = some 0xFFF4 := by decide +kernel

/-- R165, R166 (d): without a declared program, or past its bytes, nothing runs. -/
theorem test_step_outside_program :
    refusalOf (step { State.reset.withFetchWord 32 0x660F6FCA with program := none }) = some .outsideProgram ∧
    refusalOf (step { State.reset.withFetchWord 32 0x660F6FCA with program := some ⟨0xFFF0, 0xFFF3⟩ }) =
      some .outsideProgram := by decide +kernel

/-- The reset state has nothing to run: real-address mode (R160, R74). -/
theorem test_step_at_reset : refusalOf (step State.reset) = some (.otherMode .realAddress) := by decide +kernel

/-! ## Witnesses: for each statement with hypotheses, a state and operands that meet them -/

/-- Rows 1 and 2 on registers and on [RAX]; rows 3 to 6; rows 7 to 18. -/
abbrev legReg : LegOps := ⟨[.opSize], true, 15, .reg 8⟩
abbrev vexReg : VexOps := ⟨[], true, 15, .reg 15⟩
abbrev evexReg : EvexOps := ⟨[], 31, .reg 31, 7, true⟩
abbrev evexK1 : EvexOps := ⟨[], 31, .mem (.base 0 (.d8 0)), 1, false⟩
abbrev evexK2 : EvexOps := ⟨[], 31, .mem (.base 0 .zero), 2, false⟩
abbrev legStack : LegOps := ⟨[.opSize], false, 0, .mem (.base 5 (.d8 0))⟩

/-- S0 with a changed RAX, RBP, program or parameter. -/
def s0Rax (v : Word) : State := { s0 with x := s0.x.set 0 v }
def s0Rbp (v : Word) : State := { s0 with x := s0.x.set 5 v }
def s0Cfg (z : ZeroMaskAlign) (n : SsNoncanon) (v : Word) : State :=
  { s0 with x := (s0.x.set 0 v).set 5 v, cfg := { s0.cfg with zeroMaskAlignFault := z, ssNoncanonMisaligned := n } }

theorem s0_inv : s0.Inv := Memory.wf_of_chain (by decide +kernel) (by decide +kernel)

/-- ResetLeavesSpecValues: registers on both sides of RDX. -/
theorem witness_reset : (1 : GReg) ≠ 2 ∧ (3 : GReg) ≠ 2 := by decide

/-- BootEnablesEveryClass: all four flags; 512 bits also without AVX512VL. -/
theorem witness_boot : s0.cfg.hasSse2 = true ∧ s0.cfg.hasAvx = true ∧ s0.cfg.hasAvx512f = true ∧
    s0.cfg.hasAvx512vl = true := by decide +kernel

/-- DecodeEncodeRoundTrip: well-formed instructions of each format with their highest registers. -/
theorem witness_wellFormed : (Instr.movdqaStore legReg).WellFormed ∧ (Instr.vmovdqaYmmLoad vexReg).WellFormed ∧
    (Instr.vmovdqa64ZmmStore evexReg).WellFormed ∧
    (Instr.vmovdqa32XmmLoad ⟨[.segFs, .addrSize], 31, .mem (.sib 15 14 3 (.d32 0xFFFFFFFF)), 7, true⟩).WellFormed := by
  decide

/-- DecodedInstructionsWellFormed: the shortest and the longest instruction. -/
theorem witness_decoded : decode [0x66, 0x0F, 0x6F, 0xCA] = .insn (.movdqaLoad ⟨[.opSize], false, 1, .reg 2⟩) ∧
    decode (List.replicate 12 0x66 ++ [0x0F, 0x6F, 0xCA]) =
      .insn (.movdqaLoad ⟨List.replicate 12 .opSize, false, 1, .reg 2⟩) := by decide

/-- ReservedVvvvUndefined: `vvvv` = 1110b and 0111b in each prefix form, with the shortest tail. -/
theorem witness_vvvv :
    ((0xF1 : Byte).extractLsb' 0 2 = 1#2 ∧ (0xF1 : Byte).extractLsb' 3 4 ≠ 0xF#4) ∧
    ((0xB9 : Byte).extractLsb' 0 2 = 1#2 ∧ (0xB9 : Byte).extractLsb' 3 4 ≠ 0xF#4) ∧
    (0xE1 : Byte).extractLsb' 0 5 = 1#5 ∧ (0xF1 : Byte).extractLsb' 0 2 = 1#2 ∧ 6 ≤ (List.replicate 6 (0 : Byte)).length := by
  decide

/-- EvexReservedFieldsUndefined: one value for each line of R69, beside map and implied prefix 01b. -/
theorem witness_evex_reserved :
    (0xF1 : Byte).extractLsb' 0 2 = 1#2 ∧ (0x7D : Byte).extractLsb' 0 2 = 1#2 ∧
    ((0xF9 : Byte).extractLsb' 2 2 ≠ 0#2 ∧ (0xF9 : Byte).extractLsb' 0 2 = 1#2) ∧
    ((0x79 : Byte).getLsbD 2 = false ∧ (0x79 : Byte).extractLsb' 0 2 = 1#2) ∧
    (0x40 : Byte).getLsbD 3 = false ∧ (0x58 : Byte).getLsbD 4 = true ∧ (0x68 : Byte).extractLsb' 5 2 = 3#2 ∧
    ((0x88 : Byte).getLsbD 7 = true ∧ (0x88 : Byte).extractLsb' 0 3 = 0#3) ∧
    ((0xC9 : Byte).getLsbD 7 = true ∧ (0x0B : Byte).extractLsb' 6 2 ≠ 3#2) ∧
    (∃ w, [Prefix.rex 0].getLast? = some (.rex w)) ∧ Prefix.lock ∈ [Prefix.segCs, .lock] ∧
    ((0xF2 : Byte).extractLsb' 2 2 = 0#2 ∧ (0xF2 : Byte).extractLsb' 0 2 ≠ 1#2) ∧
    ((0x7E : Byte).getLsbD 2 = true ∧ (0x7E : Byte).extractLsb' 0 2 ≠ 1#2) := by
  refine ⟨by decide, by decide, by decide, by decide, by decide, by decide, by decide, by decide, by decide,
    ⟨0, rfl⟩, by decide, by decide, by decide⟩

/-- VexPrefixRules: each clause. -/
theorem witness_vex_rules :
    (Prefix.opSize ∈ [Prefix.opSize] ∧ (0xFD : Byte).extractLsb' 0 2 = 1#2 ∧ (0xE1 : Byte).extractLsb' 0 5 = 1#5) ∧
    ((0xFA : Byte).extractLsb' 0 2 ≠ 1#2 ∧ (0xE2 : Byte).extractLsb' 0 5 ≠ 1#5) ∧
    ((∀ p ∈ [Prefix.segFs, .addrSize], p = .segCs ∨ p = .segSs ∨ p = .segDs ∨ p = .segEs ∨ p = .segFs ∨ p = .segGs ∨
        p = .addrSize) ∧ (Instr.vmovdqaYmmLoad vexReg).WellFormed ∧ [Prefix.segFs, .addrSize].length + vexReg.len ≤ 15) := by
  decide

/-- LegacyOpcodeNeeds66Alone: no 66H; 66H with F3H; 66H with F2H. -/
theorem witness_legacy_opcode : Prefix.opSize ∉ ([] : List Prefix) ∧ Prefix.rep ∈ [Prefix.opSize, .rep] ∧
    Prefix.repne ∈ [Prefix.repne, .opSize] := by decide

/-- OverlongInstructionGp, each clause: one byte too many, of mixed prefixes. -/
theorem witness_overlong :
    ((Instr.movdqaStore leg0).WellFormed ∧
      15 < (Prefix.lock :: .rex 0 :: List.replicate 10 Prefix.addrSize).length + (Instr.movdqaStore leg0).len ∧
      Prefix.repne ∉ Prefix.lock :: .rex 0 :: List.replicate 10 Prefix.addrSize ∧
      Prefix.rep ∉ Prefix.lock :: .rex 0 :: List.replicate 10 Prefix.addrSize) ∧
    ((vexRow true false vexReg).WellFormed ∧ 15 < (List.replicate 11 Prefix.repne).length + vexReg.len) ∧
    ((evexRow true .v512 true evexReg).WellFormed ∧ 15 < (List.replicate 10 Prefix.rep).length + evexReg.len) := by
  rw [vexRow_wellFormed, evexRow_wellFormed]; decide

/-- FetchWindowSuffices: the shortest longer look; in S0 without bytes at `rip` nothing runs out, and in one whose page is
not executable everything does. -/
theorem witness_window : s0.fetchFuel ≤ s0.fetchFuel ∧ decode { s0 with pages := [] }.fetchWindow = .truncated :=
  ⟨Nat.le_refl _, by decide +kernel⟩

/-- OperandTranslatesAsOne: the last byte of the last 64 bytes of a page; a page that faults. -/
theorem witness_one_page : (0x3FC0 : Word).toNat % VLen.v512.bytes = 0 ∧ 63 < VLen.v512.bytes ∧
    s0.translate 0x3FC0 .write = .ok 0x3FC0 .writeBack ∧ s0.translate 0x2000 .write = .pageFault 0 := by decide +kernel

/-- DisplacementScaling, EffectiveAddressForms, RipRelativeFromNextInstruction, AddressSizePrefixTruncates: operands
without and with a 67H prefix, real and absent index numbers, an aligned base. -/
theorem witness_addresses : Prefix.addrSize ∉ leg0.pre ∧ Prefix.addrSize ∉ vex0.pre ∧ Prefix.addrSize ∉ evex0.pre ∧
    Prefix.addrSize ∈ [Prefix.addrSize, .segFs] ∧ (12 : GReg) ≠ 4 ∧ (0 : GReg) ≠ 4 ∧
    (evexAddr .v512 s0 evex0 (.base 0 .zero)).toNat % VLen.v512.bytes = 0 ∧
    (evexAddr .v256 s0 evex0 (.sib 0 14 1 .zero)).toNat % VLen.v256.bytes = 0 := by decide +kernel

/-- SegmentSelection: nothing after the override; no override. -/
theorem witness_segment : Prefix.segFs ∉ [Prefix.opSize] ∧ Prefix.segGs ∉ [Prefix.opSize] := by decide

/-- VexUndefinedConditions, EvexUndefinedConditions, and the rows of every `WellFormed` hypothesis. -/
theorem witness_rows : (∀ st, (legRow st leg0).WellFormed ∧ (legRow st legReg).WellFormed) ∧
    (∀ l st, (vexRow l st vex0).WellFormed ∧ (vexRow l st vexReg).WellFormed) ∧
    ∀ w, ∀ st, (evexRow w .v128 st evexK1).WellFormed ∧ (evexRow w .v256 st evexK2).WellFormed ∧
      (evexRow w .v512 st evexReg).WellFormed := by
  refine ⟨?_, ?_, ?_⟩
  · intro st; rw [legRow_wellFormed, legRow_wellFormed]; decide
  · intro l st; rw [vexRow_wellFormed, vexRow_wellFormed]; decide
  · intro w st; rw [evexRow_wellFormed, evexRow_wellFormed, evexRow_wellFormed]; revert st; decide

/-- The enables of every result statement hold in S0. -/
theorem witness_enabled : LegEnabled s0 ∧ VexEnabled s0 ∧ EvexEnabled .v128 s0 ∧ EvexEnabled .v256 s0 ∧
    EvexEnabled .v512 s0 := by decide +kernel

/-- The same for S0 with other general registers or parameters. -/
theorem witness_enabled_changed (v : Word) (z : ZeroMaskAlign) (n : SsNoncanon) :
    LegEnabled (s0Rax v) ∧ LegEnabled (s0Rbp v) ∧ VexEnabled (s0Rax v) ∧ EvexEnabled .v512 (s0Rax v) ∧
    LegEnabled (s0Cfg z n v) ∧ EvexEnabled .v512 (s0Cfg z n v) := by
  obtain ⟨h1, h2, -, -, h5⟩ := witness_enabled
  exact ⟨h1, h1, h2, h5, h1, h5⟩

/-- DeviceNotAvailable, OtherModesRefused: S0 is in 64-bit mode; the reset state and compatibility mode are not. -/
theorem witness_modes : s0.mode = .mode64 ∧ State.reset.mode ≠ .mode64 ∧
    { s0 with csL := false }.mode = .compatibility := by decide +kernel

/-- MisalignedOperandGp: 16 bytes at 1008H; with a mask, 64 bytes at 1004H. -/
theorem witness_misaligned :
    (∃ a, operandOf (.movdqaStore leg0) (s0Rax 0x1008) = some (.write, a) ∧ a.someSelected ∧ ¬ a.aligned ∧
      a.seg ≠ .ss) ∧
    ∃ a, operandOf (.vmovdqa32ZmmLoad evexK1) (s0Rax 0x1004) = some (.read, a) ∧ a.someSelected ∧ ¬ a.aligned ∧
      a.seg ≠ .ss := by
  refine ⟨⟨_, rfl, by decide +kernel⟩, ⟨_, rfl, by decide +kernel⟩⟩

/-- NonCanonicalOperandFaults, both segments: the first non-canonical address, 0000800000000000H. -/
theorem witness_noncanonical :
    (∃ a, operandOf (.movdqaLoad leg0) (s0Rax 0x800000000000) = some (.read, a) ∧ a.aligned ∧
      ¬ a.allCanonical (s0Rax 0x800000000000) ∧ a.seg ≠ .ss) ∧
    ∃ a, operandOf (.movdqaLoad legStack) (s0Rbp 0x800000000000) = some (.read, a) ∧ a.aligned ∧
      ¬ a.allCanonical (s0Rbp 0x800000000000) ∧ a.seg = .ss := by
  simp only [← State.nonCanonical_eq_false]
  refine ⟨⟨_, rfl, by decide +kernel⟩, ⟨_, rfl, by decide +kernel⟩⟩

/-- StackNonCanonicalMisaligned, under each value of the parameter. -/
theorem witness_stack_noncanonical (n : SsNoncanon) :
    ∃ a, operandOf (.movdqaLoad legStack) (s0Cfg .either n 0x800000000008) = some (.read, a) ∧ a.seg = .ss ∧
      ¬ a.aligned ∧ ¬ a.allCanonical (s0Cfg .either n 0x800000000008) ∧
      (s0Cfg .either n 0x800000000008).cfg.ssNoncanonMisaligned = n := by
  simp only [← State.nonCanonical_eq_false]
  cases n <;> exact ⟨_, rfl, by decide +kernel⟩

/-- PageFaultOnSelectedElement: the only element of row 1, and the last of row 9 under K[3], whose earlier ones are
unselected. -/
theorem witness_page_fault :
    (∃ a, operandOf (.movdqaLoad leg0) (s0Rax 0x2000) = some (.read, a) ∧ a.aligned ∧ a.allCanonical (s0Rax 0x2000) ∧
      0 < a.sh.kl ∧ a.m.getLsbD 0 = true ∧
      (s0Rax 0x2000).translate (byteAddr a.la (a.sh.elem * 0)) .read = .pageFault 0) ∧
    ∃ a, operandOf (.vmovdqa32ZmmLoad ⟨[], 1, .mem (.base 0 .zero), 3, false⟩) (s0Rax 0x2000) = some (.read, a) ∧
      a.aligned ∧ a.allCanonical (s0Rax 0x2000) ∧ 4 < a.sh.kl ∧ a.m.getLsbD 4 = true ∧
      (∀ j' < 4, a.m.getLsbD j' = false) ∧
      (s0Rax 0x2000).translate (byteAddr a.la (a.sh.elem * 4)) .read = .pageFault 0 := by
  simp only [← State.nonCanonical_eq_false]
  refine ⟨⟨_, rfl, by decide +kernel⟩, ⟨_, rfl, by decide +kernel⟩⟩

/-- S0 where page 7000H is device memory. -/
def s0Device : State := { s0Rax 0x7000 with pages := ⟨7, .read, 0, .frame 7 .device⟩ :: s0.pages }

/-- S0 where page 400H may be written, where the program lies, and page 8 is mapped to the same frame. -/
def s0Code (v : Word) : State :=
  { s0Rax v with pages := ⟨0x400, .write, 0, .frame 0x400 .writeBack⟩ :: ⟨8, .write, 0, .frame 0x400 .writeBack⟩ :: s0.pages }

/-- RefusedMemoryOperands, both clauses: device memory, the last 16 bytes of the program, and the same bytes through
page 8. -/
theorem witness_refused :
    (∃ a, operandOf (.movdqaLoad leg0) s0Device = some (.read, a) ∧ a.aligned ∧ a.allCanonical s0Device ∧
      0 < a.sh.kl ∧ a.m.getLsbD 0 = true ∧ s0Device.translate (byteAddr a.la (a.sh.elem * 0)) .read = .ok 0x7000 .device) ∧
    (∃ a, operandOf (.movdqaStore leg0) (s0Code 0x400FF0) = some (.write, a) ∧ a.aligned ∧
      a.allCanonical (s0Code 0x400FF0) ∧
      (∀ b < 16, ((s0Code 0x400FF0).translate (byteAddr a.la b) .write).isWriteBack = true) ∧ a.reaches 15 ∧
      (s0Code 0x400FF0).inProgram (byteAddr a.la 15).toNat = true) ∧
    ∃ a, operandOf (.movdqaStore leg0) (s0Code 0x8FF0) = some (.write, a) ∧ a.aligned ∧
      a.allCanonical (s0Code 0x8FF0) ∧
      (∀ b < 16, ((s0Code 0x8FF0).translate (byteAddr a.la b) .write).isWriteBack = true) ∧ a.reaches 15 ∧
      (s0Code 0x8FF0).inProgram (0x400FFF : Word).toNat = true ∧
      (s0Code 0x8FF0).translate 0x400FFF .fetch = .ok ((s0Code 0x8FF0).bytePa .write a.la 15) .writeBack := by
  simp only [← State.nonCanonical_eq_false]
  refine ⟨⟨_, rfl, by decide +kernel⟩, ⟨_, rfl, by decide +kernel⟩, ⟨_, rfl, by decide +kernel⟩⟩

/-- RegisterCopyNeverFaults: a register copy of each format has no memory operand. -/
theorem witness_register_copy : operandOf (.movdqaLoad legReg) s0 = none ∧ operandOf (.vmovdqaYmmStore vexReg) s0 = none ∧
    operandOf (.vmovdqa64XmmStore evexReg) s0 = none := by decide +kernel

/-- ExceptionVectors: V13 raises a page fault, V8b's register copy #NM. -/
theorem witness_fault : exec (.movdqaLoad leg0) (s0Rax 0x2000) = .fault (.pf 0 0x2000) ∧
    exec (.movdqaLoad legReg) { s0 with cr0 := s0.cr0 ||| 8 } = .fault .nm ∧
    operandOf (.movdqaLoad legReg) { s0 with cr0 := s0.cr0 ||| 8 } = none := ⟨rfl, rfl, rfl⟩

/-- LegacyLoad, LegacyStore, at the lowest and the highest 16 bytes of a page. -/
theorem witness_leg_memory :
    operandAllowed s0 .read (legAddr s0 leg0 (.base 0 .zero)) 16 (fun _ => true) ∧
    operandAllowed s0 .write (legAddr s0 leg0 (.base 0 .zero)) 16 (fun _ => true) ∧
    operandAllowed (s0Rax 0x3FF0) .write (legAddr (s0Rax 0x3FF0) leg0 (.base 0 .zero)) 16 (fun _ => true) := by
  decide +kernel

/-- VexLoad, VexStore, both lengths. -/
theorem witness_vex_memory (l : Bool) :
    operandAllowed s0 .read (vexAddr s0 vex0 (.base 0 .zero)) (vexLen l).bytes (fun _ => true) ∧
    operandAllowed s0 .write (vexAddr s0 vex0 (.base 0 .zero)) (vexLen l).bytes (fun _ => true) := by
  revert l; decide +kernel

/-- EvexLoad, EvexStore: K[1] = FFH at page 1000H; K[2] = 0 where no byte may be accessed. -/
theorem witness_evex_memory (w : Bool) :
    operandAllowed s0 .read (evexAddr .v512 s0 evexK1 (.base 0 (.d8 0))) 64 (fun i => selects s0 1 (i / evexElem w)) ∧
    operandAllowed s0 .write (evexAddr .v512 s0 evexK1 (.base 0 (.d8 0))) 64 (fun i => selects s0 1 (i / evexElem w)) ∧
    operandAllowed (s0Rax 0x5000) .write (evexAddr .v512 (s0Rax 0x5000) evexK2 (.base 0 .zero)) 64
      (fun i => selects (s0Rax 0x5000) 2 (i / evexElem w)) := by
  revert w; decide +kernel

/-- EmptyMaskOutcomes, each clause: K[2] = 0, aligned, misaligned by one byte, under each value of the parameter. -/
theorem witness_empty_mask :
    (∀ j < VLen.v512.bytes / evexElem false, selects (s0Rax 0x2000) 2 j = false) ∧
    (evexAddr .v512 (s0Rax 0x2000) evexK2 (.base 0 .zero)).toNat % VLen.v512.bytes = 0 ∧
    (evexAddr .v512 (s0Cfg .gp .gp 0x1001) evexK2 (.base 0 .zero)).toNat % VLen.v512.bytes ≠ 0 ∧
    (s0Cfg .gp .gp 0x1001).cfg.zeroMaskAlignFault = .gp ∧
    (s0Cfg .noFault .gp 0x1001).cfg.zeroMaskAlignFault = .noFault := by decide +kernel

/-- SelfCopy, ElementSizeMattersOnlyUnderMask. -/
theorem witness_self_copy :
    (Instr.movdqaStore ⟨[.opSize], true, 15, .reg 15⟩).WellFormed ∧ (Instr.vmovdqaYmmStore vexReg).WellFormed ∧
    (Instr.vmovdqa32XmmLoad ⟨[], 31, .reg 31, 0, false⟩).WellFormed := by decide

/-- LoadReturnsStoredBytes, both clauses: a masked 64-byte store to 3000H (K[1] = FFH: the first 32 bytes), then a legacy
load at offset 16 of stored bytes, and a VEX load at offset 32 of bytes not stored. -/
theorem witness_store_load :
    ∃ t u u' a b b', exec (.vmovdqa32ZmmStore evexK1) (s0Rax 0x3000) = .next t ∧
      operandOf (.vmovdqa32ZmmStore evexK1) (s0Rax 0x3000) = some (.write, a) ∧
      srcOf (.vmovdqa32ZmmStore evexK1) = some 31 ∧
      exec (.movdqaLoad ⟨[.opSize], false, 1, .mem (.base 0 (.d8 16))⟩) t = .next u ∧
      operandOf (.movdqaLoad ⟨[.opSize], false, 1, .mem (.base 0 (.d8 16))⟩) t = some (.read, b) ∧
      destOf (.movdqaLoad ⟨[.opSize], false, 1, .mem (.base 0 (.d8 16))⟩) = some 1 ∧
      b.reaches 15 ∧ a.reaches 31 ∧ (s0Rax 0x3000).bytePa .read b.la 15 = (s0Rax 0x3000).bytePa .write a.la 31 ∧
      exec (.vmovdqaYmmLoad ⟨[], false, 1, .mem (.base 0 (.d8 32))⟩) t = .next u' ∧
      operandOf (.vmovdqaYmmLoad ⟨[], false, 1, .mem (.base 0 (.d8 32))⟩) t = some (.read, b') ∧ b'.reaches 0 ∧
      (∀ p < 64, a.m.getLsbD (p / a.sh.elem) = true →
        (s0Rax 0x3000).bytePa .read b'.la 0 ≠ (s0Rax 0x3000).bytePa .write a.la p) ∧ (s0Rax 0x3000).Inv :=
  ⟨_, _, _, _, _, _, rfl, rfl, rfl, rfl, rfl, rfl, by decide +kernel, by decide +kernel, by decide +kernel, rfl, rfl,
    by decide +kernel, by decide +kernel, s0_inv⟩

/-- UnselectedBytesNotRead: V26's load reads 32 of 64 bytes, so a memory without the other 32 agrees on those read. -/
theorem witness_not_read : ∃ a, operandOf (.vmovdqa32ZmmLoad evexK1) s0 = some (.read, a) ∧
    (∀ b < 64, a.m.getLsbD (b / a.sh.elem) = true →
      (page1 0x1000 32).read (s0.bytePa .read a.la b).toNat = s0.byteAt (s0.bytePa .read a.la b).toNat) ∧
    (page1 0x1000 32).read 0x1020 ≠ s0.byteAt 0x1020 := ⟨_, rfl, by decide +kernel⟩

/-- UnselectedBytesNotTranslated: another table that agrees on page 1000H; for a store, one that also agrees where the
program is fetched (no program is declared). -/
theorem witness_not_translated : (∃ a, operandOf (.vmovdqa32ZmmLoad evexK1) s0 = some (.read, a) ∧
    ∀ b < 64, a.m.getLsbD (b / a.sh.elem) = true →
      { s0 with cpl := 3, pages := [⟨1, .read, 3, .frame 1 .writeBack⟩], pageDefault := .pageFault 4 }.translate
          (byteAddr a.la b) .read =
        s0.translate (byteAddr a.la b) .read) ∧
    (∃ a, operandOf (.vmovdqa32ZmmStore evexK1) { s0 with program := none } = some (.write, a) ∧
      ∀ b < 64, a.m.getLsbD (b / a.sh.elem) = true →
        { s0 with cpl := 3, pages := [⟨1, .write, 3, .frame 1 .writeBack⟩], pageDefault := .pageFault 4 }.translate
            (byteAddr a.la b) .write =
          s0.translate (byteAddr a.la b) .write) ∧
    ∀ x : Word, { s0 with program := none }.inProgram x.toNat ≠ true :=
  ⟨⟨_, rfl, by decide +kernel⟩, ⟨_, rfl, by decide +kernel⟩, fun _ => Bool.false_ne_true⟩

/-- OnlyLowMaskBitsRead: K[7] with other bits above the lowest four. -/
theorem witness_mask_bits : ∀ j < VLen.v128.bytes / evexElem false,
    selects { s0 with k := s0.k.set 7 0xF } 7 j = selects s0 7 j := by decide +kernel

/-- FlagsAndFlatBasesNotRead: every flag but VM set. -/
theorem witness_flags : (0xFFFFFFFFFFFDFFFF : Word).getLsbD 17 = s0.rflags.getLsbD 17 := by decide +kernel

/-- ExecChangesOnlyDestination, each memory clause: V29's masked store, with an address it does not reach and one beyond its
operand; a load, which has no address stored to. -/
theorem witness_frame : s0.Inv ∧
    (∃ a t, operandOf (.vmovdqa32ZmmStore ⟨[], 1, .mem (.base 3 .zero), 4, false⟩) s0 = some (.write, a) ∧
      exec (.vmovdqa32ZmmStore ⟨[], 1, .mem (.base 3 .zero), 4, false⟩) s0 = .next t ∧
      (∀ k < 64, a.m.getLsbD (k / a.sh.elem) = true → 0x3004 ≠ (s0.bytePa .write a.la k).toNat) ∧
      ∀ k < 64, 0x3040 ≠ (s0.bytePa .write a.la k).toNat) ∧
    (∃ a t, operandOf (.movdqaLoad leg0) s0 = some (.read, a) ∧ exec (.movdqaLoad leg0) s0 = .next t) :=
  ⟨s0_inv, ⟨_, _, rfl, rfl, by decide +kernel, by decide +kernel⟩, ⟨_, _, rfl, rfl⟩⟩

/-- UpperBitsByEncodingClass: a row of each class completes. -/
theorem witness_exec_next : (∃ t, exec (legRow true legReg) s0 = .next t) ∧ (∃ t, exec (vexRow true false vexReg) s0 = .next t) ∧
    ∃ t, exec (evexRow true .v512 true evexReg) s0 = .next t := ⟨⟨_, rfl⟩, ⟨_, rfl⟩, ⟨_, rfl⟩⟩

/-- S0 with MOVDQA xmm1, xmm2 (V1) at `rip`. -/
def s0Run : State := { s0 with mem := s0.mem ++ [(0x400000, 0x66), (0x400001, 0x0F), (0x400002, 0x6F), (0x400003, 0xCA)] }

/-- StepRunsDecodedInstruction, StepRunsBytesInMemory. -/
theorem witness_step_runs : s0Run.mode = .mode64 ∧ s0Run.rflags.getLsbD 8 = false ∧
    s0Run.program = some ⟨0x400000, 0x401000⟩ ∧ 0x400000 ≤ s0Run.rip.toNat ∧ s0Run.rip.toNat + 4 ≤ 0x401000 ∧
    decode s0Run.fetchWindow = .insn (.movdqaLoad ⟨[.opSize], false, 1, .reg 2⟩) ∧
    (∀ j < 4, s0Run.translate (byteAddr s0Run.rip j) .fetch = .ok (byteAddr 0x400000 j) .writeBack ∧
      s0Run.translate (byteAddr s0Run.rip j) .read = .ok (byteAddr 0x400000 j) .writeBack ∧
      some (s0Run.byteAt (byteAddr 0x400000 j).toNat) = (encode (.movdqaLoad ⟨[.opSize], false, 1, .reg 2⟩))[j]?) ∧
    s0Run.rip.toNat + 4 < 2 ^ 64 ∧ ∀ j ≤ 4, canonical s0Run.cfg.vaBits (byteAddr s0Run.rip j) = true := by
  decide +kernel

/-- LoadedProgramIsReady: four bytes, from the reset state and from S0. -/
theorem witness_load : State.reset.Inv ∧ s0.Inv ∧ 0 < [0x66, 0x0F, 0x6F, 0xCA].length ∧
    [0x66, 0x0F, 0x6F, 0xCA].length ≤ 4096 ∧ State.reset.rip.toNat + 4 ≤ 2 ^ 64 ∧ s0.rip.toNat + 4 ≤ 2 ^ 64 :=
  ⟨Memory.wf_nil, s0_inv, by decide +kernel⟩

/-- StepKeepsMemoryCanonical, StepKeepsProgramBytes, StepWritesOnlyVectorsMemoryRip, StepKeepsRipCanonical: that step
completes. -/
theorem witness_step_next : s0Run.Inv ∧ (seen (·.rip) (step s0Run)).isSome = true ∧
    s0Run.inProgram 0x400000 = true ∧ s0Run.inProgram 0x400FFF = true :=
  ⟨Memory.wf_of_chain (by decide +kernel) (by decide +kernel), by decide +kernel⟩

/-- StepStopsByName: a state for each clause. -/
theorem witness_step_stops : State.reset.mode ≠ .mode64 ∧ { s0 with rflags := 0x102 }.rflags.getLsbD 8 = true ∧
    { s0 with rip := 0x401000 }.rip.toNat = 0x401000 ∧ s0.rflags.getLsbD 8 = false ∧ s0.rip.toNat ≠ 0x401000 ∧
    decode s0.fetchWindow = .notThisFamily ∧ decode { s0 with pages := [] }.fetchWindow = .truncated ∧
    decode s0Run.fetchWindow = .insn (.movdqaLoad ⟨[.opSize], false, 1, .reg 2⟩) ∧
    { s0Run with program := some ⟨0x400000, 0x400003⟩ }.rip.toNat + 4 > 0x400003 ∧
    { s0Run with program := some ⟨0x400000, 0x400004⟩ }.rip.toNat + 4 = 0x400004 ∧
    canonical .va48 (byteAddr 0x7FFFFFFFFFFC 4) = false ∧ (∀ j ≤ 3, canonical .va48 (byteAddr 0x7FFFFFFFFFFC j) = true) ∧
    decode { s0 with mem := [(0x400000, 0xC5), (0x400001, 0xF5), (0x400002, 0x6F), (0x400003, 0x08)] }.fetchWindow = .ud 4 ∧
    s0.fetchCanonical 4 = true ∧ s0.programHolds 4 = true ∧
    decode { s0 with mem := (List.range 13).map (fun i => (0x400000 + i, 0x66)) ++
      [(0x40000D, 0x0F), (0x40000E, 0x6F), (0x40000F, 0xCA)] }.fetchWindow = .gp0 16 ∧
    s0.fetchCanonical 16 = true ∧ s0.programHolds 16 = true := by decide +kernel

end Sys2Proof.Tests
end

section
/-! SUPPORT. Every instruction as one move: what an instruction that completes has done, said once for all 18 rows. -/

namespace Sys2Proof.Machine

/-! ## A row as a move -/

/-- The two directions of a row (R59): opcode 7FH (`store`) or 6FH. -/
def runMove (mv : Move) (store : Bool) (reg : VReg) (rm : Operand) (s : State) : Out :=
  if store then moveFromReg mv rm reg s else moveToReg mv reg rm s

/-- The memory operand of a move, in the form of `operandOf`. -/
def moveOperand (mv : Move) (store : Bool) (rm : Operand) (s : State) : Option (AccessKind × Access) :=
  match rm with
  | .reg _ => none
  | .mem a => some (rowKind store, s.access mv a)

theorem exec_legRow_eq_runMove (st : Bool) (o : LegOps) (s : State) :
    exec (legRow st o) s = runMove (legMove o s) st o.reg o.rm s := exec_legRow st o s

theorem exec_vexRow_eq_runMove (l st : Bool) (o : VexOps) (s : State) :
    exec (vexRow l st o) s = runMove (vexMove (vexLen l) o s) st o.reg o.rm s := exec_vexRow l st o s

theorem exec_evexRow_eq_runMove (w : Bool) (vl : VLen) (st : Bool) (o : EvexOps) (s : State) :
    exec (evexRow w vl st o) s = runMove (evexMove vl ⟨vl.bytes, evexElem w⟩ st o s) st o.reg o.rm s := by
  rw [exec_evexRow]; cases st <;> rfl

/-! ## The operands of a row -/

theorem destOf_legRow (st : Bool) (o : LegOps) :
    destOf (legRow st o) = destReg st o.reg o.rm := by cases st <;> rfl

theorem destOf_vexRow (l st : Bool) (o : VexOps) :
    destOf (vexRow l st o) = destReg st o.reg o.rm := by cases l <;> cases st <;> rfl

theorem destOf_evexRow (w : Bool) (vl : VLen) (st : Bool) (o : EvexOps) :
    destOf (evexRow w vl st o) = destReg st o.reg o.rm := by cases w <;> cases vl <;> cases st <;> rfl

theorem srcOf_legRow (st : Bool) (o : LegOps) :
    srcOf (legRow st o) = srcReg st o.reg o.rm := by cases st <;> rfl

theorem srcOf_vexRow (l st : Bool) (o : VexOps) :
    srcOf (vexRow l st o) = srcReg st o.reg o.rm := by cases l <;> cases st <;> rfl

theorem srcOf_evexRow (w : Bool) (vl : VLen) (st : Bool) (o : EvexOps) :
    srcOf (evexRow w vl st o) = srcReg st o.reg o.rm := by cases w <;> cases vl <;> cases st <;> rfl

theorem operandOf_legRow (st : Bool) (o : LegOps) (s : State) :
    operandOf (legRow st o) s = moveOperand (legMove o s) st o.rm s := by
  cases st <;> rfl

theorem operandOf_vexRow (l st : Bool) (o : VexOps) (s : State) :
    operandOf (vexRow l st o) s = moveOperand (vexMove (vexLen l) o s) st o.rm s := by
  cases l <;> cases st <;> rfl

theorem operandOf_evexRow (w : Bool) (vl : VLen) (st : Bool) (o : EvexOps) (s : State) :
    operandOf (evexRow w vl st o) s = moveOperand (evexMove vl ⟨vl.bytes, evexElem w⟩ st o s) st o.rm s := by
  cases w <;> cases vl <;> cases st <;> rfl

/-- Every instruction is a move of its length, between the operands that `destOf`, `srcOf` and `operandOf` name. -/
theorem exec_eq_runMove (i : Instr) (s : State) : ∃ mv store reg rm,
    exec i s = runMove mv store reg rm s ∧ mv.len = i.len ∧ destOf i = destReg store reg rm ∧
      srcOf i = srcReg store reg rm ∧ operandOf i s = moveOperand mv store rm s := by
  obtain ⟨st, o, rfl⟩ | ⟨l, st, o, rfl⟩ | ⟨w, vl, st, o, rfl⟩ := Instr.row_cases i
  · exact ⟨_, _, _, _, exec_legRow_eq_runMove st o s, (legRow_len st o).symm, destOf_legRow st o, srcOf_legRow st o,
      operandOf_legRow st o s⟩
  · exact ⟨_, _, _, _, exec_vexRow_eq_runMove l st o s, (vexRow_len l st o).symm, destOf_vexRow l st o,
      srcOf_vexRow l st o, operandOf_vexRow l st o s⟩
  · exact ⟨_, _, _, _, exec_evexRow_eq_runMove w vl st o s, (evexRow_len w vl st o).symm, destOf_evexRow w vl st o,
      srcOf_evexRow w vl st o, operandOf_evexRow w vl st o s⟩

/-! ## What a move does first, and what it has done when it completes -/

/-- A failing #UD test is the first thing that happens (R140 item 2). -/
theorem runMove_ud {mv : Move} {store : Bool} {reg : VReg} {rm : Operand} {s : State} (h : mv.ud = true) :
    runMove mv store reg rm s = .fault .ud := by
  cases store with
  | false => exact moveToReg_ud h
  | true => exact moveFromReg_ud h

/-- Everything a move that completes has done: a register copy, a load or a store. -/
theorem runMove_next {mv : Move} {store : Bool} {reg : VReg} {rm : Operand} {s t : State}
    (h : runMove mv store reg rm s = .next t) :
    (∃ n d r, rm = .reg n ∧ destReg store reg rm = some d ∧ srcReg store reg rm = some r ∧
      t = (s.setVec d (mv.result (s.vec r) (s.vec d))).retire mv.len) ∨
    (∃ a, rm = .mem a ∧ store = false ∧ s.accessCheck .read (s.access mv a) = none ∧
      t = ((s.setVec reg (mv.result (s.loadOperand (s.access mv a)) (s.vec reg))).advanceChoice
        (s.access mv a)).retire mv.len) ∨
    (∃ a, rm = .mem a ∧ store = true ∧ s.accessCheck .write (s.access mv a) = none ∧
      t = ((s.storeOperand (s.access mv a) (s.vec reg)).advanceChoice (s.access mv a)).retire mv.len) := by
  cases store with
  | false =>
    obtain ⟨-, -, -, ⟨r, rfl, ht⟩ | ⟨a, rfl, hc, ht⟩⟩ := moveToReg_next h
    · exact .inl ⟨r, reg, r, rfl, rfl, rfl, ht⟩
    · exact .inr (.inl ⟨a, rfl, rfl, hc, ht⟩)
  | true =>
    obtain ⟨-, -, -, ⟨d, rfl, ht⟩ | ⟨a, rfl, hc, ht⟩⟩ := moveFromReg_next h
    · exact .inl ⟨d, d, reg, rfl, rfl, rfl, ht⟩
    · exact .inr (.inr ⟨a, rfl, rfl, hc, ht⟩)

/-- Using up an open choice changes the counter only. -/
theorem State.advanceChoice_eq (s : State) (a : Access) :
    s.advanceChoice a = { s with freeCtr := (s.advanceChoice a).freeCtr } := by
  unfold State.advanceChoice; split <;> rfl

section
variable {mv : Move} {store : Bool} {reg : VReg} {rm : Operand} {s t : State} (h : runMove mv store reg rm s = .next t)
include h

/-- The fields a completed move leaves, and the instruction pointer (R11). -/
theorem runMove_next_frame :
    t = { s with zmm := t.zmm, mem := t.mem, rip := s.rip + BitVec.ofNat 64 mv.len, freeCtr := t.freeCtr } := by
  obtain ⟨_, d, r, -, -, -, rfl⟩ | ⟨a, -, -, -, rfl⟩ | ⟨a, -, -, -, rfl⟩ := runMove_next h
  · rfl
  · rw [State.advanceChoice_eq]; rfl
  · rw [State.advanceChoice_eq]; rfl

/-- A destination register holds the move's result for some source value (R22). -/
theorem runMove_next_dest {d : VReg} (hd : destReg store reg rm = some d) :
    ∃ src, t.vec d = mv.result src (s.vec d) := by
  obtain ⟨_, d', r, -, hd', -, rfl⟩ | ⟨a, rfl, rfl, -, rfl⟩ | ⟨a, rfl, rfl, -, rfl⟩ := runMove_next h
  · obtain rfl : d' = d := Option.some.inj (hd'.symm.trans hd)
    exact ⟨s.vec r, by simp⟩
  · obtain rfl : reg = d := Option.some.inj hd
    exact ⟨s.loadOperand (s.access mv a), by simp⟩
  · exact absurd hd (by simp [destReg])

/-- Every vector register but the destination is unchanged (R22). -/
theorem runMove_next_other {n : VReg} (hn : destReg store reg rm ≠ some n) : t.vec n = s.vec n := by
  obtain ⟨_, d, r, -, hd, -, rfl⟩ | ⟨a, rfl, rfl, -, rfl⟩ | ⟨a, -, -, -, rfl⟩ := runMove_next h
  · simpa using State.vec_setVec_other s d n _ fun e => hn (e ▸ hd)
  · simpa using State.vec_setVec_other s reg n _ fun e => hn (by rw [e]; rfl)
  · simp

/-- A move without a memory destination leaves memory as it was. -/
theorem runMove_next_mem (hm : ∀ a, moveOperand mv store rm s ≠ some (.write, a)) : t.mem = s.mem := by
  obtain ⟨_, d, r, -, -, -, rfl⟩ | ⟨a, -, -, -, rfl⟩ | ⟨a, rfl, rfl, -, -⟩ := runMove_next h
  · simp
  · simp
  · exact absurd rfl (hm (s.access mv a))

/-- A byte that no selected element of a memory destination covers reads as before (R36). -/
theorem runMove_next_byteAt (hs : s.Inv) {b : Nat}
    (hb : ∀ a, moveOperand mv store rm s = some (.write, a) → ∀ k, a.reaches k → b ≠ (s.bytePa .write a.la k).toNat) :
    t.byteAt b = s.byteAt b := by
  obtain ⟨_, d, r, -, -, -, rfl⟩ | ⟨a, -, -, -, rfl⟩ | ⟨a, rfl, rfl, -, rfl⟩ := runMove_next h
  · rfl
  · simp [State.byteAt]
  · have hout : ∀ k < (s.access mv a).sh.bytes, (s.access mv a).byteSelected k = true →
        b ≠ (s.bytePa .write (s.access mv a).la k).toNat :=
      fun k _ hk => hb _ rfl k (Access.byteSelected_iff.1 hk)
    simpa [State.byteAt] using Memory.read_writeBytes_other hs _ _ _ _ hout

end

/-- What an instruction that completes leaves of the state, memory canonical or not. -/
theorem exec_next_frame {i : Instr} {s t : State} (h : exec i s = .next t) :
    t = { s with zmm := t.zmm, mem := t.mem, rip := s.rip + BitVec.ofNat 64 i.len, freeCtr := t.freeCtr } := by
  obtain ⟨mv, st, reg, rm, he, hl, -⟩ := exec_eq_runMove i s
  rw [← hl]
  exact runMove_next_frame (he ▸ h)

end Sys2Proof.Machine
end

section
/-! SUPPORT. The decoder on an encoding, whatever its prefixes, and what an instruction the decoder answers looks like. -/

namespace Sys2Proof

/-! ## The format bytes and their fields -/

/-- The register-extension bits of a REX byte, `W` = 0 (R52). -/
def rexBits (r x b : Bool) : BitVec 4 :=
  BitVec.ofBool false ++ (BitVec.ofBool r ++ (BitVec.ofBool x ++ BitVec.ofBool b))

theorem rexBits_fields (r x b : Bool) : (rexBits r x b).getLsbD 2 = r ∧ (rexBits r x b).getLsbD 1 = x ∧
    (rexBits r x b).getLsbD 0 = b := by
  revert r x b; decide

/-- The VEX byte with `vvvv` = 1111b, `L` and `pp` = 01b; bit 7 is `R` or `W` (R54, R55). -/
def vexLast (top l : Bool) : Byte := BitVec.ofBool top ++ (0xF#4 ++ (BitVec.ofBool l ++ 1#2))

theorem vexLast_fields (top l : Bool) : (vexLast top l).extractLsb' 0 2 = 1#2 ∧
    (vexLast top l).extractLsb' 3 4 = 0xF#4 ∧ (vexLast top l).getLsbD 2 = l ∧ (vexLast top l).getLsbD 7 = top := by
  revert top l; decide

/-- The byte after C4H, for map 0F (R54). -/
def vexFirst (r x b : Bool) : Byte := BitVec.ofBool r ++ (BitVec.ofBool x ++ (BitVec.ofBool b ++ 1#5))

theorem vexFirst_fields (r x b : Bool) : (vexFirst r x b).extractLsb' 0 5 = 1#5 ∧ (vexFirst r x b).getLsbD 7 = r ∧
    (vexFirst r x b).getLsbD 6 = x ∧ (vexFirst r x b).getLsbD 5 = b := by
  revert r x b; decide

/-- `P0` of EVEX, for map 0F (R56). -/
def evexP0 (r x b r' : Bool) : Byte :=
  BitVec.ofBool r ++ (BitVec.ofBool x ++ (BitVec.ofBool b ++ (BitVec.ofBool r' ++ 1#4)))

theorem evexP0_fields (r x b r' : Bool) : (evexP0 r x b r').extractLsb' 2 2 = 0#2 ∧
    (evexP0 r x b r').extractLsb' 0 2 = 1#2 ∧ (evexP0 r x b r').getLsbD 7 = r ∧ (evexP0 r x b r').getLsbD 6 = x ∧
    (evexP0 r x b r').getLsbD 5 = b ∧ (evexP0 r x b r').getLsbD 4 = r' := by
  revert r x b r'; decide

/-- `P1` of EVEX, with `vvvv` = 1111b and `pp` = 01b (R56). -/
def evexP1 (w : Bool) : Byte := BitVec.ofBool w ++ (0xF#4 ++ (1#1 ++ 1#2))

theorem evexP1_fields (w : Bool) : (evexP1 w).getLsbD 2 = true ∧ (evexP1 w).extractLsb' 0 2 = 1#2 ∧
    (evexP1 w).extractLsb' 3 4 = 0xF#4 ∧ (evexP1 w).getLsbD 7 = w := by
  revert w; decide

/-- `P2` of EVEX, with `b` = 0 and `V'` = 1 (R56, R58). -/
def evexP2 (z : Bool) (ll : BitVec 2) (aaa : KReg) : Byte := BitVec.ofBool z ++ (ll ++ (0#1 ++ (1#1 ++ aaa)))

theorem evexP2_fields (z : Bool) (ll : BitVec 2) (aaa : KReg) : (evexP2 z ll aaa).getLsbD 3 = true ∧
    (evexP2 z ll aaa).getLsbD 4 = false ∧ (evexP2 z ll aaa).extractLsb' 5 2 = ll ∧ (evexP2 z ll aaa).getLsbD 7 = z ∧
    (evexP2 z ll aaa).extractLsb' 0 3 = aaa := by
  revert z ll aaa; decide

theorem evexLen_field (vl : VLen) : evexLen vl.field = some vl := by cases vl <;> rfl

theorem VLen.field_ne_three (vl : VLen) : vl.field ≠ 3#2 := by cases vl <;> decide

theorem opcodeStore_opcodeByte (st : Bool) : opcodeStore (opcodeByte st) = some st := by cases st <;> rfl

/-! ## Reading an encoding -/

/-- The bytes a legacy encoding has before its escape byte, REX included, as the scan of prefixes names them. -/
def LegOps.scanned (o : LegOps) : List Prefix :=
  o.pre ++ (if o.rex then [.rex (rexBits (o.reg.getLsbD 3) o.rm.extX o.rm.extB)] else [])

theorem encodeLeg_eq (st : Bool) (o : LegOps) : encodeLeg st o =
    o.scanned.map Prefix.byte ++ 0x0F :: opcodeByte st :: o.rm.bytes (o.reg.extractLsb' 0 3) := by
  cases h : o.rex <;> simp [encodeLeg, LegOps.scanned, LegOps.rexByte, rexBits, Prefix.byte, h]

theorem LegOps.length_scanned (o : LegOps) : o.scanned.length = o.pre.length + if o.rex then 1 else 0 := by
  cases h : o.rex <;> simp [LegOps.scanned, h]

theorem LegOps.contains_scanned (o : LegOps) {p : Prefix} (hp : ∀ w, p ≠ .rex w) :
    o.scanned.contains p = o.pre.contains p := by
  cases h : o.rex <;> simp [LegOps.scanned, h, hp]

/-- Where REX is absent, no register-extension bit is needed and no other byte is taken for REX (R52). -/
abbrev LegOps.rexFits (o : LegOps) : Prop :=
  o.rex = false → endsInRex o.pre = false ∧ o.reg.getLsbD 3 = false ∧ o.rm.extX = false ∧ o.rm.extB = false

/-- The REX byte of an encoding is split off its other prefixes. -/
theorem LegOps.splitRex_scanned {o : LegOps} (h : o.rexFits) : (splitRex o.scanned).1 = o.pre ∧
    (splitRex o.scanned).2.isSome = o.rex ∧ ((splitRex o.scanned).2.getD 0).getLsbD 2 = o.reg.getLsbD 3 ∧
    ((splitRex o.scanned).2.getD 0).getLsbD 1 = o.rm.extX ∧ ((splitRex o.scanned).2.getD 0).getLsbD 0 = o.rm.extB := by
  cases hr : o.rex with
  | true =>
    simp only [LegOps.scanned, hr, if_true, splitRex_concat, Option.isSome_some, Option.getD_some, true_and]
    exact rexBits_fields _ _ _
  | false =>
    obtain ⟨h1, h2, h3, h4⟩ := h hr
    simp [LegOps.scanned, hr, splitRex_of_not_rex h1, h2, h3, h4, -BitVec.getLsbD_eq_getElem]

/-- What the decoder answers on a legacy encoding with any prefixes that leave it MOVDQA (R71). -/
theorem decode_encodeLeg (st : Bool) (o : LegOps) (rest : List Byte) (h66 : Prefix.opSize ∈ o.pre)
    (hF2 : Prefix.repne ∉ o.pre) (hF3 : Prefix.rep ∉ o.pre) (hrex : o.rexFits) (hreg : o.reg.getLsbD 4 = false)
    (hlow : o.rm.regBelow16) (hrm : o.rm.WellFormed) :
    decode (encodeLeg st o ++ rest) = conclude o.len (o.pre.contains .lock) (some (legRow st o)) := by
  obtain ⟨e1, e2, e3, e4, e5⟩ := LegOps.splitRex_scanned hrex
  have hparse := parseOperand_bytes o.rm (o.reg.extractLsb' 0 3) false rest hrm
    fun n e => by rw [e] at hlow; exact hlow.symm
  have hops : legOps o.scanned (o.reg.extractLsb' 0 3) o.rm = o := by
    simp only [legOps, e1, e2, e3, ext5_low o.reg hreg]
  rw [encodeLeg_eq, List.append_assoc, List.cons_append, decode_prefixes _ _ (opcodeStart_not_prefix (by simp))]
  simp only [decodeOpcode, if_true, decodeLeg, List.cons_append, opcodeStore_opcodeByte,
    o.contains_scanned (p := .rep) (by simp), o.contains_scanned (p := .repne) (by simp),
    o.contains_scanned (p := .opSize) (by simp), o.contains_scanned (p := .lock) (by simp), e4, e5, hparse, hops]
  simp [h66, hF2, hF3, o.length_scanned, LegOps.len]

/-- What the decoder answers on a VEX encoding with any prefixes (R70). -/
theorem decode_encodeVex (l st : Bool) (o : VexOps) (rest : List Byte)
    (hthree : o.three = false → o.rm.extX = false ∧ o.rm.extB = false) (hreg : o.reg.getLsbD 4 = false)
    (hlow : o.rm.regBelow16) (hrm : o.rm.WellFormed) :
    decode (encodeVex l st o ++ rest) = conclude o.len (forbiddenBeforeVex o.pre) (some (vexRow l st o)) := by
  have hparse := parseOperand_bytes o.rm (o.reg.extractLsb' 0 3) false rest hrm
    fun n e => by rw [e] at hlow; exact hlow.symm
  have hvex : ∀ top, decodeVex o.pre o.three (o.reg.getLsbD 3) o.rm.extX o.rm.extB (vexLast top l) (opcodeByte st)
      (o.rm.bytes (o.reg.extractLsb' 0 3) ++ rest) =
        conclude o.len (forbiddenBeforeVex o.pre) (some (vexRow l st o)) := fun top => by
    simp [decodeVex, opcodeStore_opcodeByte, vexLast_fields, hparse, ext5_low o.reg hreg, VexOps.len,
      -BitVec.getLsbD_eq_getElem]
  cases ht : o.three with
  | true =>
    have henc : encodeVex l st o ++ rest = o.pre.map Prefix.byte ++ 0xC4 ::
        vexFirst (!o.reg.getLsbD 3) (!o.rm.extX) (!o.rm.extB) :: vexLast false l :: opcodeByte st ::
          (o.rm.bytes (o.reg.extractLsb' 0 3) ++ rest) := by
      simp [encodeVex, ht, vexFirst, vexLast]
    rw [henc, decode_prefixes _ _ (opcodeStart_not_prefix (by simp)), ← hvex false, ht]
    simp [decodeOpcode, decodeVex3, vexFirst_fields, -BitVec.getLsbD_eq_getElem]
  | false =>
    obtain ⟨hx, hb⟩ := hthree ht
    have henc : encodeVex l st o ++ rest = o.pre.map Prefix.byte ++ 0xC5 :: vexLast (!o.reg.getLsbD 3) l ::
        opcodeByte st :: (o.rm.bytes (o.reg.extractLsb' 0 3) ++ rest) := by
      simp [encodeVex, ht, vexLast]
    rw [henc, decode_prefixes _ _ (opcodeStart_not_prefix (by simp)), ← hvex (!o.reg.getLsbD 3), ht, hx, hb]
    simp [decodeOpcode, decodeVex2, vexLast_fields, -BitVec.getLsbD_eq_getElem]

/-- What the decoder answers on an EVEX encoding with any prefixes (R69). -/
theorem decode_encodeEvex (w : Bool) (vl : VLen) (st : Bool) (o : EvexOps) (rest : List Byte)
    (hz : o.z = true → o.aaa ≠ 0 ∧ (st = true → o.rm.isMem = false)) (hrm : o.rm.WellFormed) :
    decode (encodeEvex w vl st o ++ rest) =
      conclude o.len (forbiddenBeforeVex o.pre) (some (evexRow w vl st o)) := by
  have hparse := parseOperand_bytes o.rm (o.reg.extractLsb' 0 3) o.rm.extX rest hrm fun n e => by rw [e]; rfl
  have henc : encodeEvex w vl st o ++ rest = o.pre.map Prefix.byte ++ 0x62 ::
      evexP0 (!o.reg.getLsbD 3) (!o.rm.extX) (!o.rm.extB) (!o.reg.getLsbD 4) :: evexP1 w ::
        evexP2 o.z vl.field o.aaa :: opcodeByte st :: (o.rm.bytes (o.reg.extractLsb' 0 3) ++ rest) := by
    simp [encodeEvex, evexP0, evexP1, evexP2]
  have hst : (some st == some true) = st := by cases st <;> rfl
  have hfixed : evexFixedBad (evexP0 (!o.reg.getLsbD 3) (!o.rm.extX) (!o.rm.extB) (!o.reg.getLsbD 4)) (evexP1 w) =
      false := by simp [evexFixedBad, evexP0_fields, evexP1_fields, -BitVec.getLsbD_eq_getElem]
  have hmask : (o.z && o.aaa == 0#3) = false ∧ (o.z && st && o.rm.isMem) = false := by
    cases hz' : o.z with
    | false => exact ⟨rfl, rfl⟩
    | true =>
      obtain ⟨h1, h2⟩ := hz hz'
      exact ⟨by simpa using h1, by cases st <;> simp [h2]⟩
  have hud : evexPrefixUd o.pre (evexP1 w) (evexP2 o.z vl.field o.aaa) = forbiddenBeforeVex o.pre := by
    simp [evexPrefixUd, evexP1_fields, evexP2_fields, vl.field_ne_three, hmask.1, -BitVec.getLsbD_eq_getElem]
  rw [henc, decode_prefixes _ _ (opcodeStart_not_prefix (by simp))]
  simp only [decodeOpcode, decodeEvex, hfixed, hst, hud, hparse, evexP0_fields, evexP1_fields, evexP2_fields,
    evexLen_field, opcodeStore_opcodeByte, Bool.not_not, ext5_split, Option.map_some, hmask.2]
  simp [EvexOps.len]

/-- A well-formed instruction is read back from its encoding, whatever bytes follow (R78). -/
theorem decode_encode_append (i : Instr) (rest : List Byte) (h : i.WellFormed) :
    decode (encode i ++ rest) = .insn i := by
  obtain ⟨st, o, rfl⟩ | ⟨l, st, o, rfl⟩ | ⟨w, vl, st, o, rfl⟩ := Machine.Instr.row_cases i
  · obtain ⟨h66, hF2, hF3, hlock, hrex, hreg, hlow, hrm, hlen⟩ := (legRow_wellFormed st o).1 h
    rw [encode_legRow, decode_encodeLeg st o rest h66 hF2 hF3 hrex hreg hlow hrm,
      show o.pre.contains .lock = false by simpa using hlock, conclude_of_le hlen]
  · obtain ⟨hpre, hthree, hreg, hlow, hrm, hlen⟩ := (vexRow_wellFormed l st o).1 h
    rw [encode_vexRow, decode_encodeVex l st o rest hthree hreg hlow hrm, hpre, conclude_of_le hlen]
  · obtain ⟨hpre, hz, hrm, hlen⟩ := (evexRow_wellFormed w vl st o).1 h
    rw [encode_evexRow, decode_encodeEvex w vl st o rest hz hrm, hpre, conclude_of_le hlen]

end Sys2Proof
end

section
/-! SUPPORT. What the decoder accepts, and when a step runs an instruction. -/

namespace Sys2Proof

/-! ## What an instruction the decoder answers looks like -/

/-- The length of a decoded legacy instruction counts every byte before its escape byte (R73, log 8). -/
theorem legOps_len (ps : List Prefix) (reg3 : BitVec 3) (rm : Operand) :
    (legOps ps reg3 rm).len = ps.length + 2 + rm.size := by
  obtain ⟨h, -⟩ | ⟨qs, w, rfl, h⟩ := splitRex_cases ps <;> simp [LegOps.len, legOps, h]

theorem decodeLeg_insn {ps : List Prefix} {bs : List Byte} {i : Instr} (h : decodeLeg ps bs = .insn i) :
    ∃ op tail st reg3 rm, bs = op :: tail ∧ opcodeStore op = some st ∧ Prefix.opSize ∈ ps ∧ Prefix.repne ∉ ps ∧
      Prefix.rep ∉ ps ∧ Prefix.lock ∉ ps ∧ parseOperand (((splitRex ps).2.getD 0).getLsbD 1)
        (((splitRex ps).2.getD 0).getLsbD 0) false tail = some (reg3, rm) ∧ ps.length + 2 + rm.size ≤ 15 ∧
      i = legRow st (legOps ps reg3 rm) := by
  match bs, h with
  | op :: tail, h =>
    simp only [decodeLeg] at h
    split at h
    · simp at h
    next st hop =>
    split at h
    · simp at h
    next hpre =>
    split at h
    · simp at h
    next reg3 rm hparse =>
    obtain ⟨hlen, hlock, hi⟩ := conclude_insn h
    simp only [Bool.or_eq_true, List.contains_iff_mem, Bool.not_eq_true', not_or, Bool.not_eq_false] at hpre
    obtain ⟨⟨hrep, hrepne⟩, h66⟩ := hpre
    exact ⟨op, tail, st, reg3, rm, rfl, hop, by simpa using h66, hrepne, hrep, by simpa using hlock, hparse, hlen,
      (Option.some.inj hi).symm⟩

theorem decodeVex_insn {ps : List Prefix} {three r x b : Bool} {last op : Byte} {bs : List Byte} {i : Instr}
    (h : decodeVex ps three r x b last op bs = .insn i) : ∃ st reg3 rm, opcodeStore op = some st ∧
      parseOperand x b false bs = some (reg3, rm) ∧ forbiddenBeforeVex ps = false ∧
      ps.length + (if three then 4 else 3) + rm.size ≤ 15 ∧
      i = vexRow (last.getLsbD 2) st ⟨ps, three, ext5 false r reg3, rm⟩ := by
  unfold decodeVex at h
  split at h
  · simp at h
  next st hop =>
  split at h
  · simp at h
  split at h
  · simp at h
  next reg3 rm hparse =>
  obtain ⟨hlen, hud, hi⟩ := conclude_insn h
  exact ⟨st, reg3, rm, hop, hparse, (Bool.or_eq_false_iff.1 hud).1, hlen, (Option.some.inj hi).symm⟩

theorem decodeVex2_insn {ps : List Prefix} {bs : List Byte} {i : Instr} (h : decodeVex2 ps bs = .insn i) :
    ∃ p op tail, bs = p :: op :: tail ∧ decodeVex ps false (!p.getLsbD 7) false false p op tail = .insn i := by
  unfold decodeVex2 at h
  split at h
  · exact ⟨_, _, _, rfl, h⟩
  · simp at h

theorem decodeVex3_insn {ps : List Prefix} {bs : List Byte} {i : Instr} (h : decodeVex3 ps bs = .insn i) :
    ∃ p1 p2 op tail, bs = p1 :: p2 :: op :: tail ∧
      decodeVex ps true (!p1.getLsbD 7) (!p1.getLsbD 6) (!p1.getLsbD 5) p2 op tail = .insn i := by
  unfold decodeVex3 at h
  split at h
  · split at h
    · simp at h
    · exact ⟨_, _, _, _, rfl, h⟩
  · simp at h

theorem decodeEvex_insn {ps : List Prefix} {bs : List Byte} {i : Instr} (h : decodeEvex ps bs = .insn i) :
    ∃ p0 p1 p2 op tail reg3 rm vl, bs = p0 :: p1 :: p2 :: op :: tail ∧
      parseOperand (!p0.getLsbD 6) (!p0.getLsbD 5) (!p0.getLsbD 6) tail = some (reg3, rm) ∧
      evexPrefixUd ps p1 p2 = false ∧ (p2.getLsbD 7 && (opcodeStore op == some true) && rm.isMem) = false ∧
      ps.length + 5 + rm.size ≤ 15 ∧
      i = evexRow (p1.getLsbD 7) vl (opcodeStore op == some true)
        ⟨ps, ext5 (!p0.getLsbD 4) (!p0.getLsbD 7) reg3, rm, p2.extractLsb' 0 3, p2.getLsbD 7⟩ := by
  unfold decodeEvex at h
  split at h
  · split at h
    · simp at h
    split at h
    · simp at h
    next reg3 rm hparse =>
    obtain ⟨hlen, hud, hi⟩ := conclude_insn h
    obtain ⟨hud, hz⟩ := Bool.or_eq_false_iff.1 hud
    obtain ⟨vl, -, hi⟩ := Option.map_eq_some_iff.1 hi
    exact ⟨_, _, _, _, _, reg3, rm, vl, rfl, hparse, (Bool.or_eq_false_iff.1 hud).2, hz, hlen, hi.symm⟩
  · simp at h

/-- The format of a decoded instruction, by the byte after its prefixes (R78 step 2). -/
theorem decodeOpcode_insn {ps : List Prefix} {bs : List Byte} {i : Instr} (h : decodeOpcode ps bs = .insn i) :
    ∃ b tail, bs = b :: tail ∧
      (b = 0x0F ∧ decodeLeg ps tail = .insn i ∨ b = 0xC5 ∧ decodeVex2 ps tail = .insn i ∨
        b = 0xC4 ∧ decodeVex3 ps tail = .insn i ∨ b = 0x62 ∧ decodeEvex ps tail = .insn i) := by
  match bs, h with
  | b :: tail, h =>
    refine ⟨b, tail, rfl, ?_⟩
    simp only [decodeOpcode] at h
    split_ifs at h with h1 h2 h3 h4
    · exact .inl ⟨h1, h⟩
    · exact .inr (.inl ⟨h2, h⟩)
    · exact .inr (.inr (.inl ⟨h3, h⟩))
    · exact .inr (.inr (.inr ⟨h4, h⟩))

/-- A decoded instruction is 4 to 15 bytes long (R50, R73). -/
theorem decode_insn_len {bs : List Byte} {i : Instr} (h : decode bs = .insn i) : 4 ≤ i.len ∧ i.len ≤ 15 := by
  have hvex : ∀ {ps three r x b last op tail}, decodeVex ps three r x b last op tail = .insn i →
      4 ≤ i.len ∧ i.len ≤ 15 := fun hv => by
    obtain ⟨st, reg3, rm, -, -, -, hlen, rfl⟩ := decodeVex_insn hv
    rw [vexRow_len]
    refine ⟨?_, hlen⟩
    have := rm.size_pos
    unfold VexOps.len
    split <;> simp only <;> omega
  obtain ⟨_, tail, -, ⟨-, hd⟩ | ⟨-, hd⟩ | ⟨-, hd⟩ | ⟨-, hd⟩⟩ := decodeOpcode_insn h
  · obtain ⟨_, _, st, reg3, rm, -, -, h66, -, -, -, -, hlen, rfl⟩ := decodeLeg_insn hd
    rw [legRow_len, legOps_len]
    have := rm.size_pos
    have := List.length_pos_of_mem h66
    exact ⟨by omega, hlen⟩
  · obtain ⟨_, _, _, -, hv⟩ := decodeVex2_insn hd
    exact hvex hv
  · obtain ⟨_, _, _, _, -, hv⟩ := decodeVex3_insn hd
    exact hvex hv
  · obtain ⟨_, _, _, _, _, reg3, rm, vl, -, -, -, -, hlen, rfl⟩ := decodeEvex_insn hd
    rw [evexRow_len]
    have := rm.size_pos
    exact ⟨by simp only [EvexOps.len]; omega, hlen⟩

theorem Instr.len_pos (i : Instr) : 0 < i.len := by
  obtain ⟨st, o, rfl⟩ | ⟨l, st, o, rfl⟩ | ⟨w, vl, st, o, rfl⟩ := Machine.Instr.row_cases i
  · rw [legRow_len]; unfold LegOps.len; omega
  · rw [vexRow_len]; unfold VexOps.len; split <;> omega
  · rw [evexRow_len]; unfold EvexOps.len; omega

end Sys2Proof

namespace Sys2Proof.Machine

/-! ## A step that runs an instruction -/

/-- Where the declared program holds `n` bytes from `rip`, the run has not ended (R165). -/
theorem State.atEnd_of_programHolds {s : State} {n : Nat} (hn : 0 < n) (h : s.programHolds n = true) :
    s.atEnd = false := by
  obtain ⟨p, hp, -, hstop⟩ := State.programHolds_iff.1 h
  rw [← Bool.not_eq_true, State.atEnd_iff]
  rintro ⟨q, hq, hend⟩
  obtain rfl : p = q := Option.some.inj (hp.symm.trans hq)
  omega

/-- A step whose tests pass is `exec` of the decoded instruction (R78, R165). -/
theorem step_eq_exec {s : State} {i : Instr} (hm : s.mode = .mode64) (htf : s.flagTf = false)
    (hd : decode s.fetchWindow = .insn i) (hc : s.fetchCanonical i.len = true) (hp : s.programHolds i.len = true) :
    step s = exec i s := by
  simp [step, hm, htf, State.atEnd_of_programHolds i.len_pos hp, hd, State.fetched, hc, hp]

/-- A byte of ordinary memory that a fetch and a read both reach is fetched (R166 (c)). -/
theorem State.fetchByte_of_translate {s : State} {a : Nat} {pa : Word} (ha : a < 2 ^ 64)
    (hf : s.translate (BitVec.ofNat 64 a) .fetch = .ok pa .writeBack)
    (hr : s.translate (BitVec.ofNat 64 a) .read = .ok pa .writeBack) : s.fetchByte a = some (s.byteAt pa.toNat) := by
  simp only [State.fetchByte, if_pos ha, hf, if_pos hr, State.byteAt]

theorem ofNat_toNat_add (a : Word) (j : Nat) : BitVec.ofNat 64 (a.toNat + j) = byteAddr a j := by
  simp [byteAddr, BitVec.ofNat_add]

/-- Where the bytes of a well-formed instruction are fetched from `rip` on, a step decodes that instruction. -/
theorem decode_fetchWindow_of_encode {s : State} {i : Instr} (hw : i.WellFormed)
    (h : ∀ j < i.len, s.fetchByte (s.rip.toNat + j) = (encode i)[j]?) : decode s.fetchWindow = .insn i := by
  have hlen : i.len ≤ s.fetchFuel := by
    have := (decode_insn_len (decode_encode_append i [] hw)).2
    unfold State.fetchFuel
    omega
  obtain ⟨n, hn⟩ := Nat.exists_eq_add_of_le hlen
  have hbytes : s.fetchWindow = encode i ++ s.fetchBytes n (s.rip.toNat + (encode i).length) := by
    rw [State.fetchWindow, hn, ← i.length_encode]
    exact State.fetchBytes_of_bytes n (by simpa only [i.length_encode] using h)
  rw [hbytes, decode_encode_append i _ hw]

end Sys2Proof.Machine
end

section
/-! SUPPORT. Register results by class, and what a move does not depend on. -/

namespace Sys2Proof.Machine

/-! ## The bits above an operand (R22) -/

/-- A legacy result keeps bits 511:128. -/
theorem result_leg_upper (o : LegOps) (s : State) (src old : Vec) :
    ((legMove o s).result src old).extractLsb' 128 384 = old.extractLsb' 128 384 := by
  ext b hb
  simp only [BitVec.getElem_extractLsb']
  rw [getLsbD_result_leg o s src old (by omega), if_neg (by omega)]

/-- A VEX result is 0 above VL. -/
theorem result_vex_upper (vl : VLen) (o : VexOps) (s : State) (src old : Vec) (n : Nat) :
    ((vexMove vl o s).result src old).extractLsb' (8 * vl.bytes) n = 0 := by
  ext b hb
  simp [getLsbD_result_vex]

/-- The shape of an EVEX operand fills the vector length and fits a vector register. -/
theorem evexShape_fits (w : Bool) (vl : VLen) : 0 < evexElem w ∧
    evexElem w * (vl.bytes / evexElem w) = vl.bytes ∧ vl.bytes ≤ 64 ∧ vl.bytes / evexElem w ≤ 16 := by
  cases w <;> cases vl <;> decide

/-- An EVEX result blends the selected elements over the vector length (R95 (a)). -/
theorem result_evex (w : Bool) (vl : VLen) (st : Bool) (o : EvexOps) (s : State) (src old : Vec) :
    (evexMove vl ⟨vl.bytes, evexElem w⟩ st o s).result src old =
      blend (evexElem w) (effectiveMask s o.aaa (vl.bytes / evexElem w)) o.z src old (vl.bytes / evexElem w) := rfl

/-- An EVEX result is 0 above VL. -/
theorem result_evex_upper (w : Bool) (vl : VLen) (st : Bool) (o : EvexOps) (s : State) (src old : Vec) (n : Nat) :
    ((evexMove vl ⟨vl.bytes, evexElem w⟩ st o s).result src old).extractLsb' (8 * vl.bytes) n = 0 := by
  obtain ⟨hes, hfill, hle, -⟩ := evexShape_fits w vl
  rw [result_evex]
  exact blend_above hes _ _ _ _ (by omega) (by rw [Nat.mul_assoc, hfill])

/-- An unselected element of an EVEX result is 0 under zeroing, else kept. -/
theorem result_evex_unselected (w : Bool) (vl : VLen) (st : Bool) (o : EvexOps) (s : State) (src old : Vec) {j : Nat}
    (hj : j < vl.bytes / evexElem w) (hs : selects s o.aaa j = false) :
    ((evexMove vl ⟨vl.bytes, evexElem w⟩ st o s).result src old).extractLsb' (8 * evexElem w * j) (8 * evexElem w) =
      if o.z then 0 else old.extractLsb' (8 * evexElem w * j) (8 * evexElem w) := by
  obtain ⟨hes, hfill, hle, hkl⟩ := evexShape_fits w vl
  have hm : (effectiveMask s o.aaa (vl.bytes / evexElem w)).getLsbD j = false := by
    rw [getLsbD_effectiveMask s o.aaa hkl, hs, Bool.and_false]
  rw [result_evex, extract_blend hes _ _ _ _ (by omega) hj, hm, if_neg Bool.false_ne_true]

/-! ## Fields a move passes through -/

/-- `f` replaces only fields that the operations of a move neither read nor write: the operations see the same values in
`f s`, and what they write is written in `f s` as in `s`. -/
structure Untouched (f : State → State) : Prop where
  vec : ∀ s n, (f s).vec n = s.vec n
  accessCheck : ∀ s kind a, (f s).accessCheck kind a = s.accessCheck kind a
  loadOperand : ∀ s a, (f s).loadOperand a = s.loadOperand a
  setVec : ∀ s n v, (f s).setVec n v = f (s.setVec n v)
  storeOperand : ∀ s a v, (f s).storeOperand a v = f (s.storeOperand a v)
  advanceChoice : ∀ s a, (f s).advanceChoice a = f (s.advanceChoice a)
  retire : ∀ s n, (f s).retire n = f (s.retire n)

section
variable {f : State → State} (hf : Untouched f) {s : State}
include hf

theorem Untouched.regCopy (mv : Move) (d r : VReg) : regCopy mv d r (f s) = mapOut f (regCopy mv d r s) := by
  simp [Machine.regCopy, hf.vec, hf.setVec, hf.retire, mapOut]

theorem Untouched.loadMem {mv : Move} {a : Addr} (ha : (f s).access mv a = s.access mv a) (d : VReg) :
    loadMem mv d a (f s) = mapOut f (loadMem mv d a s) := by
  simp only [Machine.loadMem, ha, hf.accessCheck, hf.loadOperand, hf.vec, hf.setVec, hf.advanceChoice, hf.retire]
  cases s.accessCheck .read (s.access mv a) with
  | none => rfl
  | some st => cases st <;> rfl

theorem Untouched.storeMem {mv : Move} {a : Addr} (ha : (f s).access mv a = s.access mv a) (r : VReg) :
    storeMem mv a r (f s) = mapOut f (storeMem mv a r s) := by
  simp only [Machine.storeMem, ha, hf.accessCheck, hf.vec, hf.storeOperand, hf.advanceChoice, hf.retire]
  cases s.accessCheck .write (s.access mv a) with
  | none => rfl
  | some st => cases st <;> rfl

end

theorem guarded_mapOut {f : State → State} {s s' : State} (ud : Bool) {k k' : Out} (hm : s'.mode = s.mode)
    (hts : s'.cr0Ts = s.cr0Ts) (hk : k' = mapOut f k) : guarded ud s' k' = mapOut f (guarded ud s k) := by
  simp only [guarded, hm, hts, hk]
  split_ifs <;> rfl

/-- A move has the same outcome, up to `f`, from a state that differs only in fields no move touches. -/
theorem Untouched.runMove {f : State → State} (hf : Untouched f) {s : State} (hm : (f s).mode = s.mode)
    (hts : (f s).cr0Ts = s.cr0Ts) (ha : ∀ mv a, (f s).access mv a = s.access mv a) {mv mv' : Move} (hmv : mv' = mv)
    (store : Bool) (reg : VReg) (rm : Operand) :
    runMove mv' store reg rm (f s) = mapOut f (runMove mv store reg rm s) := by
  subst hmv
  have hreg := fun d r => guarded_mapOut mv'.ud hm hts (hf.regCopy (s := s) mv' d r)
  cases rm with
  | reg n => cases store <;> exact hreg _ _
  | mem a =>
    cases store with
    | false => exact guarded_mapOut mv'.ud hm hts (hf.loadMem (ha mv' a) reg)
    | true => exact guarded_mapOut mv'.ud hm hts (hf.storeMem (ha mv' a) reg)

/-- Other opmask registers (R23). -/
def State.withOpmasks (k : Vector Word 8) (t : State) : State := { t with k := k }

/-- Other flags, MXCSR, D bit and segment bases but FS and GS, and another CR0 (R12 to R14, R24). -/
def State.withUnread (fl cs ds es ss cr0 : Word) (mx : BitVec 32) (d : Bool) (t : State) : State :=
  { t with rflags := fl, mxcsr := mx, csD := d, csBase := cs, dsBase := ds, esBase := es, ssBase := ss, cr0 := cr0 }

theorem untouched_withOpmasks (k : Vector Word 8) : Untouched (State.withOpmasks k) where
  vec _ _ := rfl
  accessCheck _ _ _ := rfl
  loadOperand _ _ := rfl
  setVec _ _ _ := rfl
  storeOperand _ _ _ := rfl
  advanceChoice t a := by
    simp only [State.advanceChoice, apply_ite (State.withOpmasks k)]; rfl
  retire _ _ := rfl

theorem untouched_withUnread (fl cs ds es ss cr0 : Word) (mx : BitVec 32) (d : Bool) :
    Untouched (State.withUnread fl cs ds es ss cr0 mx d) where
  vec _ _ := rfl
  accessCheck _ _ _ := rfl
  loadOperand _ _ := rfl
  setVec _ _ _ := rfl
  storeOperand _ _ _ := rfl
  advanceChoice t a := by
    simp only [State.advanceChoice, apply_ite (State.withUnread fl cs ds es ss cr0 mx d)]; rfl
  retire _ _ := rfl

/-- Masks that select the same elements are one effective mask (R9). -/
theorem effectiveMask_congr {s s' : State} {aaa : KReg} {kl : Nat} (hkl : kl ≤ 16)
    (h : ∀ j < kl, selects s' aaa j = selects s aaa j) : effectiveMask s' aaa kl = effectiveMask s aaa kl := by
  refine BitVec.eq_of_getLsbD_eq fun j _ => ?_
  rw [getLsbD_effectiveMask s' aaa hkl, getLsbD_effectiveMask s aaa hkl]
  by_cases hj : j < kl
  · rw [h j hj]
  · simp [hj]

/-- A CR0 value with its AM bit, bit 18, replaced (R14, R138). -/
def setAm (c : Word) (am : Bool) : Word := (c &&& ~~~0x40000#64) ||| (BitVec.ofBool am).setWidth 64 <<< 18

theorem getLsbD_setAm (c : Word) (am : Bool) {b : Nat} (hb : b < 18) : (setAm c am).getLsbD b = c.getLsbD b := by
  unfold setAm
  interval_cases b <;> simp

section
variable {fl cs ds es ss cr0 : Word} {mx : BitVec 32} {d : Bool} {s : State}

/-- Of the replaced fields the mode reads VM and PE (R18). -/
theorem mode_withUnread (hvm : fl.getLsbD 17 = s.rflags.getLsbD 17) (hpe : cr0.getLsbD 0 = s.cr0.getLsbD 0) :
    (s.withUnread fl cs ds es ss cr0 mx d).mode = s.mode := by
  have h1 : (s.withUnread fl cs ds es ss cr0 mx d).cr0Pe = s.cr0Pe := hpe
  have h2 : (s.withUnread fl cs ds es ss cr0 mx d).flagVm = s.flagVm := hvm
  simp only [State.mode, h1, h2]
  rfl

/-- Of the replaced fields a legacy move reads EM (R131). -/
theorem legMove_withUnread (o : LegOps) (hem : cr0.getLsbD 2 = s.cr0.getLsbD 2) :
    legMove o (s.withUnread fl cs ds es ss cr0 mx d) = legMove o s := by
  have h : (s.withUnread fl cs ds es ss cr0 mx d).cr0Em = s.cr0Em := hem
  simp only [legMove, udLeg, h]
  rfl

/-- Of the replaced fields a VEX move reads those of the mode (R132). -/
theorem vexMove_withUnread (vl : VLen) (o : VexOps) (hm : (s.withUnread fl cs ds es ss cr0 mx d).mode = s.mode) :
    vexMove vl o (s.withUnread fl cs ds es ss cr0 mx d) = vexMove vl o s := by
  simp only [vexMove, udVex, State.realOrV86, hm]
  rfl

/-- Of the replaced fields an EVEX move reads those of the mode (R133). -/
theorem evexMove_withUnread (vl : VLen) (sh : Shape) (st : Bool) (o : EvexOps)
    (hm : (s.withUnread fl cs ds es ss cr0 mx d).mode = s.mode) :
    evexMove vl sh st o (s.withUnread fl cs ds es ss cr0 mx d) = evexMove vl sh st o s := by
  simp only [evexMove, udEvex, State.realOrV86, hm]
  rfl

end

end Sys2Proof.Machine
end

section
/-! Family 10_state: the statements about the state, settled. -/

namespace Sys2Proof.Proofs

open Machine

/-- Settles O52: a step that completes is one instruction's `exec`, whose frame is the claim. -/
theorem stepWritesOnlyVectorsMemoryRip : Obligations.StepWritesOnlyVectorsMemoryRip := by
  intro s t h
  obtain ⟨-, -, -, i, -, he, -⟩ := step_next h
  have hf := exec_next_frame he
  have hrip : t.rip = s.rip + BitVec.ofNat 64 i.len := congrArg State.rip hf
  rw [hrip]
  exact hf

/-- Settles O47: no operation of a move reads an opmask register but through the effective mask. -/
theorem onlyLowMaskBitsRead : Obligations.OnlyLowMaskBitsRead := by
  intro s k
  have hrun := fun {mv mv' : Move} (hmv : mv' = mv) =>
    (untouched_withOpmasks k).runMove (s := s) rfl rfl (fun _ _ => rfl) hmv
  refine ⟨fun w vl st o h => ?_, fun st o => ?_, fun l st o => ?_⟩
  · obtain ⟨-, -, -, hkl⟩ := evexShape_fits w vl
    have hmask : effectiveMask (s.withOpmasks k) o.aaa (vl.bytes / evexElem w) =
        effectiveMask s o.aaa (vl.bytes / evexElem w) := effectiveMask_congr hkl h
    have hmv : evexMove vl ⟨vl.bytes, evexElem w⟩ st o (s.withOpmasks k) =
        evexMove vl ⟨vl.bytes, evexElem w⟩ st o s := by
      simp only [evexMove, Shape.kl, hmask]; rfl
    rw [exec_evexRow_eq_runMove, exec_evexRow_eq_runMove]
    exact hrun hmv st o.reg o.rm
  · rw [exec_legRow_eq_runMove, exec_legRow_eq_runMove]
    exact hrun rfl st o.reg o.rm
  · rw [exec_vexRow_eq_runMove, exec_vexRow_eq_runMove]
    exact hrun rfl st o.reg o.rm

/-- Settles O48: the tests before a move read VM and, of CR0, PE, EM and TS only; its operations read none of the fields. -/
theorem flagsAndFlatBasesNotRead : Obligations.FlagsAndFlatBasesNotRead := by
  intro i s fl cs ds es ss mx d am hvm
  have hmode : (s.withUnread fl cs ds es ss (setAm s.cr0 am) mx d).mode = s.mode :=
    mode_withUnread hvm (getLsbD_setAm s.cr0 am (by omega))
  have hts : (s.withUnread fl cs ds es ss (setAm s.cr0 am) mx d).cr0Ts = s.cr0Ts := getLsbD_setAm s.cr0 am (by omega)
  have hrun := fun {mv mv' : Move} (hmv : mv' = mv) =>
    (untouched_withUnread fl cs ds es ss (setAm s.cr0 am) mx d).runMove hmode hts (fun _ _ => rfl) hmv
  obtain ⟨st, o, rfl⟩ | ⟨l, st, o, rfl⟩ | ⟨w, vl, st, o, rfl⟩ := Instr.row_cases i
  · rw [exec_legRow_eq_runMove, exec_legRow_eq_runMove]
    exact hrun (legMove_withUnread o (getLsbD_setAm s.cr0 am (by omega))) st o.reg o.rm
  · rw [exec_vexRow_eq_runMove, exec_vexRow_eq_runMove]
    exact hrun (vexMove_withUnread _ o hmode) st o.reg o.rm
  · rw [exec_evexRow_eq_runMove, exec_evexRow_eq_runMove]
    exact hrun (evexMove_withUnread vl _ st o hmode) st o.reg o.rm

/-- Settles O49: the frame of a move, read through `destOf` and `operandOf`. -/
theorem execChangesOnlyDestination : Obligations.ExecChangesOnlyDestination := by
  intro i s t hs h
  obtain ⟨mv, st, reg, rm, he, -, hd, -, ho⟩ := exec_eq_runMove i s
  have hr : runMove mv st reg rm s = .next t := he ▸ h
  rw [hd, ho]
  exact ⟨exec_next_frame h, fun n hn => runMove_next_other hr hn, fun b hb => runMove_next_byteAt hr hs hb,
    fun hm => runMove_next_mem hr hm⟩

/-- Settles O50: the destination holds its class's result, and the other registers are a move's frame. -/
theorem upperBitsByEncodingClass : Obligations.UpperBitsByEncodingClass := by
  refine ⟨fun st o s t h => ?_, fun l st o s t h => ?_, fun w vl st o s t h => ?_⟩
  · rw [exec_legRow_eq_runMove] at h
    refine ⟨fun d hd => ?_, fun n hn => runMove_next_other h hn⟩
    obtain ⟨src, hsrc⟩ := runMove_next_dest h hd
    rw [hsrc, result_leg_upper]
  · rw [exec_vexRow_eq_runMove] at h
    refine ⟨fun d hd => ?_, fun n hn => runMove_next_other h hn⟩
    obtain ⟨src, hsrc⟩ := runMove_next_dest h hd
    rw [hsrc, result_vex_upper]
  · rw [exec_evexRow_eq_runMove] at h
    refine ⟨fun d hd => ?_, fun n hn => runMove_next_other h hn⟩
    obtain ⟨src, hsrc⟩ := runMove_next_dest h hd
    rw [hsrc]
    exact ⟨result_evex_upper w vl st o s src _ _, fun j hj hs => result_evex_unselected w vl st o s src _ hj hs⟩

/-- Settles O53: `rip` advances by the length of the decoded instruction, and the step tested the address it reaches. -/
theorem stepKeepsRipCanonical : Obligations.StepKeepsRipCanonical := by
  intro s t h
  obtain ⟨-, -, -, i, hd, he, hc, -⟩ := step_next h
  obtain ⟨h4, h15⟩ := decode_insn_len hd
  obtain ⟨hwrap, hcan⟩ := State.fetchCanonical_iff.1 hc i.len le_rfl
  have hf := exec_next_frame he
  have hrip : t.rip = byteAddr s.rip i.len := by rw [hf]; rfl
  have hcfg : t.cfg = s.cfg := by rw [hf]
  have hnat : t.rip.toNat = s.rip.toNat + i.len := by
    rw [hrip, byteAddr, BitVec.toNat_add, BitVec.toNat_ofNat]; omega
  exact ⟨by rw [hcfg, hrip, hcan], by omega, by omega⟩

/-- Settles O54: the tests of a step before and after decoding pass. -/
theorem stepRunsDecodedInstruction : Obligations.StepRunsDecodedInstruction := by
  intro s i p hm htf hp hstart hstop hd hwrap hcan
  exact step_eq_exec hm htf hd (State.fetchCanonical_iff.2 fun k hk => ⟨by omega, hcan k hk⟩)
    (State.programHolds_iff.2 ⟨p, hp, hstart, hstop⟩)

/-- Settles O55: the fetched bytes begin with the encoding, which is read back whatever follows it. -/
theorem stepRunsBytesInMemory : Obligations.StepRunsBytesInMemory := by
  intro s i p hm htf hp hstart hstop hw hbytes hwrap hcan
  refine stepRunsDecodedInstruction s i p hm htf hp hstart hstop (decode_fetchWindow_of_encode hw fun j hj => ?_)
    hwrap hcan
  obtain ⟨pa, hf, hr, hb⟩ := hbytes j hj
  rw [← hb, State.fetchByte_of_translate (by omega) (by rwa [ofNat_toNat_add]) (by rwa [ofNat_toNat_add])]

/-- Settles O2: CR4 is 0 at reset, and each class's #UD test reads one of its bits. -/
theorem everyEncodingUndefinedAtReset : Obligations.EveryEncodingUndefinedAtReset := by
  intro i
  have hfxsr : State.reset.cr4Osfxsr = false := by decide
  have hxsave : State.reset.cr4Osxsave = false := by decide
  obtain ⟨st, o, rfl⟩ | ⟨l, st, o, rfl⟩ | ⟨w, vl, st, o, rfl⟩ := Instr.row_cases i
  · rw [exec_legRow_eq_runMove]
    exact runMove_ud (by simp [legMove, udLeg, hfxsr])
  · rw [exec_vexRow_eq_runMove]
    exact runMove_ud (by simp [vexMove, udVex, hxsave])
  · rw [exec_evexRow_eq_runMove]
    exact runMove_ud (by simp [evexMove, udEvex, hxsave])

end Sys2Proof.Proofs
end

section
/-! SUPPORT. The memory operand of an instruction: its shape, its checks (R39) one by one, and what they decide. -/

namespace Sys2Proof.Machine

/-! ## The operand's shape -/

theorem moveOperand_eq_some {mv : Move} {store : Bool} {rm : Operand} {s : State} {kind : AccessKind} {a : Access}
    (h : moveOperand mv store rm s = some (kind, a)) :
    ∃ ad, rm = .mem ad ∧ kind = rowKind store ∧ a = s.access mv ad := by
  cases rm with
  | reg n => simp [moveOperand] at h
  | mem ad =>
    obtain ⟨rfl, rfl⟩ : rowKind store = kind ∧ s.access mv ad = a := by simpa [moveOperand] using h
    exact ⟨ad, rfl, rfl, rfl⟩

/-- The elements of a memory operand fill it. -/
theorem operandOf_shape {i : Instr} {s : State} {kind : AccessKind} {a : Access} (h : operandOf i s = some (kind, a)) :
    0 < a.sh.elem ∧ a.sh.elem * a.sh.kl = a.sh.bytes := by
  have hwhole : ∀ vl, 0 < (Shape.whole vl).elem ∧ (Shape.whole vl).elem * (Shape.whole vl).kl = (Shape.whole vl).bytes :=
    fun vl => by cases vl <;> decide
  obtain ⟨st, o, rfl⟩ | ⟨l, st, o, rfl⟩ | ⟨w, vl, st, o, rfl⟩ := Instr.row_cases i
  · obtain ⟨ad, -, -, rfl⟩ := moveOperand_eq_some (operandOf_legRow st o s ▸ h)
    exact hwhole .v128
  · obtain ⟨ad, -, -, rfl⟩ := moveOperand_eq_some (operandOf_vexRow l st o s ▸ h)
    exact hwhole (vexLen l)
  · obtain ⟨ad, -, -, rfl⟩ := moveOperand_eq_some (operandOf_evexRow w vl st o s ▸ h)
    obtain ⟨hes, hfill, -, -⟩ := evexShape_fits w vl
    exact ⟨hes, hfill⟩

section
variable {a : Access} (hsh : 0 < a.sh.elem ∧ a.sh.elem * a.sh.kl = a.sh.bytes)
include hsh

/-- An accessed byte lies in a selected element. -/
theorem Access.someSelected_of_reaches {b : Nat} (h : a.reaches b) : a.someSelected := by
  refine ⟨b / a.sh.elem, ?_, h.2⟩
  rw [Nat.div_lt_iff_lt_mul hsh.1, Nat.mul_comm, hsh.2]
  exact h.1

/-- The first byte of a selected element is accessed. -/
theorem Access.reaches_of_selected {j : Nat} (hj : j ∈ a.selected) : a.reaches (a.sh.elem * j) :=
  Access.byteSelected_iff.1 (Access.byteSelected_of_selected hsh.1 hsh.2 hj hsh.1)

/-- An operand with a non-canonical byte has a selected element. -/
theorem Access.someSelected_of_not_allCanonical {s : State} (h : ¬ a.allCanonical s) : a.someSelected := by
  simp only [Access.allCanonical, not_forall] at h
  obtain ⟨b, hb, -⟩ := h
  exact Access.someSelected_of_reaches hsh hb

end

/-! ## What the checks of R39 answer -/

/-- R39 step 3 stops at the first selected element whose own check does. -/
theorem State.translateCheck_first {s : State} {kind : AccessKind} {a : Access} {j : Nat} {st : Stop} (hj : j ∈ a.selected)
    (hfirst : ∀ j' < j, a.m.getLsbD j' = true → s.elementCheck kind (byteAddr a.la (a.sh.elem * j')) = none)
    (hst : s.elementCheck kind (byteAddr a.la (a.sh.elem * j)) = some st) : s.translateCheck kind a = some st := by
  obtain ⟨hkl, hm⟩ := Access.mem_selected.1 hj
  have hsplit : List.range a.sh.kl = List.range j ++ j :: (List.range (a.sh.kl - (j + 1))).map (j + 1 + ·) := by
    rw [← Nat.add_sub_cancel' (show j + 1 ≤ a.sh.kl from hkl), List.range_add, List.range_succ]
    simp
  rw [State.translateCheck, List.findSome?_eq_some_iff]
  refine ⟨(List.range j).filter fun j => a.m.getLsbD j, j,
    ((List.range (a.sh.kl - (j + 1))).map (j + 1 + ·)).filter fun j => a.m.getLsbD j, ?_, hst, fun j' hj' => ?_⟩
  · rw [Access.selected, hsplit, List.filter_append, List.filter_cons_of_pos hm]
  · obtain ⟨hlt, hm'⟩ := List.mem_filter.1 hj'
    exact hfirst j' (List.mem_range.1 hlt) hm'

/-- Memory that is not write-back is refused by its type (R47). -/
theorem State.elementCheck_memoryType {s : State} {kind : AccessKind} {a pa : Word} {t : MemType} (ht : t ≠ .writeBack)
    (h : s.translate a kind = .ok pa t) : s.elementCheck kind a = some (.refuse (.memoryType t)) := by
  unfold State.elementCheck
  cases t <;> simp [h] at ht ⊢

/-- R45's test in the words of the accessed bytes. -/
theorem State.hitsProgram_iff {s : State} {a : Access} :
    s.hitsProgram a = true ↔ ∃ b, a.reaches b ∧ s.storesProgram (byteAddr a.la b) = true := by
  simp only [State.hitsProgram, List.any_eq_true, Access.mem_touched, Access.byteSelected_iff]

section
variable {s : State} {kind : AccessKind} {a : Access} (hsel : a.someSelected)
include hsel

/-- An SS-relative operand that is non-canonical and misaligned reports what the parameter says (R39). -/
theorem State.accessCheck_ssChoice (hss : a.seg = .ss) (hal : ¬ a.aligned) (hcan : ¬ a.allCanonical s) :
    s.accessCheck kind a = some (.fault s.ssChoice) := by
  have hc : s.nonCanonical a = true := by rwa [← Bool.not_eq_false, State.nonCanonical_eq_false]
  have hm : a.misaligned = true := by rwa [← Bool.not_eq_false, Access.misaligned_eq_false]
  simp [State.accessCheck, Access.selected_isEmpty hsel, hc, hm, hss]

/-- An aligned canonical operand is left to `Translate` and the test of R45. -/
theorem State.accessCheck_of_aligned (hal : a.aligned) (hcan : a.allCanonical s) : s.accessCheck kind a =
    (s.translateCheck kind a).or
      (if kind = .write ∧ s.hitsProgram a = true then some (.refuse .storeIntoProgram) else none) := by
  simp only [State.accessCheck, Access.selected_isEmpty hsel, State.nonCanonical_eq_false.2 hcan,
    Access.misaligned_eq_false.2 hal, Bool.false_eq_true, if_false]
  cases s.translateCheck kind a <;> rfl

/-- What an access that passes its checks has passed (R39, R45). -/
theorem State.accessCheck_none_iff : s.accessCheck kind a = none ↔
    a.aligned ∧ a.allCanonical s ∧ s.translateCheck kind a = none ∧ (kind = .write → s.hitsProgram a = false) := by
  refine ⟨fun h => ?_, fun ⟨hal, hcan, htr, hpr⟩ => ?_⟩
  · have hcan : s.nonCanonical a = false := by
      rw [← Bool.not_eq_true]
      intro hc
      simp only [State.accessCheck, Access.selected_isEmpty hsel, hc, Bool.false_eq_true, if_false, if_true] at h
      split_ifs at h
    have hal : a.misaligned = false := by
      rw [← Bool.not_eq_true]
      intro hm
      simp [State.accessCheck, Access.selected_isEmpty hsel, hcan, hm] at h
    rw [State.nonCanonical_eq_false] at hcan
    rw [Access.misaligned_eq_false] at hal
    rw [State.accessCheck_of_aligned hsel hal hcan, Option.or_eq_none_iff] at h
    refine ⟨hal, hcan, h.1, fun hk => ?_⟩
    simpa [hk] using h.2
  · have hstore : ¬ (kind = .write ∧ s.hitsProgram a = true) := fun ⟨hk, hp⟩ => by simp [hpr hk] at hp
    rw [State.accessCheck_of_aligned hsel hal hcan, htr, if_neg hstore, Option.none_or]

end

/-! ## What an operand decides in an enabled row -/

/-- An enabled well-formed instruction passes the tests before its operands (R140 items 2 and 3, R161). -/
theorem exec_enabled {i : Instr} {s : State} (hw : i.WellFormed) (he : enabledFor i s) : ∃ mv store reg rm,
    mv.ud = false ∧ s.mode = .mode64 ∧ s.cr0Ts = false ∧ exec i s = runMove mv store reg rm s ∧
      operandOf i s = moveOperand mv store rm s := by
  obtain ⟨st, o, rfl⟩ | ⟨l, st, o, rfl⟩ | ⟨w, vl, st, o, rfl⟩ := Instr.row_cases i
  · have he : LegEnabled s := by cases st <;> exact he
    have hud : (legMove o s).ud = false := legMove_ud he ((legRow_wellFormed st o).1 hw)
    obtain ⟨hm, -, -, hts, -⟩ := he
    exact ⟨_, st, o.reg, o.rm, hud, hm, hts, exec_legRow_eq_runMove st o s, operandOf_legRow st o s⟩
  · have he : VexEnabled s := by cases l <;> cases st <;> exact he
    have hud : (vexMove (vexLen l) o s).ud = false := vexMove_ud he ((vexRow_wellFormed l st o).1 hw)
    obtain ⟨hm, -, -, hts, -⟩ := he
    exact ⟨_, st, o.reg, o.rm, hud, hm, hts, exec_vexRow_eq_runMove l st o s, operandOf_vexRow l st o s⟩
  · have he : EvexEnabled vl s := by cases w <;> cases vl <;> cases st <;> exact he
    have hud : (evexMove vl ⟨vl.bytes, evexElem w⟩ st o s).ud = false :=
      evexMove_ud he ((evexRow_wellFormed w vl st o).1 hw)
    obtain ⟨hm, -, -, -, hts, -⟩ := he
    exact ⟨_, st, o.reg, o.rm, hud, hm, hts, exec_evexRow_eq_runMove w vl st o s, operandOf_evexRow w vl st o s⟩

section
variable {i : Instr} {s : State} (hw : i.WellFormed) (he : enabledFor i s)
include hw he

/-- An enabled instruction with a memory operand is a load or a store of it (R59). -/
theorem exec_of_operandOf_some {kind : AccessKind} {a : Access} (ho : operandOf i s = some (kind, a)) :
    ∃ mv reg ad, a = s.access mv ad ∧
      (kind = .read ∧ exec i s = loadMem mv reg ad s ∨ kind = .write ∧ exec i s = storeMem mv ad reg s) := by
  obtain ⟨mv, store, reg, rm, hud, hm, hts, hexec, hop⟩ := exec_enabled hw he
  obtain ⟨ad, rfl, rfl, rfl⟩ := moveOperand_eq_some (hop ▸ ho)
  refine ⟨mv, reg, ad, rfl, ?_⟩
  rw [hexec]
  cases store with
  | false => exact .inl ⟨rfl, guarded_eq _ hud hm hts⟩
  | true => exact .inr ⟨rfl, guarded_eq _ hud hm hts⟩

/-- An enabled instruction whose operand fails a check ends as the check says. -/
theorem exec_of_accessCheck_some {kind : AccessKind} {a : Access} {st : Stop} (ho : operandOf i s = some (kind, a))
    (hc : s.accessCheck kind a = some st) : exec i s = st.out := by
  obtain ⟨mv, reg, ad, rfl, ⟨rfl, hexec⟩ | ⟨rfl, hexec⟩⟩ := exec_of_operandOf_some hw he ho
  · simp only [hexec, loadMem, hc]
  · simp only [hexec, storeMem, hc]

/-- An enabled instruction whose operand passes its checks completes. -/
theorem exec_of_accessCheck_none {kind : AccessKind} {a : Access} (ho : operandOf i s = some (kind, a))
    (hc : s.accessCheck kind a = none) : ∃ t, exec i s = .next t := by
  obtain ⟨mv, reg, ad, rfl, ⟨rfl, hexec⟩ | ⟨rfl, hexec⟩⟩ := exec_of_operandOf_some hw he ho
  · simp only [hexec, loadMem, hc, Host.Outcome.next.injEq, exists_eq']
  · simp only [hexec, storeMem, hc, Host.Outcome.next.injEq, exists_eq']

/-- An enabled register copy completes (R59). -/
theorem exec_of_operandOf_none (ho : operandOf i s = none) : ∃ t, exec i s = .next t := by
  obtain ⟨mv, store, reg, rm, hud, hm, hts, hexec, hop⟩ := exec_enabled hw he
  rw [hexec]
  cases rm with
  | mem ad => simp [hop, moveOperand] at ho
  | reg n => cases store <;> exact ⟨_, guarded_eq _ hud hm hts⟩

end

/-- The operand of an instruction that completes has passed its checks. -/
theorem exec_next_accessCheck {i : Instr} {s t : State} {kind : AccessKind} {a : Access} (h : exec i s = .next t)
    (ho : operandOf i s = some (kind, a)) : s.accessCheck kind a = none := by
  obtain ⟨mv, store, reg, rm, hexec, -, -, -, hop⟩ := exec_eq_runMove i s
  obtain ⟨ad, rfl, rfl, rfl⟩ := moveOperand_eq_some (hop ▸ ho)
  obtain ⟨_, _, _, hrm, -⟩ | ⟨a', hrm, rfl, hc, -⟩ | ⟨a', hrm, rfl, hc, -⟩ := runMove_next (hexec ▸ h)
  · simp at hrm
  · obtain rfl := Operand.mem.inj hrm
    exact hc
  · obtain rfl := Operand.mem.inj hrm
    exact hc

end Sys2Proof.Machine
end

section
/-! SUPPORT. Translation by pages (R38), and the program's bytes in memory (R45). -/

namespace Sys2Proof.Machine

/-! ## An aligned operand lies in one page (R34) -/

theorem toNat_page (x : Word) : (x.extractLsb' 12 52).toNat = x.toNat / 4096 := by
  have := x.isLt
  simp only [BitVec.extractLsb'_toNat, Nat.shiftRight_eq_div_pow]
  omega

theorem toNat_byteAddr (la : Word) (i : Nat) : (byteAddr la i).toNat = (la.toNat + i) % 2 ^ 64 := by
  simp [byteAddr]

/-- The bytes of an aligned operand have one page. -/
theorem byteAddr_page {la : Word} {vl : VLen} {i : Nat} (hal : la.toNat % vl.bytes = 0) (hi : i < vl.bytes) :
    (byteAddr la i).extractLsb' 12 52 = la.extractLsb' 12 52 := by
  have := la.isLt
  apply BitVec.eq_of_toNat_eq
  rw [toNat_page, toNat_page, toNat_byteAddr]
  cases vl <;> simp only [VLen.bytes] at hal hi <;> omega

/-- The bytes of an aligned operand keep their distance in a frame. -/
theorem byteAddr_frame {la : Word} {vl : VLen} {i : Nat} (f : BitVec 52) (hal : la.toNat % vl.bytes = 0)
    (hi : i < vl.bytes) :
    (f ++ (byteAddr la i).extractLsb' 0 12 : Word) = byteAddr (f ++ la.extractLsb' 0 12 : Word) i := by
  have htoNat : ∀ o : BitVec 12, (f ++ o : Word).toNat = f.toNat * 4096 + o.toNat := fun o => by
    have := o.isLt
    have h : (f ++ o : Word).toNat = f.toNat <<< 12 ||| o.toNat := BitVec.toNat_append f o
    rw [h, ← Nat.shiftLeft_add_eq_or_of_lt this, Nat.shiftLeft_eq]
  have hf := f.isLt
  apply BitVec.eq_of_toNat_eq
  rw [toNat_byteAddr, htoNat, htoNat]
  simp only [BitVec.extractLsb'_toNat, Nat.shiftRight_zero, toNat_byteAddr]
  cases vl <;> simp only [VLen.bytes] at hal hi <;> omega

/-- A page fault holds for its whole page. -/
theorem State.translate_pageFault_of_page {s : State} {a x : Word} {kind : AccessKind} {code : BitVec 32}
    (h : s.translate a kind = .pageFault code) (hp : x.extractLsb' 12 52 = a.extractLsb' 12 52) :
    s.translate x kind = .pageFault code := by
  unfold State.translate at h ⊢
  rw [hp]
  split at h
  · rename_i r _
    cases e : r.entry with
    | frame f t => simp [e, PageEntry.answer] at h
    | pageFault c => simpa [e, PageEntry.answer] using h
  · cases e : s.pageDefault with
    | identity t => simp [e, PageDefault.answer] at h
    | pageFault c => simpa [e, PageDefault.answer] using h

/-! ## Fetching the program -/

/-- A fetch depends on the translation of its address and the byte it reaches. -/
theorem State.fetchByte_congr {s t : State} {x : Nat} (htr : ∀ a kind, t.translate a kind = s.translate a kind)
    (hb : x < 2 ^ 64 → ∀ pa ty, s.translate (BitVec.ofNat 64 x) .fetch = .ok pa ty →
      t.byteAt pa.toNat = s.byteAt pa.toNat) : t.fetchByte x = s.fetchByte x := by
  simp only [State.fetchByte, htr]
  split
  · rename_i hx
    split
    · rename_i pa hpa
      rw [show t.mem.read pa.toNat = s.mem.read pa.toNat from hb hx _ _ hpa]
    · rfl
  · rfl

/-- An instruction that completes writes no byte that an address of the program is fetched from (R45). -/
theorem exec_next_byteAt_program {i : Instr} {s t : State} (hs : s.Inv) (h : exec i s = .next t) {x pa : Word}
    {ty : MemType} (hx : s.inProgram x.toNat = true) (hpa : s.translate x .fetch = .ok pa ty) :
    t.byteAt pa.toNat = s.byteAt pa.toNat := by
  obtain ⟨mv, store, reg, rm, hexec, -, -, -, hop⟩ := exec_eq_runMove i s
  refine runMove_next_byteAt (hexec ▸ h) hs fun a ha b hb heq => ?_
  rw [← hop] at ha
  have hsel := Access.someSelected_of_reaches (operandOf_shape ha) hb
  obtain ⟨-, -, -, hmiss⟩ := (State.accessCheck_none_iff hsel).1 (exec_next_accessCheck h ha)
  have hhit : s.hitsProgram a = true := State.hitsProgram_iff.2 ⟨b, hb, State.storesProgram_iff.2
    (.inr ⟨x, hx, ty, by rw [hpa, BitVec.eq_of_toNat_eq heq]; rfl⟩)⟩
  simp [hmiss rfl] at hhit

end Sys2Proof.Machine
end

section
/-! SUPPORT. A move with no element selected (R32 (c), R35, R36). -/

namespace Sys2Proof.Machine

/-- Where no element is selected, the effective mask is 0 (R9). -/
theorem effectiveMask_eq_zero {s : State} {aaa : KReg} {kl : Nat} (hkl : kl ≤ 16)
    (h : ∀ j < kl, selects s aaa j = false) : effectiveMask s aaa kl = 0 := by
  refine BitVec.eq_of_getLsbD_eq fun j _ => ?_
  rw [getLsbD_effectiveMask s aaa hkl]
  by_cases hj : j < kl
  · simp [h j hj]
  · simp [hj]

/-- With no element selected only R32 (c) applies. -/
theorem State.accessCheck_of_mask_zero {s : State} {kind : AccessKind} {a : Access} (hm : a.m = 0) :
    s.accessCheck kind a = if a.misaligned && s.zeroMaskFaults then some (.fault .gp) else none := by
  have hsel : a.selected = [] := by simp [Access.selected, hm]
  simp [State.accessCheck, hsel]

/-- A store of no byte leaves memory as it was (R36). -/
theorem Memory.writeBytes_of_none {m : Memory} {addr : Nat → Word} {v : Vec} {sel : Nat → Bool} {n : Nat}
    (h : ∀ i, sel i = false) : m.writeBytes addr v sel n = m := by
  induction n with
  | zero => rfl
  | succ n ih => rw [Memory.writeBytes, h n, if_neg Bool.false_ne_true, ih]

/-- A store with no element selected leaves memory as it was. -/
theorem State.storeOperand_mem_of_mask_zero {s : State} {a : Access} (hm : a.m = 0) (v : Vec) :
    (s.storeOperand a v).mem = s.mem := by
  rw [State.storeOperand_mem]
  exact Memory.writeBytes_of_none fun i => by simp [Access.byteSelected, hm]

/-- With no element selected a blend is 0 under zeroing, else the old value's own bits (R95 (a)). -/
theorem blend_mask_zero {es : Nat} (hes : 0 < es) (z : Bool) (src old : Vec) {n w : Nat} (hn : es * n ≤ 64)
    (hw : 8 * es * n = w) : blend es 0 z src old n = if z then 0 else (old.setWidth w).setWidth 512 := by
  refine BitVec.eq_of_getLsbD_eq fun b hb => ?_
  rw [getLsbD_blend hes 0 z src old hn, hw]
  cases z with
  | true => simp
  | false => simp [hb]

/-- The result of an EVEX move with no element selected. -/
theorem result_evex_empty (w : Bool) (vl : VLen) (st : Bool) (o : EvexOps) (s : State) (src old : Vec)
    (h : ∀ j < vl.bytes / evexElem w, selects s o.aaa j = false) :
    (evexMove vl ⟨vl.bytes, evexElem w⟩ st o s).result src old =
      if o.z then 0 else (old.setWidth (8 * vl.bytes)).setWidth 512 := by
  obtain ⟨hes, hfill, hle, hkl⟩ := evexShape_fits w vl
  rw [result_evex, effectiveMask_eq_zero hkl h]
  exact blend_mask_zero hes o.z src old (by omega) (by rw [Nat.mul_assoc, hfill])

/-- What an EVEX memory form that completes with no element selected has done: no byte was written, and a load wrote its
register's own bits. -/
theorem exec_evexRow_empty_next {w : Bool} {vl : VLen} {st : Bool} {o : EvexOps} {a : Addr} {s t : State}
    (hrm : o.rm = .mem a) (hsel : ∀ j < vl.bytes / evexElem w, selects s o.aaa j = false)
    (h : exec (evexRow w vl st o) s = .next t) : t.mem = s.mem ∧ (st = true → t.zmm = s.zmm) ∧
      (st = false → (∀ n : VReg, n ≠ o.reg → t.vec n = s.vec n) ∧
        t.vec o.reg = if o.z then 0 else ((s.vec o.reg).setWidth (8 * vl.bytes)).setWidth 512) := by
  obtain ⟨-, -, -, hkl⟩ := evexShape_fits w vl
  rw [exec_evexRow_eq_runMove, hrm] at h
  obtain ⟨n, _, _, hreg, -⟩ | ⟨ad, -, rfl, -, rfl⟩ | ⟨ad, -, rfl, -, rfl⟩ := runMove_next h
  · simp at hreg
  · refine ⟨by simp, nofun, fun _ => ⟨fun n hn => ?_, ?_⟩⟩
    · simpa using State.vec_setVec_other s o.reg n _ hn
    · rw [State.vec_retire, State.vec_advanceChoice, State.vec_setVec_same]
      exact result_evex_empty w vl false o s _ (s.vec o.reg) hsel
  · have hm : (s.access (evexMove vl ⟨vl.bytes, evexElem w⟩ true o s) ad).m = 0 := effectiveMask_eq_zero hkl hsel
    exact ⟨by simpa using State.storeOperand_mem_of_mask_zero hm (s.vec o.reg), by simp, nofun⟩

theorem enabledFor_evexRow {w : Bool} {vl : VLen} {st : Bool} {o : EvexOps} {s : State} :
    enabledFor (evexRow w vl st o) s ↔ EvexEnabled vl s := by
  cases w <;> cases vl <;> cases st <;> rfl

end Sys2Proof.Machine
end

section
/-! SUPPORT. Memory, privilege level and `Translate` replaced: what an instruction reads of them (R35, R36, D8). -/

namespace Sys2Proof.Machine

/-! ## The operations of an access, byte by byte -/

/-- A loaded value depends on its selected bytes only (R35). -/
theorem Memory.readBytes_congr {m m' : Memory} {addr addr' : Nat → Word} {sel : Nat → Bool} {n : Nat}
    (h : ∀ i < n, sel i = true → m'.read (addr' i).toNat = m.read (addr i).toNat) :
    m'.readBytes addr' sel n = m.readBytes addr sel n := by
  induction n with
  | zero => rfl
  | succ n ih =>
    rw [Memory.readBytes, Memory.readBytes, ih fun i hi => h i (by omega)]
    cases hs : sel n with
    | false => rfl
    | true => rw [h n (by omega) hs]

/-- A store depends on the addresses of its selected bytes only (R36). -/
theorem Memory.writeBytes_congr {m : Memory} {addr addr' : Nat → Word} {v : Vec} {sel : Nat → Bool} {n : Nat}
    (h : ∀ i < n, sel i = true → addr' i = addr i) : m.writeBytes addr' v sel n = m.writeBytes addr v sel n := by
  induction n with
  | zero => rfl
  | succ n ih =>
    rw [Memory.writeBytes, Memory.writeBytes, ih fun i hi => h i (by omega)]
    cases hs : sel n with
    | false => rfl
    | true => rw [h n (by omega) hs]

section
variable {s s' : State} {kind : AccessKind}

/-- The check of an element depends on the translation of its address only. -/
theorem State.elementCheck_congr {a : Word} (h : s'.translate a kind = s.translate a kind) :
    s'.elementCheck kind a = s.elementCheck kind a := by
  unfold State.elementCheck; rw [h]

theorem State.physAddr_congr {a : Word} (h : s'.translate a kind = s.translate a kind) :
    s'.physAddr kind a = s.physAddr kind a := by
  unfold State.physAddr; rw [h]

/-- R39 step 3 depends on the translation of accessed bytes only. -/
theorem State.translateCheck_congr {a : Access} (hsh : 0 < a.sh.elem ∧ a.sh.elem * a.sh.kl = a.sh.bytes)
    (h : ∀ b, a.reaches b → s'.translate (byteAddr a.la b) kind = s.translate (byteAddr a.la b) kind) :
    s'.translateCheck kind a = s.translateCheck kind a := by
  rw [State.translateCheck, State.translateCheck, ← List.head?_filterMap, ← List.head?_filterMap]
  congr 1
  exact List.filterMap_congr fun j hj => State.elementCheck_congr (h _ (Access.reaches_of_selected hsh hj))

/-- R45's test depends on the program's range, where its bytes are fetched from, and where the accessed bytes lie. -/
theorem State.hitsProgram_congr {a : Access} (hin : ∀ x, s'.inProgram x = s.inProgram x)
    (h : ∀ b, a.reaches b → s'.translate (byteAddr a.la b) .write = s.translate (byteAddr a.la b) .write)
    (hfetch : ∀ x : Word, s.inProgram x.toNat = true → s'.translate x .fetch = s.translate x .fetch) :
    s'.hitsProgram a = s.hitsProgram a := by
  rw [Bool.eq_iff_iff, State.hitsProgram_iff, State.hitsProgram_iff]
  refine exists_congr fun b => and_congr_right fun hb => ?_
  rw [State.storesProgram_iff, State.storesProgram_iff, State.physAddr_congr (h b hb), hin]
  refine or_congr_right (exists_congr fun x => ?_)
  rw [hin]
  exact and_congr_right fun hx => by rw [hfetch x hx]

/-- The checks of R39 depend on the parameters, the open choice, and what R39 step 3 and R45's test answer. -/
theorem State.accessCheck_congr {a : Access} (hcfg : s'.cfg = s.cfg) (hctr : s'.freeCtr = s.freeCtr)
    (htr : s'.translateCheck kind a = s.translateCheck kind a)
    (hpr : kind = .write → s'.hitsProgram a = s.hitsProgram a) : s'.accessCheck kind a = s.accessCheck kind a := by
  have hstore : (kind = .write ∧ s'.hitsProgram a = true) ↔ (kind = .write ∧ s.hitsProgram a = true) :=
    and_congr_right fun hk => by rw [hpr hk]
  have hcan : s'.nonCanonical a = s.nonCanonical a := by rw [State.nonCanonical, State.nonCanonical, hcfg]
  have hzero : s'.zeroMaskFaults = s.zeroMaskFaults := by rw [State.zeroMaskFaults, State.zeroMaskFaults, hcfg, hctr]
  have hss : s'.ssChoice = s.ssChoice := by rw [State.ssChoice, State.ssChoice, hcfg, hctr]
  simp only [State.accessCheck, hcan, hzero, hss, htr, hstore]

end

/-! ## The replacement -/

/-- Memory, privilege level and `Translate` replaced, each by a function of what it was. -/
def State.replaced (fm : Memory → Memory) (fc : BitVec 2 → BitVec 2) (fp : List PageRule → List PageRule)
    (fd : PageDefault → PageDefault) (t : State) : State :=
  { t with mem := fm t.mem, cpl := fc t.cpl, pages := fp t.pages, pageDefault := fd t.pageDefault }

section
variable (fm : Memory → Memory) (fc : BitVec 2 → BitVec 2) (fp : List PageRule → List PageRule)
  (fd : PageDefault → PageDefault)

theorem State.advanceChoice_replaced (t : State) (a : Access) :
    (t.replaced fm fc fp fd).advanceChoice a = (t.advanceChoice a).replaced fm fc fp fd := by
  simp only [State.advanceChoice, apply_ite (State.replaced fm fc fp fd)]; rfl

/-- Every instruction is a move that no replacement changes. -/
theorem exec_replaced_eq_runMove (i : Instr) (s : State) : ∃ mv store reg rm,
    exec i s = runMove mv store reg rm s ∧ operandOf i s = moveOperand mv store rm s ∧
      exec i (s.replaced fm fc fp fd) = runMove mv store reg rm (s.replaced fm fc fp fd) := by
  obtain ⟨st, o, rfl⟩ | ⟨l, st, o, rfl⟩ | ⟨w, vl, st, o, rfl⟩ := Instr.row_cases i
  · exact ⟨_, _, _, _, exec_legRow_eq_runMove st o s, operandOf_legRow st o s, exec_legRow_eq_runMove st o _⟩
  · exact ⟨_, _, _, _, exec_vexRow_eq_runMove l st o s, operandOf_vexRow l st o s, exec_vexRow_eq_runMove l st o _⟩
  · exact ⟨_, _, _, _, exec_evexRow_eq_runMove w vl st o s, operandOf_evexRow w vl st o s,
      exec_evexRow_eq_runMove w vl st o _⟩

/-- One access behaves as before the replacement: the same checks, the same value loaded, the same bytes stored. Other
accesses may not, which `Untouched` would exclude. -/
structure State.AccessKept (s : State) (kind : AccessKind) (a : Access) : Prop where
  check : (s.replaced fm fc fp fd).accessCheck kind a = s.accessCheck kind a
  load : kind = .read → (s.replaced fm fc fp fd).loadOperand a = s.loadOperand a
  store : kind = .write → ∀ v, (s.replaced fm fc fp fd).storeOperand a v = (s.storeOperand a v).replaced fm fc fp fd

section
variable {fm fc fp fd} {s : State} {mv : Move} {ad : Addr}

theorem loadMem_replaced (h : s.AccessKept fm fc fp fd .read (s.access mv ad)) (d : VReg) :
    loadMem mv d ad (s.replaced fm fc fp fd) = mapOut (State.replaced fm fc fp fd) (loadMem mv d ad s) := by
  have ha : (s.replaced fm fc fp fd).access mv ad = s.access mv ad := rfl
  simp only [loadMem, ha, h.check, h.load rfl]
  cases s.accessCheck .read (s.access mv ad) with
  | some st => cases st <;> rfl
  | none =>
    exact congrArg (fun t : State => (.next (t.retire mv.len) : Out))
      (State.advanceChoice_replaced fm fc fp fd (s.setVec d (mv.result (s.loadOperand (s.access mv ad)) (s.vec d))) _)

theorem storeMem_replaced (h : s.AccessKept fm fc fp fd .write (s.access mv ad)) (r : VReg) :
    storeMem mv ad r (s.replaced fm fc fp fd) = mapOut (State.replaced fm fc fp fd) (storeMem mv ad r s) := by
  have ha : (s.replaced fm fc fp fd).access mv ad = s.access mv ad := rfl
  simp only [storeMem, ha, h.check, h.store rfl]
  cases s.accessCheck .write (s.access mv ad) with
  | some st => cases st <;> rfl
  | none =>
    exact congrArg (fun t : State => (.next (t.retire mv.len) : Out))
      (State.advanceChoice_replaced fm fc fp fd _ (s.access mv ad))

end

/-- An instruction whose memory operand, if any, behaves as before the replacement has the same outcome, up to it. -/
theorem exec_replaced {i : Instr} {s : State}
    (h : ∀ kind a, operandOf i s = some (kind, a) → s.AccessKept fm fc fp fd kind a) :
    exec i (s.replaced fm fc fp fd) = mapOut (State.replaced fm fc fp fd) (exec i s) := by
  obtain ⟨mv, store, reg, rm, he, ho, he'⟩ := exec_replaced_eq_runMove fm fc fp fd i s
  rw [he, he']
  rw [ho] at h
  cases rm with
  | reg n => cases store <;> exact guarded_mapOut mv.ud rfl rfl rfl
  | mem ad =>
    cases store with
    | false => exact guarded_mapOut mv.ud rfl rfl (loadMem_replaced (h _ _ rfl) reg)
    | true => exact guarded_mapOut mv.ud rfl rfl (storeMem_replaced (h _ _ rfl) reg)

end

/-- Memory that agrees on the accessed bytes keeps a load (R35). -/
theorem State.accessKept_mem {s : State} {a : Access} {m : Memory}
    (h : ∀ b, a.reaches b → m.read (s.bytePa .read a.la b).toNat = s.byteAt (s.bytePa .read a.la b).toNat) :
    s.AccessKept (fun _ => m) id id id .read a where
  check := rfl
  load _ := Memory.readBytes_congr fun b _ hs => h b (Access.byteSelected_iff.1 hs)
  store hk := by simp at hk

/-- Translations that agree on the accessed bytes, and for a store on fetches of the program, keep an access. -/
theorem State.accessKept_translate {s : State} {kind : AccessKind} {a : Access} {fc : BitVec 2 → BitVec 2}
    {fp : List PageRule → List PageRule} {fd : PageDefault → PageDefault}
    (hsh : 0 < a.sh.elem ∧ a.sh.elem * a.sh.kl = a.sh.bytes)
    (h : ∀ b, a.reaches b →
      (s.replaced id fc fp fd).translate (byteAddr a.la b) kind = s.translate (byteAddr a.la b) kind)
    (hfetch : kind = .write → ∀ x : Word, s.inProgram x.toNat = true →
      (s.replaced id fc fp fd).translate x .fetch = s.translate x .fetch) : s.AccessKept id fc fp fd kind a := by
  have hpa : ∀ b, a.byteSelected b = true → (s.replaced id fc fp fd).bytePa kind a.la b = s.bytePa kind a.la b :=
    fun b hs => State.physAddr_congr (h b (Access.byteSelected_iff.1 hs))
  refine ⟨State.accessCheck_congr rfl rfl (State.translateCheck_congr hsh h) ?_, ?_, ?_⟩
  · rintro rfl
    exact State.hitsProgram_congr (fun _ => rfl) h (hfetch rfl)
  · rintro rfl
    exact Memory.readBytes_congr fun b _ hs => by rw [hpa b hs]; rfl
  · rintro rfl v
    have hmem : (s.replaced id fc fp fd).mem.writeBytes ((s.replaced id fc fp fd).bytePa .write a.la) v a.byteSelected
        a.sh.bytes = s.mem.writeBytes (s.bytePa .write a.la) v a.byteSelected a.sh.bytes :=
      Memory.writeBytes_congr fun b _ hs => hpa b hs
    rw [State.storeOperand, hmem]
    rfl

end Sys2Proof.Machine
end

section
/-! Family 20_memory: the statements about memory, settled. -/

namespace Sys2Proof.Proofs

open Machine

/-- Settles O58: the step ran one instruction, whose frame keeps the program and `Translate`, and whose store, if any,
passed the test of R45. -/
theorem stepKeepsProgramBytes : Obligations.StepKeepsProgramBytes := by
  intro s t hs h
  obtain ⟨-, -, -, i, -, he, -⟩ := step_next h
  have hf := exec_next_frame he
  refine ⟨by rw [hf], fun x hx => State.fetchByte_congr (fun a kind => by rw [hf]; rfl) fun hlt pa ty hpa => ?_⟩
  exact exec_next_byteAt_program hs he (by rwa [BitVec.toNat_ofNat, Nat.mod_eq_of_lt hlt]) hpa

/-- Settles O26: the check of R39 step 1 comes before alignment, and the parameter names the fault. -/
theorem stackNonCanonicalMisaligned : Obligations.StackNonCanonicalMisaligned := by
  intro i s kind a hw he ho hss hal hcan
  have hsel := Access.someSelected_of_not_allCanonical (operandOf_shape ho) hcan
  have hexec : exec i s = .fault s.ssChoice :=
    exec_of_accessCheck_some hw he ho (State.accessCheck_ssChoice hsel hss hal hcan)
  rw [hexec]
  unfold State.ssChoice
  refine ⟨?_, fun hp => by rw [hp], fun hp => by rw [hp]⟩
  cases s.cfg.ssNoncanonMisaligned with
  | gp => exact .inl rfl
  | ss => exact .inr rfl
  | either => cases Config.freeSsNoncanonSs s.freeCtr <;> simp

/-- Settles O28: the first element that is not write-back stops the walk of R39 step 3; a store that it lets pass meets the
test of R45. -/
theorem refusedMemoryOperands : Obligations.RefusedMemoryOperands := by
  intro i s kind a hw he ho hal hcan
  have hsh := operandOf_shape ho
  refine ⟨fun j pa t hj hm ht hfirst hpa => ?_, ?_⟩
  · have htr : s.translateCheck kind a = some (.refuse (.memoryType t)) :=
      State.translateCheck_first (Access.mem_selected.2 ⟨hj, hm⟩)
        (fun j' hlt hm' => State.elementCheck_none.2 (Translation.isWriteBack_iff.2 (hfirst j' hlt hm')))
        (State.elementCheck_memoryType ht hpa)
    have hstop : s.accessCheck kind a = some (.refuse (.memoryType t)) := by
      rw [State.accessCheck_of_aligned ⟨j, hj, hm⟩ hal hcan, htr, Option.some_or]
    exact exec_of_accessCheck_some hw he ho hstop
  · rintro rfl hwb ⟨b, hb, hprog⟩
    have htr : s.translateCheck .write a = none := State.translateCheck_none.2 fun j hj =>
      Translation.isWriteBack_iff.2 (hwb _ (Access.reaches_of_selected hsh hj))
    have hhit : s.hitsProgram a = true := by
      refine State.hitsProgram_iff.2 ⟨b, hb, State.storesProgram_iff.2 ?_⟩
      obtain hin | ⟨x, t, hx, hxt⟩ := hprog
      · exact .inl hin
      · exact .inr ⟨x, hx, t, hxt⟩
    have hstop : s.accessCheck .write a = some (.refuse .storeIntoProgram) := by
      rw [State.accessCheck_of_aligned (Access.someSelected_of_reaches hsh hb) hal hcan, htr, if_pos ⟨rfl, hhit⟩,
        Option.none_or]
    exact exec_of_accessCheck_some hw he ho hstop

/-- Settles O29: an enabled row passes the tests before its operands, and a register copy has no other. -/
theorem registerCopyNeverFaults : Obligations.RegisterCopyNeverFaults :=
  fun _ _ hw he ho => exec_of_operandOf_none hw he ho

/-- Settles O57: the bytes of an aligned operand have one page, and an answer holds for its page. -/
theorem operandTranslatesAsOne : Obligations.OperandTranslatesAsOne := by
  intro s kind la vl i hal hi
  have hpage := byteAddr_page hal hi
  refine ⟨fun pa t h => ?_, fun code h => State.translate_pageFault_of_page h hpage⟩
  have hpa : pa = (pa.extractLsb' 12 52 ++ la.extractLsb' 0 12 : Word) := by
    rw [← State.translate_low h, page_offset_self]
  rw [hpa] at h
  rw [State.translate_of_page h hpage, byteAddr_frame _ hal hi, ← hpa]

/-- Settles O45: of memory a load reads its selected bytes, and a register copy nothing. -/
theorem unselectedBytesNotRead : Obligations.UnselectedBytesNotRead := by
  intro i s m h
  refine exec_replaced (fun _ => m) id id id fun kind a ho => ?_
  obtain ⟨rfl, hread⟩ := h kind a ho
  exact State.accessKept_mem hread

/-- Settles O46: an access reads `Translate` at its own bytes, and a store at the program's. -/
theorem unselectedBytesNotTranslated : Obligations.UnselectedBytesNotTranslated := by
  intro i s cpl pages dflt h
  refine exec_replaced id (fun _ => cpl) (fun _ => pages) (fun _ => dflt) fun kind a ho => ?_
  obtain ⟨htr, hfetch⟩ := h kind a ho
  exact State.accessKept_translate (operandOf_shape ho) htr hfetch

/-- Settles O40: with no element selected an access has one check, R32 (c), and touches no byte. -/
theorem emptyMaskOutcomes : Obligations.EmptyMaskOutcomes := by
  intro w vl st o a s hw he hrm hsel
  obtain ⟨-, -, -, hkl⟩ := evexShape_fits w vl
  have hen : enabledFor (evexRow w vl st o) s := enabledFor_evexRow.2 he
  obtain ⟨acc, hacc⟩ : ∃ acc, acc = s.access (evexMove vl ⟨vl.bytes, evexElem w⟩ st o s) a := ⟨_, rfl⟩
  have hop : operandOf (evexRow w vl st o) s = some (rowKind st, acc) := by
    rw [operandOf_evexRow, hrm, hacc]; rfl
  have hcheck : s.accessCheck (rowKind st) acc =
      if acc.misaligned && s.zeroMaskFaults then some (.fault .gp) else none :=
    State.accessCheck_of_mask_zero (by rw [hacc]; exact effectiveMask_eq_zero hkl hsel)
  have hmis : acc.misaligned = false ↔ (evexAddr vl s o a).toNat % vl.bytes = 0 := by
    rw [Access.misaligned_eq_false, hacc]; rfl
  have hnext : (acc.misaligned && s.zeroMaskFaults) = false → ∃ t, exec (evexRow w vl st o) s = .next t :=
    fun h => exec_of_accessCheck_none hw hen hop (by rw [hcheck, h]; rfl)
  have hgp : (acc.misaligned && s.zeroMaskFaults) = true → exec (evexRow w vl st o) s = .fault .gp :=
    fun h => exec_of_accessCheck_some hw hen hop (st := .fault .gp) (by rw [hcheck, h]; rfl)
  refine ⟨?_, fun hal hp => ?_, ?_, fun t h => ?_⟩
  · rintro (hal | hp)
    · exact hnext (by rw [hmis.2 hal, Bool.false_and])
    · exact hnext (by simp [State.zeroMaskFaults, hp])
  · have hm : acc.misaligned = true := by rwa [← Bool.not_eq_false, hmis]
    exact hgp (by simp [State.zeroMaskFaults, hp, hm])
  · cases hf : acc.misaligned && s.zeroMaskFaults with
    | true => exact .inl (hgp hf)
    | false => exact .inr (hnext hf)
  · obtain ⟨hmem, hvec⟩ := exec_evexRow_empty_next hrm hsel h
    have hframe := exec_next_frame h
    rw [hmem, evexRow_len] at hframe
    exact ⟨hframe, hvec⟩

end Sys2Proof.Proofs
end

section
/-! SUPPORT. What the decoder accepts is well-formed, and lies inside the bytes given. -/

namespace Sys2Proof

/-! ## The bytes of a scan of prefixes -/

theorem Prefix.byte_of_ofByte {b : Byte} {p : Prefix} (h : Prefix.ofByte b = some p) : p.byte = b := by
  have hall : ∀ b : Byte, ∀ p ∈ Prefix.ofByte b, p.byte = b := by decide +kernel
  exact hall b p h

/-- A scan splits a byte list into its prefixes' bytes and the bytes after them. -/
theorem scanPrefixes_bytes (bs : List Byte) : bs = (scanPrefixes bs).1.map Prefix.byte ++ (scanPrefixes bs).2 := by
  induction bs with
  | nil => rfl
  | cons b bs ih =>
    simp only [scanPrefixes]
    split
    · next p hp => simp [Prefix.byte_of_ofByte hp, ← ih]
    · rfl

/-! ## Operands -/

theorem getLsbD_ext5 (h e : Bool) (r : BitVec 3) : (ext5 h e r).getLsbD 4 = h ∧ (ext5 h e r).getLsbD 3 = e := by
  revert h e r; decide

/-- Without REX, a legacy operand uses no register-extension bit and no other byte is taken for REX (R52). -/
theorem legOps_rexFits {ps : List Prefix} {reg3 : BitVec 3} {rm : Operand} {bs : List Byte}
    (h : parseOperand (((splitRex ps).2.getD 0).getLsbD 1) (((splitRex ps).2.getD 0).getLsbD 0) false bs =
      some (reg3, rm)) : (legOps ps reg3 rm).rexFits := by
  intro hrex
  obtain ⟨hsplit, hend⟩ | ⟨qs, w, -, hsplit⟩ := splitRex_cases ps
  · rw [hsplit] at h
    obtain ⟨-, -, -, hX, hB⟩ := parseOperand_spec h
    refine ⟨?_, ?_, hX (by simp) rfl, hB (by simp)⟩
    · rwa [legOps, hsplit]
    · simp only [legOps, hsplit]
      exact (getLsbD_ext5 _ _ _).2
  · simp [legOps, hsplit] at hrex

/-- Splitting off REX loses no other prefix. -/
theorem mem_splitRex {p : Prefix} (hp : ∀ w, p ≠ .rex w) (ps : List Prefix) : p ∈ (splitRex ps).1 ↔ p ∈ ps := by
  obtain ⟨hsplit, -⟩ | ⟨qs, w, rfl, hsplit⟩ := splitRex_cases ps
  · rw [hsplit]
  · simp [hsplit, hp]

/-! ## Decoded instructions, by format -/

section
variable {ps : List Prefix} {bs : List Byte} {i : Instr}

theorem decodeLeg_wellFormed (h : decodeLeg ps bs = .insn i) : i.WellFormed ∧ i.len ≤ ps.length + (1 + bs.length) := by
  obtain ⟨_, tail, st, reg3, rm, rfl, -, h66, hF2, hF3, hlock, hparse, hlen, rfl⟩ := decodeLeg_insn h
  obtain ⟨hrm, hsize, hlow, -, -⟩ := parseOperand_spec hparse
  have hmem := fun {p : Prefix} (hp : ∀ w, p ≠ .rex w) => mem_splitRex hp ps
  rw [legRow_wellFormed, legRow_len, legOps_len]
  refine ⟨⟨(hmem (by simp)).2 h66, fun hm => hF2 ((hmem (by simp)).1 hm), fun hm => hF3 ((hmem (by simp)).1 hm),
    fun hm => hlock ((hmem (by simp)).1 hm), legOps_rexFits hparse, (getLsbD_ext5 _ _ _).1, hlow rfl, hrm,
    (legOps_len _ _ _).trans_le hlen⟩, ?_⟩
  simp only [List.length_cons] at hsize ⊢
  omega

theorem decodeVex_wellFormed {three r x b : Bool} {last op : Byte}
    (hthree : three = false → x = false ∧ b = false) (h : decodeVex ps three r x b last op bs = .insn i) :
    i.WellFormed ∧ i.len ≤ ps.length + (if three then 4 else 3) + bs.length := by
  obtain ⟨st, reg3, rm, -, hparse, hpre, hlen, rfl⟩ := decodeVex_insn h
  obtain ⟨hrm, hsize, hlow, hX, hB⟩ := parseOperand_spec hparse
  rw [vexRow_wellFormed, vexRow_len]
  refine ⟨⟨hpre, fun ht => ?_, (getLsbD_ext5 _ _ _).1, hlow rfl, hrm, hlen⟩, ?_⟩
  · obtain ⟨hx, hb⟩ := hthree ht
    exact ⟨hX hx rfl, hB hb⟩
  · simpa [VexOps.len] using hsize

theorem decodeVex2_wellFormed (h : decodeVex2 ps bs = .insn i) : i.WellFormed ∧ i.len ≤ ps.length + (1 + bs.length) := by
  obtain ⟨_, _, tail, rfl, hv⟩ := decodeVex2_insn h
  obtain ⟨hw, hlen⟩ := decodeVex_wellFormed (fun _ => ⟨rfl, rfl⟩) hv
  refine ⟨hw, hlen.trans_eq ?_⟩
  simp only [List.length_cons, Bool.false_eq_true, if_false]
  omega

theorem decodeVex3_wellFormed (h : decodeVex3 ps bs = .insn i) : i.WellFormed ∧ i.len ≤ ps.length + (1 + bs.length) := by
  obtain ⟨_, _, _, tail, rfl, hv⟩ := decodeVex3_insn h
  obtain ⟨hw, hlen⟩ := decodeVex_wellFormed (by simp) hv
  refine ⟨hw, hlen.trans_eq ?_⟩
  simp only [List.length_cons, if_true]
  omega

theorem decodeEvex_wellFormed (h : decodeEvex ps bs = .insn i) : i.WellFormed ∧ i.len ≤ ps.length + (1 + bs.length) := by
  obtain ⟨p0, p1, p2, op, tail, reg3, rm, vl, rfl, hparse, hud, hz, hlen, rfl⟩ := decodeEvex_insn h
  obtain ⟨hrm, hsize, -, -, -⟩ := parseOperand_spec hparse
  simp only [evexPrefixUd, Bool.or_eq_false_iff] at hud
  obtain ⟨⟨⟨⟨⟨hpre, -⟩, -⟩, -⟩, -⟩, hmask⟩ := hud
  rw [evexRow_wellFormed, evexRow_len]
  refine ⟨⟨hpre, fun hz1 => ⟨fun haaa => ?_, fun hst => ?_⟩, hrm, hlen⟩, ?_⟩
  · simp only at hz1 haaa
    simp [hz1, haaa, -BitVec.getLsbD_eq_getElem] at hmask
  · simp only at hz1
    simpa only [hz1, hst, Bool.true_and] using hz
  · simp only [EvexOps.len, List.length_cons] at hsize ⊢
    omega

end

/-- What the decoder accepts is well-formed and inside the bytes given (R78). -/
theorem decode_insn_wellFormed {bs : List Byte} {i : Instr} (h : decode bs = .insn i) :
    i.WellFormed ∧ i.len ≤ bs.length := by
  rw [scanPrefixes_spec bs]
  obtain ⟨_, tail, htail, hfmt⟩ := decodeOpcode_insn h
  rw [htail, List.length_cons, Nat.add_comm tail.length]
  obtain ⟨-, hd⟩ | ⟨-, hd⟩ | ⟨-, hd⟩ | ⟨-, hd⟩ := hfmt
  · exact decodeLeg_wellFormed hd
  · exact decodeVex2_wellFormed hd
  · exact decodeVex3_wellFormed hd
  · exact decodeEvex_wellFormed hd

end Sys2Proof
end

section
/-! SUPPORT. What the decoder answers on bytes that are no instruction of the family, and on an instruction with more
prefixes (R68 to R73). -/

namespace Sys2Proof

open Machine

/-! ## Prefixes before VEX and EVEX -/

theorem endsInRex_iff {ps : List Prefix} : endsInRex ps = true ↔ ∃ w, ps.getLast? = some (.rex w) := by
  unfold endsInRex splitRex
  split
  · next w hw => simp [hw]
  · next hno => simpa using hno

theorem forbiddenBeforeVex_iff {ps : List Prefix} : forbiddenBeforeVex ps = true ↔
    Prefix.opSize ∈ ps ∨ Prefix.repne ∈ ps ∨ Prefix.rep ∈ ps ∨ Prefix.lock ∈ ps ∨
      ∃ w, ps.getLast? = some (.rex w) := by
  simp only [forbiddenBeforeVex, Bool.or_eq_true, List.contains_iff_mem, endsInRex_iff, or_assoc]

/-- Segment overrides and 67H may stand before the prefixes of a VEX instruction (R70). -/
theorem forbiddenBeforeVex_append {ps qs : List Prefix}
    (hps : ∀ p ∈ ps, p = .segCs ∨ p = .segSs ∨ p = .segDs ∨ p = .segEs ∨ p = .segFs ∨ p = .segGs ∨ p = .addrSize)
    (hqs : forbiddenBeforeVex qs = false) : forbiddenBeforeVex (ps ++ qs) = false := by
  rw [← Bool.not_eq_true, forbiddenBeforeVex_iff] at hqs ⊢
  simp only [List.mem_append, not_or] at hqs ⊢
  obtain ⟨h66, hF2, hF3, hF0, hrex⟩ := hqs
  refine ⟨⟨fun hm => ?_, h66⟩, ⟨fun hm => ?_, hF2⟩, ⟨fun hm => ?_, hF3⟩, ⟨fun hm => ?_, hF0⟩, ?_⟩
  · simpa using hps _ hm
  · simpa using hps _ hm
  · simpa using hps _ hm
  · simpa using hps _ hm
  · rintro ⟨w, hw⟩
    rw [List.getLast?_append, Option.or_eq_some_iff] at hw
    obtain hw | ⟨-, hw⟩ := hw
    · exact hrex ⟨w, hw⟩
    · simpa using hps _ (List.mem_of_getLast? hw)

/-! ## Bytes that are no instruction of the family -/

section
variable (ps : List Prefix) (bs : List Byte)

theorem decode_leg : decode (ps.map Prefix.byte ++ 0x0F :: bs) = decodeLeg ps bs :=
  decode_prefixes ps bs (opcodeStart_not_prefix (by simp))

theorem decode_vex2 : decode (ps.map Prefix.byte ++ 0xC5 :: bs) = decodeVex2 ps bs :=
  decode_prefixes ps bs (opcodeStart_not_prefix (by simp))

theorem decode_vex3 : decode (ps.map Prefix.byte ++ 0xC4 :: bs) = decodeVex3 ps bs :=
  decode_prefixes ps bs (opcodeStart_not_prefix (by simp))

theorem decode_evex : decode (ps.map Prefix.byte ++ 0x62 :: bs) = decodeEvex ps bs :=
  decode_prefixes ps bs (opcodeStart_not_prefix (by simp))

end

theorem opcodeStore_of_opcode {op : Byte} (h : op = 0x6F ∨ op = 0x7F) : opcodeStore op = some (op == 0x7F) := by
  obtain rfl | rfl := h <;> rfl

theorem decodeLeg_notThisFamily {ps : List Prefix}
    (h : Prefix.opSize ∉ ps ∨ Prefix.repne ∈ ps ∨ Prefix.rep ∈ ps)
    (op : Byte) (tail : List Byte) : decodeLeg ps (op :: tail) = .notThisFamily := by
  have hpre : (ps.contains .rep || ps.contains .repne || !ps.contains .opSize) = true := by
    simp only [Bool.or_eq_true, Bool.not_eq_true', List.contains_iff_mem, ← Bool.not_eq_true]
    tauto
  simp only [decodeLeg, hpre, if_true]
  cases opcodeStore op <;> rfl

theorem decodeVex_notThisFamily {last : Byte} (h : last.extractLsb' 0 2 ≠ 1) (ps : List Prefix) (three r x b : Bool)
    (op : Byte) (tail : List Byte) : decodeVex ps three r x b last op tail = .notThisFamily := by
  unfold decodeVex
  split
  · rfl
  · exact if_pos h

theorem decodeEvex_notThisFamily {p0 p1 : Byte} (hfixed : evexFixedBad p0 p1 = false)
    (h : p0.extractLsb' 0 2 ≠ 1#2 ∨ p1.extractLsb' 0 2 ≠ 1#2) (ps : List Prefix) (p2 op : Byte) (tail : List Byte) :
    decodeEvex ps (p0 :: p1 :: p2 :: op :: tail) = .notThisFamily := by
  obtain h | h := h <;> simp [decodeEvex, hfixed, h]

/-! ## Undefined bytes of the family -/

/-- A VEX encoding of the family with a reserved `vvvv` or a forbidden prefix is undefined, whatever its operand. -/
theorem decodeVex_undefined {ps : List Prefix} {last op : Byte} {tail : List Byte} (hop : op = 0x6F ∨ op = 0x7F)
    (htail : 6 ≤ tail.length) (hpp : last.extractLsb' 0 2 = 1)
    (hud : forbiddenBeforeVex ps = true ∨ last.extractLsb' 3 4 ≠ 0xF#4) (three r x b : Bool) :
    decodeVex ps three r x b last op tail =
      undefinedBytes (ps.length + (if three then 4 else 3) + modrmSize tail) := by
  have hbad : (forbiddenBeforeVex ps || last.extractLsb' 3 4 != 0xF#4) = true := by simpa using hud
  obtain ⟨⟨reg3, rm⟩, hparse⟩ := parseOperand_of_six x b false htail
  simp only [decodeVex, opcodeStore_of_opcode hop]
  rw [if_neg (not_not_intro hpp), hparse, ← parseOperand_size hparse, ← conclude_undefined, ← hbad]

section
variable {ps : List Prefix} {op : Byte} {tail : List Byte} (hop : op = 0x6F ∨ op = 0x7F) (htail : 6 ≤ tail.length)
include hop htail

theorem decode_vex2_undefined {p : Byte} (hpp : p.extractLsb' 0 2 = 1)
    (hud : forbiddenBeforeVex ps = true ∨ p.extractLsb' 3 4 ≠ 0xF#4) :
    decode (ps.map Prefix.byte ++ 0xC5 :: p :: op :: tail) = undefinedBytes (ps.length + 3 + modrmSize tail) := by
  rw [decode_vex2]
  exact decodeVex_undefined hop htail hpp hud false _ _ _

theorem decode_vex3_undefined {p1 p2 : Byte} (hmap : p1.extractLsb' 0 5 = 1) (hpp : p2.extractLsb' 0 2 = 1)
    (hud : forbiddenBeforeVex ps = true ∨ p2.extractLsb' 3 4 ≠ 0xF#4) :
    decode (ps.map Prefix.byte ++ 0xC4 :: p1 :: p2 :: op :: tail) =
      undefinedBytes (ps.length + 4 + modrmSize tail) := by
  rw [decode_vex3, decodeVex3, if_neg (not_not_intro hmap)]
  exact decodeVex_undefined hop htail hpp hud true _ _ _

/-- An EVEX encoding of the family with a reserved field is undefined. The last condition is about its operand, which is
read first (R69). -/
theorem decode_evex_undefined {p0 p1 p2 : Byte} (hmap : p0.extractLsb' 0 2 = 1#2) (hpp : p1.extractLsb' 0 2 = 1#2)
    (hud : ∀ x b x4 reg3 rm, parseOperand x b x4 tail = some (reg3, rm) → evexFixedBad p0 p1 = true ∨
      evexPrefixUd ps p1 p2 = true ∨ p2.getLsbD 7 = true ∧ op = 0x7F ∧ rm.isMem = true) :
    decode (ps.map Prefix.byte ++ 0x62 :: p0 :: p1 :: p2 :: op :: tail) =
      undefinedBytes (ps.length + 5 + modrmSize tail) := by
  obtain ⟨⟨reg3, rm⟩, hparse⟩ := parseOperand_of_six (!p0.getLsbD 6) (!p0.getLsbD 5) (!p0.getLsbD 6) htail
  have hbad : (evexFixedBad p0 p1 || evexPrefixUd ps p1 p2 ||
      (p2.getLsbD 7 && (opcodeStore op == some true) && rm.isMem)) = true := by
    obtain h | h | ⟨hz, rfl, hm⟩ := hud _ _ _ _ _ hparse
    · rw [h, Bool.true_or, Bool.true_or]
    · rw [h, Bool.or_true, Bool.true_or]
    · rw [hz, hm]; exact Bool.or_true _
  have hfamily : (!evexFixedBad p0 p1 && (p0.extractLsb' 0 2 != 1#2 || p1.extractLsb' 0 2 != 1#2 ||
      (opcodeStore op).isNone)) = false := by simp [hmap, hpp, opcodeStore_of_opcode hop]
  simp only [decode_evex, decodeEvex, hfamily, Bool.false_eq_true, if_false, hparse, hbad, conclude_undefined,
    ← parseOperand_size hparse]

end

/-- An operand is memory where `mod` is not 11b (R59). -/
theorem parseOperand_isMem {x b x4 : Bool} {m : Byte} {tail : List Byte} {r : BitVec 3 × Operand}
    (h : parseOperand x b x4 (m :: tail) = some r) (hm : m.extractLsb' 6 2 ≠ 3) : r.2.isMem = true := by
  simp only [parseOperand] at h
  rw [if_neg hm] at h
  split_ifs at h
  all_goals
    obtain ⟨a, -, rfl⟩ := Option.map_eq_some_iff.1 h
    rfl

/-! ## Fields without effect -/

/-- Of its last prefix byte a VEX instruction reads `pp`, `L` and `vvvv`; bit 7 is read elsewhere or not at all (R70). -/
theorem decodeVex_last_congr {p q : Byte} (hpp : p.extractLsb' 0 2 = q.extractLsb' 0 2)
    (hl : p.getLsbD 2 = q.getLsbD 2) (hv : p.extractLsb' 3 4 = q.extractLsb' 3 4) (ps : List Prefix)
    (three r x b : Bool) (op : Byte) (tail : List Byte) :
    decodeVex ps three r x b p op tail = decodeVex ps three r x b q op tail := by
  simp only [decodeVex, hpp, hl, hv]

theorem setW_fields (p : Byte) : (p ||| 0x80).extractLsb' 0 2 = (p &&& 0x7F).extractLsb' 0 2 ∧
    (p ||| 0x80).getLsbD 2 = (p &&& 0x7F).getLsbD 2 ∧ (p ||| 0x80).extractLsb' 3 4 = (p &&& 0x7F).extractLsb' 3 4 := by
  revert p; decide +kernel

/-! ## More prefixes before an encoding -/

theorem encodeLeg_prepend (ps : List Prefix) (st : Bool) (o : LegOps) :
    encodeLeg st { o with pre := ps ++ o.pre } = ps.map Prefix.byte ++ encodeLeg st o := by
  simp [encodeLeg, LegOps.rexByte]

theorem encodeVex_prepend (ps : List Prefix) (l st : Bool) (o : VexOps) :
    encodeVex l st { o with pre := ps ++ o.pre } = ps.map Prefix.byte ++ encodeVex l st o := by
  simp [encodeVex]

theorem encodeEvex_prepend (ps : List Prefix) (w : Bool) (vl : VLen) (st : Bool) (o : EvexOps) :
    encodeEvex w vl st { o with pre := ps ++ o.pre } = ps.map Prefix.byte ++ encodeEvex w vl st o := by
  simp [encodeEvex]

/-- Prefixes before a list that is not empty leave its last one last. -/
theorem endsInRex_append {ps qs : List Prefix} (h : qs ≠ []) : endsInRex (ps ++ qs) = endsInRex qs := by
  rw [Bool.eq_iff_iff, endsInRex_iff, endsInRex_iff, List.getLast?_append_of_ne_nil ps h]

section
variable (ps : List Prefix) (rest : List Byte)

theorem decode_prefixed_leg {st : Bool} {o : LegOps} (hw : (legRow st o).WellFormed) (hF2 : Prefix.repne ∉ ps)
    (hF3 : Prefix.rep ∉ ps) : decode (ps.map Prefix.byte ++ (encode (legRow st o) ++ rest)) = conclude (ps.length + o.len)
      ((ps ++ o.pre).contains .lock) (some (legRow st { o with pre := ps ++ o.pre })) := by
  obtain ⟨h66, hnF2, hnF3, -, hrex, hreg, hlow, hrm, -⟩ := (legRow_wellFormed st o).1 hw
  have hlen : ({ o with pre := ps ++ o.pre } : LegOps).len = ps.length + o.len := by
    simp only [LegOps.len, List.length_append]; omega
  have hfits : ({ o with pre := ps ++ o.pre } : LegOps).rexFits := fun h => by
    simpa only [endsInRex_append (List.ne_nil_of_mem h66)] using hrex h
  rw [encode_legRow, ← List.append_assoc, ← encodeLeg_prepend, decode_encodeLeg st _ rest
    (List.mem_append_right _ h66) (by simp [hF2, hnF2]) (by simp [hF3, hnF3]) hfits hreg hlow hrm, hlen]

theorem decode_prefixed_vex {l st : Bool} {o : VexOps} (hw : (vexRow l st o).WellFormed) :
    decode (ps.map Prefix.byte ++ (encode (vexRow l st o) ++ rest)) = conclude (ps.length + o.len)
      (forbiddenBeforeVex (ps ++ o.pre)) (some (vexRow l st { o with pre := ps ++ o.pre })) := by
  obtain ⟨-, hthree, hreg, hlow, hrm, -⟩ := (vexRow_wellFormed l st o).1 hw
  have hlen : ({ o with pre := ps ++ o.pre } : VexOps).len = ps.length + o.len := by
    simp only [VexOps.len, List.length_append]; omega
  rw [encode_vexRow, ← List.append_assoc, ← encodeVex_prepend,
    decode_encodeVex l st { o with pre := ps ++ o.pre } rest hthree hreg hlow hrm, hlen]

theorem decode_prefixed_evex {w : Bool} {vl : VLen} {st : Bool} {o : EvexOps} (hw : (evexRow w vl st o).WellFormed) :
    decode (ps.map Prefix.byte ++ (encode (evexRow w vl st o) ++ rest)) = conclude (ps.length + o.len)
      (forbiddenBeforeVex (ps ++ o.pre)) (some (evexRow w vl st { o with pre := ps ++ o.pre })) := by
  obtain ⟨-, hz, hrm, -⟩ := (evexRow_wellFormed w vl st o).1 hw
  have hlen : ({ o with pre := ps ++ o.pre } : EvexOps).len = ps.length + o.len := by
    simp only [EvexOps.len, List.length_append]; omega
  rw [encode_evexRow, ← List.append_assoc, ← encodeEvex_prepend,
    decode_encodeEvex w vl st { o with pre := ps ++ o.pre } rest hz hrm, hlen]

end

end Sys2Proof
end

section
/-! SUPPORT. More bytes than the decoder needs change nothing, and the bytes a step looks at are as many as it needs. -/

namespace Sys2Proof

/-! ## The decoder when more bytes follow -/

section
variable {ps : List Prefix} {bs : List Byte} (more : List Byte)

theorem decodeLeg_append (h : decodeLeg ps bs ≠ .truncated) : decodeLeg ps (bs ++ more) = decodeLeg ps bs := by
  match bs, h with
  | op :: tail, h =>
    simp only [decodeLeg, List.cons_append] at *
    split at h
    · rfl
    · split_ifs at h ⊢
      · rfl
      · split at h
        · exact absurd rfl h
        · next hparse => rw [parseOperand_append hparse]

theorem decodeVex_append {three r x b : Bool} {last op : Byte} (h : decodeVex ps three r x b last op bs ≠ .truncated) :
    decodeVex ps three r x b last op (bs ++ more) = decodeVex ps three r x b last op bs := by
  by_cases hpp : last.extractLsb' 0 2 ≠ 1
  · simp only [decodeVex_notThisFamily hpp]
  · simp only [decodeVex, if_neg hpp] at *
    split at h
    · rfl
    · split at h
      · exact absurd rfl h
      · next hparse => rw [parseOperand_append hparse]

theorem decodeVex2_append (h : decodeVex2 ps bs ≠ .truncated) : decodeVex2 ps (bs ++ more) = decodeVex2 ps bs := by
  match bs, h with
  | p :: op :: tail, h => exact decodeVex_append more h
  | [p], h => exact absurd rfl h
  | [], h => exact absurd rfl h

theorem decodeVex3_append (h : decodeVex3 ps bs ≠ .truncated) : decodeVex3 ps (bs ++ more) = decodeVex3 ps bs := by
  match bs, h with
  | p1 :: p2 :: op :: tail, h =>
    simp only [decodeVex3, List.cons_append] at *
    split_ifs at h ⊢
    · rfl
    · exact decodeVex_append more h
  | [p1, p2], h => exact absurd rfl h
  | [p1], h => exact absurd rfl h
  | [], h => exact absurd rfl h

theorem decodeEvex_append (h : decodeEvex ps bs ≠ .truncated) : decodeEvex ps (bs ++ more) = decodeEvex ps bs := by
  match bs, h with
  | p0 :: p1 :: p2 :: op :: tail, h =>
    simp only [decodeEvex, List.cons_append] at *
    split_ifs at h ⊢
    · rfl
    · split at h
      · exact absurd rfl h
      · next hparse => rw [parseOperand_append hparse]
  | [p0, p1, p2], h => exact absurd rfl h
  | [p0, p1], h => exact absurd rfl h
  | [p0], h => exact absurd rfl h
  | [], h => exact absurd rfl h

theorem decodeOpcode_append (h : decodeOpcode ps bs ≠ .truncated) :
    decodeOpcode ps (bs ++ more) = decodeOpcode ps bs := by
  match bs, h with
  | b :: tail, h =>
    simp only [decodeOpcode, List.cons_append] at *
    split_ifs at h ⊢
    · exact decodeLeg_append more h
    · exact decodeVex2_append more h
    · exact decodeVex3_append more h
    · exact decodeEvex_append more h
    · rfl

/-- An answer other than `truncated` stands when more bytes follow (R78). -/
theorem decode_append (h : decode bs ≠ .truncated) : decode (bs ++ more) = decode bs := by
  have hrest : (scanPrefixes bs).2 ≠ [] := fun e => h (by rw [decode, e]; rfl)
  rw [decode, decode, scanPrefixes_append more hrest]
  exact decodeOpcode_append more h

end

/-! ## How many bytes the decoder needs -/

theorem conclude_ne_truncated (len : Nat) (ud : Bool) (i : Option Instr) : conclude len ud i ≠ .truncated := by
  unfold conclude
  split_ifs
  · simp
  · simp
  · cases i <;> simp

theorem decodeVex_ne_truncated {ps : List Prefix} {three r x b : Bool} {last op : Byte} {tail : List Byte}
    (h : 6 ≤ tail.length) : decodeVex ps three r x b last op tail ≠ .truncated := by
  obtain ⟨⟨reg3, rm⟩, hparse⟩ := parseOperand_of_six x b false h
  by_cases hpp : last.extractLsb' 0 2 ≠ 1
  · simp [decodeVex_notThisFamily hpp]
  · simp only [decodeVex, if_neg hpp, hparse]
    split
    · simp
    · exact conclude_ne_truncated _ _ _

/-- Eleven bytes from the opcode on hold the longest format, EVEX with six bytes of operand (R50). -/
theorem decodeOpcode_ne_truncated (ps : List Prefix) {bs : List Byte} (h : 11 ≤ bs.length) :
    decodeOpcode ps bs ≠ .truncated := by
  match bs, h with
  | b :: b0 :: b1 :: b2 :: b3 :: tail, h =>
    have htail : 6 ≤ tail.length := by simpa using h
    simp only [decodeOpcode]
    split_ifs
    · obtain ⟨⟨reg3, rm⟩, hparse⟩ := parseOperand_of_six (((splitRex ps).2.getD 0).getLsbD 1)
        (((splitRex ps).2.getD 0).getLsbD 0) false (bs := b1 :: b2 :: b3 :: tail) (by simp only [List.length_cons]; omega)
      simp only [decodeLeg, hparse]
      split
      · simp
      · split_ifs
        · simp
        · exact conclude_ne_truncated _ _ _
    · exact decodeVex_ne_truncated (by simp only [List.length_cons]; omega)
    · simp only [decodeVex3]
      split_ifs
      · simp
      · exact decodeVex_ne_truncated (by simp only [List.length_cons]; omega)
    · obtain ⟨⟨reg3, rm⟩, hparse⟩ := parseOperand_of_six (!b0.getLsbD 6) (!b0.getLsbD 5) (!b0.getLsbD 6) htail
      simp only [decodeEvex, hparse]
      split_ifs
      · simp
      · exact conclude_ne_truncated _ _ _
    · simp

/-! ## How many prefixes can be fetched -/

theorem Prefix.byte_ne_unlisted (p : Prefix) : p.byte ≠ Machine.Memory.unlisted := by
  intro h
  have hp := p.ofByte_byte
  rw [h] at hp
  simp [Prefix.ofByte, Machine.Memory.unlisted] at hp

namespace Machine

/-- A byte other than an unlisted one is fetched from a page with a row, or from a listed address (log 4). -/
theorem State.fetchByte_listed {s : State} {a : Nat} {b : Byte} (h : s.fetchByte a = some b) (hb : b ≠ Memory.unlisted) :
    a ∈ s.mem.map (·.1) ∨ a / 4096 ∈ s.pages.map (·.page.toNat) := by
  unfold State.fetchByte at h
  split at h
  next ha =>
    have hnat : (BitVec.ofNat 64 a).toNat = a := by rw [BitVec.toNat_ofNat, Nat.mod_eq_of_lt ha]
    split at h
    · next pa hpa =>
      split_ifs at h
      obtain rfl : s.mem.read pa.toNat = b := Option.some.inj h
      unfold State.translate at hpa
      split at hpa
      · next r hr =>
        have hpage : r.page = (BitVec.ofNat 64 a).extractLsb' 12 52 := by
          have := List.find?_some hr
          simp only [Bool.and_eq_true, beq_iff_eq] at this
          exact this.1.1
        refine .inr (List.mem_map.2 ⟨r, List.mem_of_find?_eq_some hr, ?_⟩)
        rw [hpage, toNat_page, hnat]
      · obtain rfl : BitVec.ofNat 64 a = pa := by
          cases hd : s.pageDefault with
          | identity t => rw [hd] at hpa; exact (Translation.ok.inj hpa).1
          | pageFault code => simp [hd, PageDefault.answer] at hpa
        rw [hnat] at hb
        exact .inl (Memory.mem_of_read_ne hb)
    · simp at h
  next => simp at h

/-- The addresses of the pages with a row, 4096 each. -/
def State.rowAddresses (s : State) : Finset Nat :=
  (s.pages.map (·.page.toNat)).toFinset.biUnion fun p => (Finset.range 4096).image (4096 * p + ·)

theorem State.mem_rowAddresses {s : State} {a : Nat} (h : a / 4096 ∈ s.pages.map (·.page.toNat)) :
    a ∈ s.rowAddresses := by
  refine Finset.mem_biUnion.2 ⟨a / 4096, List.mem_toFinset.2 h, Finset.mem_image.2 ⟨a % 4096, ?_, ?_⟩⟩
  · exact Finset.mem_range.2 (Nat.mod_lt _ (by omega))
  · exact Nat.div_add_mod a 4096

theorem State.card_rowAddresses_le (s : State) : s.rowAddresses.card ≤ 4096 * s.pages.length := by
  calc s.rowAddresses.card ≤ (s.pages.map (·.page.toNat)).toFinset.card * 4096 :=
        Finset.card_biUnion_le_card_mul _ _ _ fun p _ => Finset.card_image_le.trans_eq (Finset.card_range 4096)
    _ ≤ s.pages.length * 4096 := Nat.mul_le_mul_right _ ((List.toFinset_card_le _).trans_eq (List.length_map _))
    _ = 4096 * s.pages.length := Nat.mul_comm _ _

/-- Bytes other than unlisted ones in a row are no more than the listed addresses and the addresses of pages with rows. -/
theorem State.run_length_le {s : State} {a k : Nat}
    (h : ∀ i < k, ∃ b, s.fetchByte (a + i) = some b ∧ b ≠ Memory.unlisted) :
    k ≤ s.mem.length + 4096 * s.pages.length := by
  have hsub : (Finset.range k).image (a + ·) ⊆ (s.mem.map (·.1)).toFinset ∪ s.rowAddresses := by
    intro x hx
    obtain ⟨i, hi, rfl⟩ := Finset.mem_image.1 hx
    obtain ⟨b, hfetch, hb⟩ := h i (Finset.mem_range.1 hi)
    obtain hm | hp := State.fetchByte_listed hfetch hb
    · exact Finset.mem_union_left _ (List.mem_toFinset.2 hm)
    · exact Finset.mem_union_right _ (State.mem_rowAddresses hp)
  calc k = ((Finset.range k).image (a + ·)).card := by
        rw [Finset.card_image_of_injective _ (add_right_injective a), Finset.card_range]
    _ ≤ ((s.mem.map (·.1)).toFinset ∪ s.rowAddresses).card := Finset.card_le_card hsub
    _ ≤ (s.mem.map (·.1)).toFinset.card + s.rowAddresses.card := Finset.card_union_le _ _
    _ ≤ s.mem.length + 4096 * s.pages.length :=
      Nat.add_le_add ((List.toFinset_card_le _).trans_eq (List.length_map _)) s.card_rowAddresses_le

/-- The prefixes at the head of the bytes a step looks at leave room for the bytes after them. -/
theorem State.prefixes_length_le (s : State) (n a : Nat) :
    (scanPrefixes (s.fetchBytes n a)).1.length ≤ s.mem.length + 4096 * s.pages.length := by
  refine State.run_length_le (a := a) fun i hi => ?_
  have hget : (s.fetchBytes n a)[i]? = some ((scanPrefixes (s.fetchBytes n a)).1[i].byte) := by
    conv_lhs => rw [scanPrefixes_bytes (s.fetchBytes n a)]
    rw [List.getElem?_append_left (by simpa using hi), List.getElem?_map, List.getElem?_eq_getElem hi, Option.map_some]
  exact ⟨_, State.fetchBytes_getElem hget, Prefix.byte_ne_unlisted _⟩

/-- A window of full length holds all the bytes the decoder needs. -/
theorem State.decode_full_window {s : State} (h : s.fetchWindow.length = s.fetchFuel) :
    decode s.fetchWindow ≠ .truncated := by
  have hsplit := scanPrefixes_spec s.fetchWindow
  have hpre : (scanPrefixes s.fetchWindow).1.length ≤ s.mem.length + 4096 * s.pages.length :=
    s.prefixes_length_le _ _
  rw [h, State.fetchFuel] at hsplit
  exact decodeOpcode_ne_truncated _ (by omega)

end Machine
end Sys2Proof
end

section
/-! SUPPORT. Effective and linear addresses (R62 to R66, R40), without and with a 67H prefix, and segment overrides. -/

namespace Sys2Proof.Machine

/-! ## Segments -/

/-- Prefixes without an FS or GS override leave the segment override as it was. -/
theorem segOverride_append {post : List Prefix} (hfs : Prefix.segFs ∉ post) (hgs : Prefix.segGs ∉ post)
    (pre : List Prefix) : segOverride (pre ++ post) = segOverride pre := by
  induction post using List.reverseRecOn with
  | nil => rw [List.append_nil]
  | append_singleton post p ih =>
    simp only [List.mem_append, List.mem_singleton, not_or] at hfs hgs
    obtain ⟨hfs, hpfs⟩ := hfs
    obtain ⟨hgs, hpgs⟩ := hgs
    rw [← List.append_assoc, segOverride_concat, if_neg (Ne.symm hpfs), if_neg (Ne.symm hpgs), ih hfs hgs]

theorem segOverride_fs {post : List Prefix} (hfs : Prefix.segFs ∉ post) (hgs : Prefix.segGs ∉ post) (pre : List Prefix) :
    segOverride (pre ++ .segFs :: post) = some .fs := by
  rw [List.append_cons, segOverride_append hfs hgs, segOverride_concat, if_pos rfl]

theorem segOverride_gs {post : List Prefix} (hfs : Prefix.segFs ∉ post) (hgs : Prefix.segGs ∉ post) (pre : List Prefix) :
    segOverride (pre ++ .segGs :: post) = some .gs := by
  rw [List.append_cons, segOverride_append hfs hgs, segOverride_concat, if_neg (by simp), if_pos rfl]

theorem segOf_of_override {pre : List Prefix} {sg : Seg} (h : segOverride pre = some sg) (a : Addr) :
    segOf pre a = sg := by
  simp only [segOf, h]

theorem segOf_of_no_override {pre : List Prefix} (h : segOverride pre = none) (a : Addr) :
    segOf pre a = if baseReg a = some 4 ∨ baseReg a = some 5 then .ss else .ds := by
  simp only [segOf, h]

/-! ## Without a 67H prefix -/

theorem dispValue_zero (n : Nat) : dispValue n .zero = 0 := rfl

theorem dispValue_one_d8 (d : BitVec 8) : dispValue 1 (.d8 d) = d.signExtend 64 :=
  BitVec.mul_one _

theorem State.addrReg_false (s : State) (r : GReg) : s.addrReg false r = s.gpr r := rfl

/-- A real index is the register times 2^scale (R64). -/
theorem State.indexValue_of_ne {s : State} {x : GReg} (hx : x ≠ 4) (sc : BitVec 2) :
    s.indexValue false x sc = s.gpr x * BitVec.ofNat 64 (2 ^ sc.toNat) := by
  simp only [State.indexValue, if_neg hx, State.addrReg_false]
  apply BitVec.eq_of_toNat_eq
  simp [Nat.shiftLeft_eq]

theorem State.indexValue_four (s : State) (a32 : Bool) (sc : BitVec 2) : s.indexValue a32 4 sc = 0 :=
  if_pos rfl

section
variable {pre : List Prefix} (hpre : Prefix.addrSize ∉ pre)
include hpre

theorem State.effectiveAddr_of_not_addrSize (s : State) (n : Nat) (next : Word) (a : Addr) :
    s.effectiveAddr pre n next a = s.addrSum false n next a := by
  simp [State.effectiveAddr, addr32, hpre]

/-- A displacement is added to the address of the form without one (R62, R64). -/
theorem State.linearAddr_base_disp (s : State) (n : Nat) (next : Word) (b : GReg) (d : Disp) :
    s.linearAddr pre n next (.base b d) = s.linearAddr pre n next (.base b .zero) + dispValue n d := by
  have hseg : segOf pre (.base b d) = segOf pre (.base b .zero) := rfl
  simp only [State.linearAddr, hseg, State.effectiveAddr_of_not_addrSize hpre, State.addrSum, dispValue_zero]
  ring

theorem State.linearAddr_sib_disp (s : State) (n : Nat) (next : Word) (b x : GReg) (sc : BitVec 2) (d : Disp) :
    s.linearAddr pre n next (.sib b x sc d) = s.linearAddr pre n next (.sib b x sc .zero) + dispValue n d := by
  have hseg : segOf pre (.sib b x sc d) = segOf pre (.sib b x sc .zero) := rfl
  simp only [State.linearAddr, hseg, State.effectiveAddr_of_not_addrSize hpre, State.addrSum, dispValue_zero]
  ring

theorem State.linearAddr_ripRel (s : State) (n : Nat) (next : Word) (d : BitVec 32) :
    s.linearAddr pre n next (.ripRel d) = s.segBase (segOf pre (.ripRel d)) + (next + d.signExtend 64) := by
  rw [State.linearAddr, State.effectiveAddr_of_not_addrSize hpre, State.addrSum]

end

/-- A scaled displacement keeps an aligned address aligned (R62). -/
theorem aligned_add_scaled {a : Word} {vl : VLen} (h : a.toNat % vl.bytes = 0) (x : Word) :
    (a + x * BitVec.ofNat 64 vl.bytes).toNat % vl.bytes = 0 := by
  rw [BitVec.toNat_add, BitVec.toNat_mul, BitVec.toNat_ofNat]
  cases vl <;> simp only [VLen.bytes] at h ⊢ <;> omega

/-! ## With a 67H prefix -/

/-- The low 32 bits of the sum of R64 are those of the sum of its parts' low 32 bits (R66). -/
theorem State.addrSum_low (s : State) (n : Nat) (next : Word) (a : Addr) :
    (s.addrSum true n next a).setWidth 32 = (s.addrSum false n next a).setWidth 32 := by
  have hreg : ∀ r, (s.addrReg true r).setWidth 32 = (s.addrReg false r).setWidth 32 := fun r => by
    simp [State.addrReg]
  have hindex : ∀ x sc, (s.indexValue true x sc).setWidth 32 = (s.indexValue false x sc).setWidth 32 := fun x sc => by
    unfold State.indexValue
    split
    · rfl
    · rw [BitVec.setWidth_shiftLeft_of_le (by omega), BitVec.setWidth_shiftLeft_of_le (by omega), hreg]
  have hadd : ∀ v w : Word, (v + w).setWidth 32 = v.setWidth 32 + w.setWidth 32 := fun v w =>
    BitVec.setWidth_add v w (by omega)
  cases a with
  | base b d => simp only [State.addrSum, hadd, hreg]
  | sib b x sc d => simp only [State.addrSum, hadd, hreg, hindex]
  | sibNoBase x sc d => simp only [State.addrSum, hadd, hindex]
  | ripRel d => rfl

end Sys2Proof.Machine
end

section
/-! SUPPORT. A move's first tests in another mode, a register copy's two directions, and the ways a step stops. -/

namespace Sys2Proof.Machine

/-- Outside 64-bit mode a move is #UD or refused by the mode's name (R74, log 12). -/
theorem runMove_otherMode {s : State} (h : s.mode ≠ .mode64) (mv : Move) (store : Bool) (reg : VReg) (rm : Operand) :
    runMove mv store reg rm s = .fault .ud ∨ runMove mv store reg rm s = .refused (.otherMode s.mode) := by
  have hguard : ∀ k, guarded mv.ud s k = .fault .ud ∨ guarded mv.ud s k = .refused (.otherMode s.mode) := fun k => by
    cases hud : mv.ud with
    | true => exact .inl rfl
    | false => exact .inr (by simp [guarded, h])
  cases store with
  | false => exact hguard _
  | true => exact hguard _

/-- A register copy through opcode 7FH is the copy through 6FH with the operand roles exchanged (R72 (a)). -/
theorem runMove_regCopy (mv : Move) (d r : VReg) (s : State) :
    runMove mv true r (.reg d) s = runMove mv false d (.reg r) s := rfl

/-! ## The ways a step stops -/

theorem step_otherMode {s : State} (h : s.mode ≠ .mode64) : step s = .refused (.otherMode s.mode) :=
  if_pos h

section
variable {s : State} (hm : s.mode = .mode64)
include hm

theorem step_singleStep (htf : s.flagTf = true) : step s = .refused .singleStepArmed := by
  simp [step, hm, htf]

theorem step_atEnd (htf : s.flagTf = false) (hend : s.atEnd = true) : step s = .refused .endOfProgram := by
  simp [step, hm, htf, hend]

section
variable (htf : s.flagTf = false) (hend : s.atEnd = false)
include htf hend

theorem step_insn {i : Instr} (h : decode s.fetchWindow = .insn i) : step s = s.fetched i.len (exec i s) := by
  simp [step, hm, htf, hend, h]

theorem step_ud {n : Nat} (h : decode s.fetchWindow = .ud n) : step s = s.fetched n (raise .ud) := by
  simp [step, hm, htf, hend, h]

theorem step_gp0 {n : Nat} (h : decode s.fetchWindow = .gp0 n) : step s = s.fetched n (raise .gp) := by
  simp [step, hm, htf, hend, h]

theorem step_notThisFamily (h : decode s.fetchWindow = .notThisFamily) : step s = .refused .notThisFamily := by
  simp [step, hm, htf, hend, h]

theorem step_truncated (h : decode s.fetchWindow = .truncated) : step s = .refused .fetchNotExecutable := by
  simp [step, hm, htf, hend, h]

end

end

section
variable {s : State} {n : Nat}

theorem State.fetched_notCanonical (h : s.fetchCanonical n = false) (out : Out) :
    s.fetched n out = .refused .fetchNotCanonical := by
  simp [State.fetched, h]

theorem State.fetched_outside (hc : s.fetchCanonical n = true) (hp : s.programHolds n = false) (out : Out) :
    s.fetched n out = .refused .outsideProgram := by
  simp [State.fetched, hc, hp]

theorem State.fetched_inside (hc : s.fetchCanonical n = true) (hp : s.programHolds n = true) (out : Out) :
    s.fetched n out = out := by
  simp [State.fetched, hc, hp]

end

end Sys2Proof.Machine
end

section
/-! Family 30_encoding: the statements about encoding, settled. -/

namespace Sys2Proof.Proofs

open Machine

/-- Settles O5: each format is read back field by field, and the length of a well-formed instruction lets it stand. -/
theorem decodeEncodeRoundTrip : Obligations.DecodeEncodeRoundTrip :=
  decode_encode_append

/-- Settles O6: the fields of each format's answer are those its operand and prefix tests let through. -/
theorem decodedInstructionsWellFormed : Obligations.DecodedInstructionsWellFormed := by
  intro bs i h
  obtain ⟨hw, hlen⟩ := decode_insn_wellFormed h
  obtain ⟨h4, h15⟩ := decode_insn_len h
  exact ⟨hw, h4, h15, hlen⟩

/-- Settles O8: a reserved `vvvv` is one of the #UD tests of each format. -/
theorem reservedVvvvUndefined : Obligations.ReservedVvvvUndefined := by
  refine ⟨fun ps p op tail hop htail hpp hv => ?_, fun ps p1 p2 op tail hop htail hmap hpp hv => ?_,
    fun ps p0 p1 p2 op tail hop htail hmap hpp hv => ?_⟩
  · exact decode_vex2_undefined hop htail hpp (.inr hv)
  · exact decode_vex3_undefined hop htail hmap hpp (.inr hv)
  · exact decode_evex_undefined hop htail hmap hpp fun _ _ _ _ _ _ => .inr (.inl (by simp [evexPrefixUd, hv]))

/-- Settles O9: each reserved value is one of the #UD tests of EVEX; the map and implied prefix are tested before. -/
theorem evexReservedFieldsUndefined : Obligations.EvexReservedFieldsUndefined := by
  intro ps p0 p1 p2 op m tail hop htail
  have hsix : 6 ≤ (m :: tail).length := by simpa using htail
  refine ⟨fun hmap hpp hres => ?_, fun hp0 hp1 hother => ?_⟩
  · refine decode_evex_undefined hop hsix hmap hpp fun _ _ _ _ _ hparse => ?_
    obtain h | h | h | h | h | ⟨hz, haaa⟩ | ⟨hz, hst, hm⟩ | hpre := hres
    · exact .inl (by simp [evexFixedBad, h])
    · exact .inl (by simp only [evexFixedBad, h]; simp)
    · exact .inr (.inl (by simp only [evexPrefixUd, h]; simp))
    · exact .inr (.inl (by simp only [evexPrefixUd, h]; simp))
    · exact .inr (.inl (by simp only [evexPrefixUd, h]; simp))
    · exact .inr (.inl (by simp only [evexPrefixUd, hz, haaa]; simp))
    · exact .inr (.inr ⟨hz, hst, parseOperand_isMem hparse hm⟩)
    · exact .inr (.inl (by simp only [evexPrefixUd, forbiddenBeforeVex_iff.2 hpre, Bool.true_or]))
  · have hfixed : evexFixedBad p0 p1 = false := by simp only [evexFixedBad, hp0, hp1]; rfl
    rw [decode_evex]
    exact decodeEvex_notThisFamily hfixed hother ps p2 op (m :: tail)

/-- Settles O10: forbidden prefixes are a #UD test of VEX, the map and implied prefix are tested before it, bit 7 of the
last prefix byte is not read, and other prefixes are only held. -/
theorem vexPrefixRules : Obligations.VexPrefixRules := by
  refine ⟨fun ps p1 p2 op tail hop htail hpre hpp => ?_, fun ps p1 p2 op tail => ⟨fun hpp => ?_, fun h => ?_⟩,
    fun ps p1 p2 op tail => ?_, fun ps l st o hps hw hlen => ?_⟩
  · have hforb := forbiddenBeforeVex_iff.2 hpre
    exact ⟨decode_vex2_undefined hop htail hpp (.inl hforb),
      fun hmap => decode_vex3_undefined hop htail hmap hpp (.inl hforb)⟩
  · rw [decode_vex2]
    exact decodeVex_notThisFamily hpp ps false _ _ _ op tail
  · rw [decode_vex3, decodeVex3]
    by_cases hmap : p1.extractLsb' 0 5 = 1
    · rw [decodeVex_notThisFamily (h.resolve_left (not_not_intro hmap)), ite_self]
    · rw [if_pos hmap]
  · obtain ⟨hpp, hl, hv⟩ := setW_fields p2
    simp only [decode_vex3, decodeVex3, decodeVex_last_congr hpp hl hv]
  · obtain ⟨hpre, -⟩ := (vexRow_wellFormed l st o).1 hw
    have hforb : forbiddenBeforeVex (ps ++ o.pre) = false := forbiddenBeforeVex_append hps hpre
    have hd := decode_prefixed_vex ps [] hw
    rwa [List.append_nil, hforb, conclude_of_le hlen] at hd

/-- Settles O11: the prefixes are tested before the operand is read. -/
theorem legacyOpcodeNeeds66Alone : Obligations.LegacyOpcodeNeeds66Alone := by
  intro ps op tail h
  rw [decode_leg]
  exact decodeLeg_notThisFamily h op tail

/-- Settles O12: an instruction with more prefixes is read as such, and the length fault comes before its other tests. -/
theorem overlongInstructionGp : Obligations.OverlongInstructionGp := by
  refine ⟨fun i ps rest hw hlong hF2 hF3 => ?_, fun l st o ps rest hw hlong => ?_,
    fun w vl st o ps rest hw hlong => ?_⟩
  · obtain ⟨st, o, rfl⟩ | ⟨l, st, o, rfl⟩ | ⟨w, vl, st, o, rfl⟩ := Instr.row_cases i
    · rw [legRow_len] at hlong ⊢
      rw [decode_prefixed_leg ps rest hw hF2 hF3, conclude_of_gt hlong]
    · rw [vexRow_len] at hlong ⊢
      rw [decode_prefixed_vex ps rest hw, conclude_of_gt hlong]
    · rw [evexRow_len] at hlong ⊢
      rw [decode_prefixed_evex ps rest hw, conclude_of_gt hlong]
  · rw [decode_prefixed_vex ps rest hw, conclude_of_gt hlong]
  · rw [decode_prefixed_evex ps rest hw, conclude_of_gt hlong]

/-- Settles O13: a window of full length holds more bytes than the prefixes that can be fetched and the longest format
take; a shorter one ends where no byte can be fetched. -/
theorem fetchWindowSuffices : Obligations.FetchWindowSuffices := by
  intro s n hn
  obtain ⟨m, rfl⟩ := Nat.exists_eq_add_of_le hn
  obtain ⟨hle, hend⟩ := s.fetchBytes_length s.fetchFuel s.rip.toNat
  obtain hshort | hfull := hle.lt_or_eq
  · refine ⟨?_, fun _ => hend hshort⟩
    rw [State.fetchBytes_add, if_neg hshort.ne, List.append_nil, State.fetchWindow]
  · have hdec : decode s.fetchWindow ≠ .truncated := State.decode_full_window hfull
    refine ⟨?_, fun h => absurd h hdec⟩
    rw [State.fetchBytes_add]
    exact decode_append _ hdec

/-- Settles O14: a displacement is one summand of the address, 1 or VL/8 the factor of an 8-bit one. -/
theorem displacementScaling : Obligations.DisplacementScaling := by
  intro s b x sc d d'
  have hone : ∀ {pre : List Prefix} (next : Word), Prefix.addrSize ∉ pre →
      s.linearAddr pre 1 next (.base b (.d8 d)) = s.linearAddr pre 1 next (.base b .zero) + d.signExtend 64 ∧
      s.linearAddr pre 1 next (.sib b x sc (.d8 d)) = s.linearAddr pre 1 next (.sib b x sc .zero) + d.signExtend 64 ∧
      s.linearAddr pre 1 next (.base b (.d32 d')) = s.linearAddr pre 1 next (.base b .zero) + d'.signExtend 64 ∧
      s.linearAddr pre 1 next (.sib b x sc (.d32 d')) = s.linearAddr pre 1 next (.sib b x sc .zero) + d'.signExtend 64 :=
    fun next hpre => by
      rw [← dispValue_one_d8]
      exact ⟨State.linearAddr_base_disp hpre s 1 next b _, State.linearAddr_sib_disp hpre s 1 next b x sc _,
        State.linearAddr_base_disp hpre s 1 next b _, State.linearAddr_sib_disp hpre s 1 next b x sc _⟩
  refine ⟨fun o hpre => hone _ hpre, fun o hpre => hone _ hpre, fun vl o hpre => ?_⟩
  have hbase := fun d => State.linearAddr_base_disp hpre s vl.bytes (s.rip + BitVec.ofNat 64 o.len) b d
  have hsib := fun d => State.linearAddr_sib_disp hpre s vl.bytes (s.rip + BitVec.ofNat 64 o.len) b x sc d
  refine ⟨hbase (.d8 d), hsib (.d8 d), hbase (.d32 d'), hsib (.d32 d'), fun hal => ?_, fun hal => ?_⟩
  · rw [evexAddr, hbase]
    exact aligned_add_scaled hal _
  · rw [evexAddr, hsib]
    exact aligned_add_scaled hal _

/-- Settles O17: the truncation of the parts is undone by that of the sum. -/
theorem addressSizePrefixTruncates : Obligations.AddressSizePrefixTruncates := by
  intro s pre pre' n next a hpre hpre'
  have h32 : addr32 pre = true := by simpa [addr32] using hpre
  rw [State.effectiveAddr_of_not_addrSize hpre', State.effectiveAddr, if_pos h32, State.addrSum_low]

/-- Settles O18: the prefixes after the last override leave it, and the other segments have base 0. -/
theorem segmentSelection : Obligations.SegmentSelection := by
  intro s pre post n next a
  refine ⟨fun hfs hgs => ?_, fun hfs hgs => ?_⟩
  · have hf := segOf_of_override (segOverride_fs hfs hgs pre) a
    have hg := segOf_of_override (segOverride_gs hfs hgs pre) a
    exact ⟨hf, hg, by rw [State.linearAddr, hf, State.segBase], by rw [State.linearAddr, hg, State.segBase]⟩
  · have hnone : segOverride pre = none := segOverride_append hfs hgs []
    have hseg := segOf_of_no_override hnone a
    have hbase : s.segBase (segOf pre a) = 0 := by
      rw [hseg]; split <;> rfl
    exact ⟨hseg, by rw [State.linearAddr, hbase]; exact BitVec.zero_add _⟩

/-- Settles O7: the four byte strings, decoded. -/
theorem decodesSpecBytes : Obligations.DecodesSpecBytes := by
  refine ⟨?_, ?_, ?_, ?_⟩ <;> decide +kernel

/-- Settles O15: the sum of R64 for each form. -/
theorem effectiveAddressForms : Obligations.EffectiveAddressForms := by
  intro s pre n next b x sc d d' hpre
  simp only [State.effectiveAddr_of_not_addrSize hpre, State.addrSum, State.addrReg_false, State.indexValue_four,
    add_zero]
  exact ⟨trivial, fun hx => by rw [State.indexValue_of_ne hx], trivial, fun hx => by rw [State.indexValue_of_ne hx],
    trivial⟩

/-- Settles O16: the linear address of a RIP-relative operand, `next` being `rip + len` in each format. -/
theorem ripRelativeFromNextInstruction : Obligations.RipRelativeFromNextInstruction :=
  fun s d => ⟨fun _ hpre => State.linearAddr_ripRel hpre s _ _ d, fun _ hpre => State.linearAddr_ripRel hpre s _ _ d,
    fun _ _ hpre => State.linearAddr_ripRel hpre s _ _ d⟩

/-- Settles O23: every instruction is a move, whose tests are #UD and then the mode. -/
theorem otherModesRefused : Obligations.OtherModesRefused := by
  intro i s h
  obtain ⟨mv, store, reg, rm, hexec, -⟩ := exec_eq_runMove i s
  rw [hexec]
  exact runMove_otherMode h mv store reg rm

/-- Settles O41: both opcodes are the same move, whose register copy has two directions. -/
theorem opcodesAgreeOnRegisterCopy : Obligations.OpcodesAgreeOnRegisterCopy := by
  refine fun d r s => ⟨fun pre rex => ?_, fun l pre three => ?_, fun w vl pre aaa z => ?_⟩
  · rw [exec_legRow_eq_runMove, exec_legRow_eq_runMove]
    exact runMove_regCopy _ d r s
  · rw [exec_vexRow_eq_runMove, exec_vexRow_eq_runMove]
    exact runMove_regCopy _ d r s
  · rw [exec_evexRow_eq_runMove, exec_evexRow_eq_runMove]
    exact runMove_regCopy _ d r s

/-- Settles O56: the tests of a step in their order. -/
theorem stepStopsByName : Obligations.StepStopsByName := by
  intro s
  refine ⟨step_otherMode, step_singleStep, fun hm htf => ⟨fun p hp hend => ?_, fun hnot => ?_⟩⟩
  · exact step_atEnd hm htf (State.atEnd_iff.2 ⟨p, hp, hend⟩)
  have hend : s.atEnd = false := by
    rw [← Bool.not_eq_true, State.atEnd_iff]
    exact fun ⟨p, hp, h⟩ => hnot p hp h
  refine ⟨step_notThisFamily hm htf hend, step_truncated hm htf hend, fun n hdec => ?_⟩
  obtain ⟨out, hout⟩ : ∃ out, step s = s.fetched n out := by
    obtain ⟨i, hd, rfl⟩ | hd | hd := hdec
    · exact ⟨_, step_insn hm htf hend hd⟩
    · exact ⟨_, step_ud hm htf hend hd⟩
    · exact ⟨_, step_gp0 hm htf hend hd⟩
  refine ⟨fun ⟨k, hk, hbad⟩ => ?_, fun hcan => ⟨fun hprog => ?_, fun p hp hstart hstop => ?_⟩⟩
  · have hc : s.fetchCanonical n = false := by
      rw [← Bool.not_eq_true, State.fetchCanonical_iff]
      intro h
      obtain ⟨hlt, hcan⟩ := h k hk
      obtain hbad | hbad := hbad
      · omega
      · simp [hcan] at hbad
    rw [hout, State.fetched_notCanonical hc]
  · have hp : s.programHolds n = false := by
      rw [← Bool.not_eq_true, State.programHolds_iff]
      rintro ⟨p, hp, hstart, hstop⟩
      have := hprog p hp
      omega
    rw [hout, State.fetched_outside (State.fetchCanonical_iff.2 hcan) hp]
  · have hin := State.fetched_inside (State.fetchCanonical_iff.2 hcan) (State.programHolds_iff.2 ⟨p, hp, hstart, hstop⟩)
    exact ⟨fun hd => (step_ud hm htf hend hd).trans (hin _), fun hd => (step_gp0 hm htf hend hd).trans (hin _)⟩

end Sys2Proof.Proofs
end

section
/-! SUPPORT. What an enabled move writes: a register copy, a load and a store, each with its result and its frame. -/

namespace Sys2Proof.Machine

/-! ## Moves that pass the tests before their operands -/

/-- The tests before an operand is touched let the move pass (R140 items 2 and 3). -/
structure Move.Passes (mv : Move) (s : State) : Prop where
  ud : mv.ud = false
  mode : s.mode = .mode64
  ts : s.cr0Ts = false

theorem legMove_passes {o : LegOps} {s : State} (he : LegEnabled s) (hw : o.WellFormed) : (legMove o s).Passes s := by
  have hud := legMove_ud he hw
  obtain ⟨hm, -, -, hts, -⟩ := he
  exact ⟨hud, hm, hts⟩

theorem vexMove_passes {vl : VLen} {o : VexOps} {s : State} (he : VexEnabled s) (hw : o.WellFormed) :
    (vexMove vl o s).Passes s := by
  have hud := vexMove_ud (vl := vl) he hw
  obtain ⟨hm, -, -, hts, -⟩ := he
  exact ⟨hud, hm, hts⟩

theorem evexMove_passes {vl : VLen} {sh : Shape} {st : Bool} {o : EvexOps} {s : State} (he : EvexEnabled vl s)
    (hw : o.WellFormed st) : (evexMove vl sh st o s).Passes s := by
  have hud := evexMove_ud (sh := sh) he hw
  obtain ⟨hm, -, -, -, hts, -⟩ := he
  exact ⟨hud, hm, hts⟩

section
variable {mv : Move} {s : State} (hp : mv.Passes s)
include hp

/-- A register copy writes the move's result to its destination (R59). -/
theorem Move.Passes.runMove_reg (store : Bool) (reg n : VReg) {d r : VReg} (hd : d = if store then n else reg)
    (hr : r = if store then reg else n) :
    runMove mv store reg (.reg n) s = .next ((s.setVec d (mv.result (s.vec r) (s.vec d))).retire mv.len) := by
  subst hd hr
  cases store with
  | false => exact guarded_eq _ hp.ud hp.mode hp.ts
  | true => exact guarded_eq _ hp.ud hp.mode hp.ts

/-- A load of an aligned operand that passes its checks writes the move's result (R35). -/
theorem Move.Passes.runMove_load {a : Addr} (hc : s.accessCheck .read (s.access mv a) = none)
    (hal : (s.access mv a).aligned) (reg : VReg) : runMove mv false reg (.mem a) s =
      .next ((s.setVec reg (mv.result (s.loadOperand (s.access mv a)) (s.vec reg))).retire mv.len) := by
  have hload : runMove mv false reg (.mem a) s = loadMem mv reg a s := guarded_eq _ hp.ud hp.mode hp.ts
  simp only [hload, loadMem, hc, State.advanceChoice_of_aligned _ _ (Access.misaligned_eq_false.2 hal)]

/-- A store to an aligned operand that passes its checks writes the source register to it (R36). -/
theorem Move.Passes.runMove_store {a : Addr} (hc : s.accessCheck .write (s.access mv a) = none)
    (hal : (s.access mv a).aligned) (reg : VReg) : runMove mv true reg (.mem a) s =
      .next ((s.storeOperand (s.access mv a) (s.vec reg)).retire mv.len) := by
  have hstore : runMove mv true reg (.mem a) s = storeMem mv a reg s := guarded_eq _ hp.ud hp.mode hp.ts
  simp only [hstore, storeMem, hc, State.advanceChoice_of_aligned _ _ (Access.misaligned_eq_false.2 hal)]

end

/-! ## What a register write and a store leave -/

/-- A register write that retires leaves the other registers, and all else but `rip`. -/
theorem onlyRegisterWritten_setVec (s : State) (d : VReg) (v : Vec) (len : Nat) :
    onlyRegisterWritten s ((s.setVec d v).retire len) d len :=
  ⟨fun n hn => State.vec_setVec_other s d n v hn, rfl⟩

/-- A store that retires leaves every byte but those it accesses, and all else but `rip`. -/
theorem onlyMemoryWritten_storeOperand {s : State} (hs : s.Inv) {a : Access} {stored : Nat → Prop} (v : Vec) (len : Nat)
    (h : ∀ i, a.reaches i → stored (s.bytePa .write a.la i).toNat) :
    onlyMemoryWritten s ((s.storeOperand a v).retire len) stored len := by
  refine ⟨fun b hb => ?_, rfl⟩
  have hout : ∀ i < a.sh.bytes, a.byteSelected i = true → b ≠ (s.bytePa .write a.la i).toNat :=
    fun i _ hi heq => hb (heq ▸ h i (Access.byteSelected_iff.1 hi))
  exact Memory.read_writeBytes_other hs _ _ _ _ hout

/-- A store writes byte `i` of its source where byte `i` of the operand lies. -/
theorem State.byteAt_storeOperand {s : State} (hs : s.Inv) {a : Access} (hn : a.sh.bytes ≤ 4096) (v : Vec) {i : Nat}
    (h : a.reaches i) : (s.storeOperand a v).byteAt (s.bytePa .write a.la i).toNat = vecByte v i :=
  Memory.read_writeBytes_stored hs _ _ _
    (fun _ hj _ hk hne => State.bytePa_ne s .write a.la (hj.trans_le hn) (hk.trans_le hn) hne) h.1
    (Access.byteSelected_iff.2 h)

/-- Byte `i` of a loaded operand is the byte of memory where it lies. -/
theorem State.vecByte_loadOperand (s : State) {a : Access} (hn : a.sh.bytes ≤ 64) {i : Nat} (h : a.reaches i) :
    vecByte (s.loadOperand a) i = s.byteAt (s.bytePa .read a.la i).toNat :=
  Memory.extract_readBytes _ _ _ hn h.1 (Access.byteSelected_iff.2 h)

/-! ## Results by class -/

/-- A legacy result has the source's bits below 128. -/
theorem result_leg_low (o : LegOps) (s : State) (src old : Vec) {lo n : Nat} (h : lo + n ≤ 128) :
    ((legMove o s).result src old).extractLsb' lo n = src.extractLsb' lo n := by
  ext b hb
  rw [BitVec.getElem_extractLsb', BitVec.getElem_extractLsb', getLsbD_result_leg o s src old (by omega),
    if_pos (by omega)]

/-- A legacy copy of a value over itself is that value. -/
theorem result_leg_self (o : LegOps) (s : State) (v : Vec) : (legMove o s).result v v = v :=
  BitVec.eq_of_getLsbD_eq fun b hb => by rw [getLsbD_result_leg o s v v hb, ite_self]

/-- A VEX result is the source's low VL bits. -/
theorem result_vex (vl : VLen) (o : VexOps) (s : State) (src old : Vec) :
    (vexMove vl o s).result src old = (src.setWidth (8 * vl.bytes)).setWidth 512 :=
  BitVec.eq_of_getLsbD_eq fun b hb => by
    simp only [getLsbD_result_vex, BitVec.getLsbD_setWidth, hb, decide_true, Bool.true_and]

/-- A merging EVEX copy of a value over itself keeps the low VL bits, whatever the mask. -/
theorem result_evex_self (w : Bool) (vl : VLen) (st : Bool) {o : EvexOps} (hz : o.z = false) (s : State) (v : Vec) :
    (evexMove vl ⟨vl.bytes, evexElem w⟩ st o s).result v v = (v.setWidth (8 * vl.bytes)).setWidth 512 := by
  obtain ⟨hes, hfill, hle, -⟩ := evexShape_fits w vl
  refine BitVec.eq_of_getLsbD_eq fun b hb => ?_
  rw [result_evex, getLsbD_blend hes _ _ _ _ (by omega), Nat.mul_assoc, hfill, hz]
  simp [hb]

/-- Writing a register's own value changes nothing. -/
@[simp] theorem State.setVec_vec_self (s : State) (n : VReg) : s.setVec n (s.vec n) = s := by
  simp [State.setVec, State.vec]

/-! ## The memory operand of MOVDQA -/

section
variable {o : LegOps} {a : Addr} {s : State}

/-- A legacy operand has 16 bytes, all of them accessed (R80). -/
theorem reaches_legMove_iff {i : Nat} : (s.access (legMove o s) a).reaches i ↔ i < 16 := by
  refine ⟨fun h => h.1, fun h => ⟨h, ?_⟩⟩
  have hz : i / 16 = 0 := Nat.div_eq_of_lt h
  change (allSelected 1).getLsbD (i / 16) = true
  rw [hz]; rfl

/-- A legacy operand whose bytes are allowed passes every check. -/
theorem accessCheck_legMove {kind : AccessKind} (h : operandAllowed s kind (legAddr s o a) 16 (fun _ => true)) :
    s.accessCheck kind (s.access (legMove o s) a) = none := by
  obtain ⟨hal, hby⟩ := h
  have hfill : (Shape.whole .v128).elem * (Shape.whole .v128).kl = (Shape.whole .v128).bytes := by decide
  exact State.accessCheck_of_allowed (by decide : 0 < 16) hfill ⟨hal, fun i hi _ => hby i hi rfl⟩

end

end Sys2Proof.Machine
end

section
/-! Family 40_movdqa_sse: the statements about MOVDQA, settled. -/

namespace Sys2Proof.Proofs

open Machine

/-- Settles O31: an enabled register copy writes the legacy result. -/
theorem legacyRegisterCopy : Obligations.LegacyRegisterCopy := by
  intro st o n d r s hw he hrm hd hr
  have hp := legMove_passes he ((legRow_wellFormed st o).1 hw)
  rw [exec_legRow_eq_runMove, hrm]
  refine ⟨_, hp.runMove_reg st o.reg n hd hr, ?_, ?_, onlyRegisterWritten_setVec s d _ _⟩
  · rw [State.vec_retire, State.vec_setVec_same, result_leg_low o s _ _ le_rfl]
  · rw [State.vec_retire, State.vec_setVec_same, result_leg_upper]

/-- Settles O32: the operand passes its checks, and the legacy result holds its bytes. -/
theorem legacyLoad : Obligations.LegacyLoad := by
  intro o a s hw he hrm hallowed
  have hp := legMove_passes he ((legRow_wellFormed false o).1 hw)
  rw [exec_legRow_eq_runMove, hrm]
  refine ⟨_, hp.runMove_load (accessCheck_legMove hallowed) hallowed.1 o.reg, fun i hi => ?_, ?_,
    onlyRegisterWritten_setVec s o.reg _ _⟩
  · rw [State.vec_retire, State.vec_setVec_same, vecByte, result_leg_low o s _ _ (by omega)]
    exact State.vecByte_loadOperand s (by decide : 16 ≤ 64) (reaches_legMove_iff.2 hi)
  · rw [State.vec_retire, State.vec_setVec_same, result_leg_upper]

/-- Settles O33: the operand passes its checks, and its 16 bytes are the ones a store writes. -/
theorem legacyStore : Obligations.LegacyStore := by
  intro o a s hw he hs hrm hallowed
  have hp := legMove_passes he ((legRow_wellFormed true o).1 hw)
  rw [exec_legRow_eq_runMove, hrm]
  refine ⟨_, hp.runMove_store (accessCheck_legMove hallowed) hallowed.1 o.reg, fun i hi => ?_, ?_⟩
  · exact State.byteAt_storeOperand hs (by decide : 16 ≤ 4096) _ (reaches_legMove_iff.2 hi)
  · exact onlyMemoryWritten_storeOperand hs _ _ fun i hi => ⟨i, reaches_legMove_iff.1 hi, rfl⟩

/-- Settles O43: over the register's own value the legacy result is that value, and the merging EVEX and VEX results are
its low VL bits. -/
theorem selfCopy : Obligations.SelfCopy := by
  intro st n s
  have hn : n = if st then n else n := (ite_self n).symm
  refine ⟨fun o hw he hreg hrm => ?_, fun w vl o hw he hz hreg hrm => ?_, fun l o hw he hreg hrm => ?_⟩
  · have hp := legMove_passes he ((legRow_wellFormed st o).1 hw)
    rw [exec_legRow_eq_runMove, hreg, hrm, hp.runMove_reg st n n hn hn, result_leg_self, State.setVec_vec_self]
    rfl
  · have hp := evexMove_passes (sh := ⟨vl.bytes, evexElem w⟩) he ((evexRow_wellFormed w vl st o).1 hw)
    rw [exec_evexRow_eq_runMove, hreg, hrm, hp.runMove_reg st n n hn hn, result_evex_self w vl st hz]
    rfl
  · have hp := vexMove_passes (vl := vexLen l) he ((vexRow_wellFormed l st o).1 hw)
    rw [exec_vexRow_eq_runMove, hreg, hrm, hp.runMove_reg st n n hn hn, result_vex]
    rfl

end Sys2Proof.Proofs
end

section
/-! SUPPORT. The result and the memory operand of a VEX move (R85). -/

namespace Sys2Proof

/-- A vector length has at least one byte and at most the 64 of a vector register. -/
theorem VLen.bytes_bounds (vl : VLen) : 0 < vl.bytes ∧ vl.bytes ≤ 64 := by
  cases vl <;> decide

namespace Machine

/-- A VEX result has the source's bytes below VL/8 and zero bytes above. -/
theorem vecByte_result_vex (vl : VLen) (o : VexOps) (s : State) (src old : Vec) (i : Nat) :
    vecByte ((vexMove vl o s).result src old) i = if i < vl.bytes then vecByte src i else 0 := by
  ext b hb
  rw [vecByte, BitVec.getElem_extractLsb', getLsbD_result_vex]
  have hbit : 8 * i + b < 8 * vl.bytes ↔ i < vl.bytes := by omega
  by_cases hi : i < vl.bytes
  · simp [hbit, hi, vecByte]
  · simp [hbit, hi]

section
variable {vl : VLen} {o : VexOps} {a : Addr} {s : State}

/-- A VEX operand has VL/8 bytes, all of them accessed: it is one selected element. -/
theorem reaches_vexMove_iff {i : Nat} : (s.access (vexMove vl o s) a).reaches i ↔ i < vl.bytes := by
  refine ⟨fun h => h.1, fun h => ⟨h, ?_⟩⟩
  change (allSelected 1).getLsbD (i / vl.bytes) = true
  rw [Nat.div_eq_of_lt h]; rfl

/-- A VEX operand whose bytes are allowed passes every check. -/
theorem accessCheck_vexMove {kind : AccessKind}
    (h : operandAllowed s kind (vexAddr s o a) vl.bytes (fun _ => true)) :
    s.accessCheck kind (s.access (vexMove vl o s) a) = none := by
  obtain ⟨hal, hby⟩ := h
  have hfill : (Shape.whole vl).elem * (Shape.whole vl).kl = (Shape.whole vl).bytes := Nat.mul_div_cancel' dvd_rfl
  exact State.accessCheck_of_allowed vl.bytes_bounds.1 hfill ⟨hal, fun i hi _ => hby i hi rfl⟩

end

end Machine
end Sys2Proof
end

section
/-! Family 41_vmovdqa_vex: the statements about VMOVDQA, settled. -/

namespace Sys2Proof.Proofs

open Machine

/-- Settles O34: an enabled register copy writes the VEX result, the source's low VL bits. -/
theorem vexRegisterCopy : Obligations.VexRegisterCopy := by
  intro l st o n d r s hw he hrm hd hr
  have hp := vexMove_passes (vl := vexLen l) he ((vexRow_wellFormed l st o).1 hw)
  rw [exec_vexRow_eq_runMove, hrm]
  refine ⟨_, hp.runMove_reg st o.reg n hd hr, ?_, onlyRegisterWritten_setVec s d _ _⟩
  rw [State.vec_retire, State.vec_setVec_same, result_vex]

/-- Settles O35: the operand passes its checks, and the VEX result holds its bytes below VL/8 and zeros above. -/
theorem vexLoad : Obligations.VexLoad := by
  intro l o a s hw he hrm hallowed
  have hp := vexMove_passes (vl := vexLen l) he ((vexRow_wellFormed l false o).1 hw)
  rw [exec_vexRow_eq_runMove, hrm]
  refine ⟨_, hp.runMove_load (accessCheck_vexMove hallowed) hallowed.1 o.reg, fun i _ => ?_,
    onlyRegisterWritten_setVec s o.reg _ _⟩
  rw [State.vec_retire, State.vec_setVec_same, vecByte_result_vex]
  split
  next hi => exact State.vecByte_loadOperand s (vexLen l).bytes_bounds.2 (reaches_vexMove_iff.2 hi)
  next => rfl

/-- Settles O36: the operand passes its checks, and its VL/8 bytes are the ones a store writes. -/
theorem vexStore : Obligations.VexStore := by
  intro l o a s hw he hs hrm hallowed
  have hp := vexMove_passes (vl := vexLen l) he ((vexRow_wellFormed l true o).1 hw)
  have hpage : (vexLen l).bytes ≤ 4096 := (vexLen l).bytes_bounds.2.trans (by decide)
  rw [exec_vexRow_eq_runMove, hrm]
  refine ⟨_, hp.runMove_store (accessCheck_vexMove hallowed) hallowed.1 o.reg, fun i hi => ?_, ?_⟩
  · exact State.byteAt_storeOperand hs hpage _ (reaches_vexMove_iff.2 hi)
  · exact onlyMemoryWritten_storeOperand hs _ _ fun i hi => ⟨i, reaches_vexMove_iff.1 hi, rfl⟩

end Sys2Proof.Proofs
end

section
/-! SUPPORT. The result and the memory operand of an EVEX move: element by element and byte by byte (R95, R105). -/

namespace Sys2Proof.Machine

/-- A byte of an EVEX operand lies in one of its elements. -/
theorem div_evexElem_lt {w : Bool} {vl : VLen} {i : Nat} (hi : i < vl.bytes) :
    i / evexElem w < vl.bytes / evexElem w := by
  obtain ⟨-, hfill, -, -⟩ := evexShape_fits w vl
  exact Nat.div_lt_of_lt_mul (by rwa [hfill])

/-- An element of the operand is in the effective mask where the writemask field selects it (R9, R58). -/
theorem getLsbD_evexMask (w : Bool) {vl : VLen} (s : State) (aaa : KReg) {j : Nat} (hj : j < vl.bytes / evexElem w) :
    (effectiveMask s aaa (vl.bytes / evexElem w)).getLsbD j = selects s aaa j := by
  obtain ⟨-, -, -, hkl⟩ := evexShape_fits w vl
  rw [getLsbD_effectiveMask s aaa hkl, decide_eq_true hj, Bool.true_and]

/-! ## The result -/

section
variable (w : Bool) (vl : VLen) (st : Bool) (o : EvexOps) (s : State) (src old : Vec)

/-- Element `j` of an EVEX result is the source's where selected, else 0 under zeroing, else kept. -/
theorem result_evex_element {j : Nat} (hj : j < vl.bytes / evexElem w) :
    ((evexMove vl ⟨vl.bytes, evexElem w⟩ st o s).result src old).extractLsb' (8 * evexElem w * j) (8 * evexElem w) =
      if selects s o.aaa j then src.extractLsb' (8 * evexElem w * j) (8 * evexElem w)
      else if o.z then 0 else old.extractLsb' (8 * evexElem w * j) (8 * evexElem w) := by
  obtain ⟨hes, hfill, hle, -⟩ := evexShape_fits w vl
  rw [result_evex, extract_blend hes _ _ _ _ (hfill.trans_le hle) hj, getLsbD_evexMask w s o.aaa hj]

/-- Byte `i` of an EVEX result goes with the element it lies in, and is 0 above VL. -/
theorem vecByte_result_evex (i : Nat) :
    vecByte ((evexMove vl ⟨vl.bytes, evexElem w⟩ st o s).result src old) i =
      if i < vl.bytes then
        if selects s o.aaa (i / evexElem w) then vecByte src i else if o.z then 0 else vecByte old i
      else 0 := by
  obtain ⟨hes, hfill, hle, -⟩ := evexShape_fits w vl
  ext b hb
  have hbit : 8 * i + b < 8 * evexElem w * (vl.bytes / evexElem w) ↔ i < vl.bytes := by
    rw [Nat.mul_assoc, hfill]; omega
  have hdiv : (8 * i + b) / (8 * evexElem w) = i / evexElem w := by
    rw [← Nat.div_div_eq_div_mul, Nat.mul_add_div (by decide), Nat.div_eq_of_lt hb, Nat.add_zero]
  rw [vecByte, BitVec.getElem_extractLsb', result_evex, getLsbD_blend hes _ _ _ _ (hfill.trans_le hle), hdiv]
  by_cases hi : i < vl.bytes
  · rw [getLsbD_evexMask w s o.aaa (div_evexElem_lt hi), decide_eq_true (hbit.2 hi), Bool.true_and, if_pos hi]
    simp only [apply_ite (fun v : Byte => v[b]), vecByte, BitVec.getElem_extractLsb', BitVec.ofNat_eq_ofNat,
      BitVec.getElem_zero]
  · simp [hbit, hi]

end

/-! ## The memory operand -/

section
variable {w : Bool} {vl : VLen} {st : Bool} {o : EvexOps} {a : Addr} {s : State}

/-- An EVEX operand has VL/8 bytes; those of the selected elements are accessed (R35, R36). -/
theorem reaches_evexMove_iff {i : Nat} :
    (s.access (evexMove vl ⟨vl.bytes, evexElem w⟩ st o s) a).reaches i ↔
      i < vl.bytes ∧ selects s o.aaa (i / evexElem w) = true :=
  and_congr_right fun hi => by rw [← getLsbD_evexMask w s o.aaa (div_evexElem_lt hi)]; rfl

/-- An EVEX operand whose selected bytes are allowed passes every check. -/
theorem accessCheck_evexMove {kind : AccessKind} (h : operandAllowed s kind (evexAddr vl s o a) vl.bytes
      (fun i => selects s o.aaa (i / evexElem w))) :
    s.accessCheck kind (s.access (evexMove vl ⟨vl.bytes, evexElem w⟩ st o s) a) = none := by
  obtain ⟨hal, hby⟩ := h
  obtain ⟨hes, hfill, -, -⟩ := evexShape_fits w vl
  refine State.accessCheck_of_allowed hes hfill ⟨hal, fun i hi hsel => hby i hi ?_⟩
  exact (reaches_evexMove_iff.1 (Access.byteSelected_iff.1 hsel)).2

end

end Sys2Proof.Machine
end

section
/-! Family 42_vmovdqa32_evex: the statements about VMOVDQA32 and VMOVDQA64, settled. -/

namespace Sys2Proof.Proofs

open Machine

/-- Settles O37: an enabled register copy writes the EVEX result, element by element and 0 above VL. -/
theorem evexRegisterCopy : Obligations.EvexRegisterCopy := by
  intro w vl st o n d r s hw he hrm hd hr
  have hp := evexMove_passes (sh := ⟨vl.bytes, evexElem w⟩) he ((evexRow_wellFormed w vl st o).1 hw)
  rw [exec_evexRow_eq_runMove, hrm]
  refine ⟨_, hp.runMove_reg st o.reg n hd hr, fun j hj => ?_, ?_, onlyRegisterWritten_setVec s d _ _⟩
  · rw [State.vec_retire, State.vec_setVec_same, result_evex_element w vl st o s _ _ hj]
  · rw [State.vec_retire, State.vec_setVec_same, result_evex_upper]

/-- Settles O38: the operand passes its checks, and the EVEX result holds its selected bytes. -/
theorem evexLoad : Obligations.EvexLoad := by
  intro w vl o a s hw he hrm hallowed
  have hp := evexMove_passes (sh := ⟨vl.bytes, evexElem w⟩) he ((evexRow_wellFormed w vl false o).1 hw)
  rw [exec_evexRow_eq_runMove, hrm]
  refine ⟨_, hp.runMove_load (accessCheck_evexMove hallowed) hallowed.1 o.reg, fun i _ => ?_,
    onlyRegisterWritten_setVec s o.reg _ _⟩
  rw [State.vec_retire, State.vec_setVec_same, vecByte_result_evex]
  refine ite_congr rfl (fun hi => ite_congr rfl (fun hsel => ?_) fun _ => rfl) fun _ => rfl
  exact State.vecByte_loadOperand s vl.bytes_bounds.2 (reaches_evexMove_iff.2 ⟨hi, hsel⟩)

/-- Settles O39: the operand passes its checks, and the bytes of its selected elements are the ones a store writes. -/
theorem evexStore : Obligations.EvexStore := by
  intro w vl o a s hw he hs hrm hallowed
  have hp := evexMove_passes (sh := ⟨vl.bytes, evexElem w⟩) he ((evexRow_wellFormed w vl true o).1 hw)
  have hpage : vl.bytes ≤ 4096 := vl.bytes_bounds.2.trans (by decide)
  rw [exec_evexRow_eq_runMove, hrm]
  refine ⟨_, hp.runMove_store (accessCheck_evexMove hallowed) hallowed.1 o.reg, fun i hi hsel => ?_, ?_⟩
  · exact State.byteAt_storeOperand hs hpage _ (reaches_evexMove_iff.2 ⟨hi, hsel⟩)
  · refine onlyMemoryWritten_storeOperand hs _ _ fun i hreach => ?_
    obtain ⟨hi, hsel⟩ := reaches_evexMove_iff.1 hreach
    exact ⟨i, hi, hsel, rfl⟩

end Sys2Proof.Proofs
end

section
/-! SUPPORT. An operand whose elements are all selected is one element: without a mask the element size does not matter
(R9, R105). -/

namespace Sys2Proof.Machine

/-- Every element of an operand of the vector length is selected. -/
structure SelectsAll (vl : VLen) (sh : Shape) (m : BitVec 16) : Prop where
  bytes : sh.bytes = vl.bytes
  elem_pos : 0 < sh.elem
  fill : sh.elem * sh.kl = sh.bytes
  all : ∀ j < sh.kl, m.getLsbD j = true

/-- The same operand as one selected element. -/
def Access.whole (vl : VLen) (a : Access) : Access := { a with sh := .whole vl, m := allSelected 1 }

/-- The same move of one selected element. -/
def Move.whole (vl : VLen) (mv : Move) : Move := { mv with sh := .whole vl, m := allSelected 1 }

theorem selectsAll_whole (vl : VLen) : SelectsAll vl (.whole vl) (allSelected 1) := by
  cases vl <;> exact ⟨rfl, by decide, by decide, by decide⟩

/-- With `aaa` = 000b an EVEX move selects all its elements (R9). -/
theorem selectsAll_evexMove (w : Bool) (vl : VLen) (st : Bool) {o : EvexOps} (s : State) (h : o.aaa = 0) :
    SelectsAll vl (evexMove vl ⟨vl.bytes, evexElem w⟩ st o s).sh (evexMove vl ⟨vl.bytes, evexElem w⟩ st o s).m := by
  obtain ⟨hes, hfill, -, -⟩ := evexShape_fits w vl
  refine ⟨rfl, hes, hfill, fun j hj => (getLsbD_evexMask w s o.aaa hj).trans ?_⟩
  rw [h]; rfl

/-! ## The bytes and checks of an access -/

/-- Where the first element of an aligned operand is write-back memory, so are all its bytes (R34). -/
theorem State.elementCheck_none_of_aligned {s : State} {kind : AccessKind} {la : Word} {vl : VLen} {i : Nat}
    (hal : la.toNat % vl.bytes = 0) (hi : i < vl.bytes) (h : s.elementCheck kind la = none) :
    s.elementCheck kind (byteAddr la i) = none := by
  obtain ⟨pa, hpa⟩ := Translation.isWriteBack_iff.1 (State.elementCheck_none.1 h)
  obtain ⟨hok, -⟩ := Proofs.operandTranslatesAsOne s kind la vl i hal hi
  exact State.elementCheck_none.2 (Translation.isWriteBack_iff.2 ⟨_, hok pa _ hpa⟩)

section
variable {vl : VLen} {a : Access} (h : SelectsAll vl a.sh a.m)
include h

theorem SelectsAll.reaches_iff {i : Nat} : a.reaches i ↔ i < vl.bytes := by
  refine ⟨fun hi => hi.1.trans_eq h.bytes, fun hi => ⟨hi.trans_eq h.bytes.symm, h.all _ ?_⟩⟩
  exact Nat.div_lt_of_lt_mul (by rwa [h.fill, h.bytes])

theorem SelectsAll.someSelected : a.someSelected :=
  Access.someSelected_of_reaches ⟨h.elem_pos, h.fill⟩ (h.reaches_iff.2 vl.bytes_bounds.1)

theorem SelectsAll.selected_ne_nil : a.selected ≠ [] :=
  List.isEmpty_eq_false_iff.1 (Access.selected_isEmpty h.someSelected)

/-- R39 step 3 is decided by the first element of an aligned operand, which lies in one page. -/
theorem SelectsAll.translateCheck (hal : a.la.toNat % vl.bytes = 0) (s : State) (kind : AccessKind) :
    s.translateCheck kind a = s.elementCheck kind a.la := by
  have hfirst : byteAddr a.la (a.sh.elem * 0) = a.la := BitVec.add_zero a.la
  cases hc : s.elementCheck kind a.la with
  | some st =>
    have hkl : 0 < a.sh.kl := by
      obtain ⟨j, hj, -⟩ := h.someSelected
      exact j.zero_le.trans_lt hj
    exact State.translateCheck_first (Access.mem_selected.2 ⟨hkl, h.all 0 hkl⟩) (by simp) (by rw [hfirst, hc])
  | none =>
    refine State.translateCheck_none.2 fun j hj => State.elementCheck_none.1 ?_
    have hreach := Access.reaches_of_selected ⟨h.elem_pos, h.fill⟩ hj
    exact State.elementCheck_none_of_aligned hal (h.reaches_iff.1 hreach) hc

theorem SelectsAll.byteSelected_whole : (a.whole vl).byteSelected = a.byteSelected := by
  have hw : ∀ i, (a.whole vl).reaches i ↔ i < vl.bytes := fun _ => (selectsAll_whole vl).reaches_iff (a := a.whole vl)
  funext i
  rw [Bool.eq_iff_iff, Access.byteSelected_iff, Access.byteSelected_iff, hw, h.reaches_iff]

theorem SelectsAll.touched_whole : (a.whole vl).touched = a.touched := by
  rw [Access.touched, Access.touched, h.byteSelected_whole, h.bytes]; rfl

theorem SelectsAll.misaligned_whole : (a.whole vl).misaligned = a.misaligned := by
  rw [Access.misaligned, Access.misaligned, h.bytes]; rfl

/-- The checks of an operand whose elements are all selected are those of the whole (R39). -/
theorem SelectsAll.accessCheck_whole (s : State) (kind : AccessKind) :
    s.accessCheck kind (a.whole vl) = s.accessCheck kind a := by
  have hw : SelectsAll vl (a.whole vl).sh (a.whole vl).m := selectsAll_whole vl
  have hseg : (a.whole vl).seg = a.seg := rfl
  have hcan : s.nonCanonical (a.whole vl) = s.nonCanonical a := by
    rw [State.nonCanonical, State.nonCanonical, h.touched_whole]; rfl
  have hhit : s.hitsProgram (a.whole vl) = s.hitsProgram a := by
    rw [State.hitsProgram, State.hitsProgram, h.touched_whole]; rfl
  simp only [State.accessCheck, Access.selected_isEmpty h.someSelected, Access.selected_isEmpty hw.someSelected, hseg,
    hcan, h.misaligned_whole, hhit]
  cases hm : a.misaligned with
  | true => rfl
  | false =>
    have hal : a.la.toNat % vl.bytes = 0 := h.bytes ▸ Access.misaligned_eq_false.1 hm
    rw [h.translateCheck hal, hw.translateCheck hal]
    rfl

theorem SelectsAll.loadOperand_whole (s : State) : s.loadOperand (a.whole vl) = s.loadOperand a := by
  rw [State.loadOperand, State.loadOperand, h.byteSelected_whole, h.bytes]; rfl

theorem SelectsAll.storeOperand_whole (s : State) (v : Vec) : s.storeOperand (a.whole vl) v = s.storeOperand a v := by
  rw [State.storeOperand, State.storeOperand, h.byteSelected_whole, h.bytes]; rfl

/-- Neither form has used an open choice, which only an operand with no selected element does (R32 (c)). -/
theorem SelectsAll.advanceChoice_whole (s : State) : s.advanceChoice (a.whole vl) = s.advanceChoice a := by
  have hw : (a.whole vl).selected ≠ [] := (selectsAll_whole vl).selected_ne_nil (a := a.whole vl)
  rw [State.advanceChoice_of_selected s _ hw, State.advanceChoice_of_selected s a h.selected_ne_nil]

end

/-! ## The move -/

/-- A blend that selects every element of the vector length is the source's low VL bits, whatever the elements. -/
theorem SelectsAll.blend {vl : VLen} {sh : Shape} {m : BitVec 16} (h : SelectsAll vl sh m) (z : Bool) (src old : Vec) :
    blend sh.elem m z src old sh.kl = (src.setWidth (8 * vl.bytes)).setWidth 512 := by
  have hfill : sh.elem * sh.kl = vl.bytes := h.fill.trans h.bytes
  refine BitVec.eq_of_getLsbD_eq fun b hb => ?_
  rw [getLsbD_blend h.elem_pos m z src old (hfill.trans_le vl.bytes_bounds.2), Nat.mul_assoc, hfill]
  by_cases hlt : b < 8 * vl.bytes
  · have hm : m.getLsbD (b / (8 * sh.elem)) = true :=
      h.all _ (Nat.div_lt_of_lt_mul (by rwa [Nat.mul_assoc, hfill]))
    simp [hm, hlt, hb]
  · simp [hlt]

section
variable {vl : VLen} {mv : Move} (h : SelectsAll vl mv.sh mv.m)
include h

theorem SelectsAll.result_whole (src old : Vec) : (mv.whole vl).result src old = mv.result src old := by
  have hw := (selectsAll_whole vl).blend mv.z src old
  rw [Move.result, Move.result, h.blend, ← hw]
  rfl

/-- A move that selects all its elements has the outcome of the move of one element, faults included (R105). -/
theorem SelectsAll.runMove_whole (store : Bool) (reg : VReg) (rm : Operand) (s : State) :
    runMove (mv.whole vl) store reg rm s = runMove mv store reg rm s := by
  have hreg : ∀ d r, regCopy (mv.whole vl) d r s = regCopy mv d r s := fun d r => by
    rw [regCopy, regCopy, h.result_whole]; rfl
  have hload : ∀ a, loadMem (mv.whole vl) reg a s = loadMem mv reg a s := fun a => by
    have ha : SelectsAll vl (s.access mv a).sh (s.access mv a).m := h
    have hwhole : s.access (mv.whole vl) a = (s.access mv a).whole vl := rfl
    simp only [loadMem, hwhole, ha.accessCheck_whole, ha.loadOperand_whole, ha.advanceChoice_whole, h.result_whole]
    rfl
  have hstore : ∀ a, storeMem (mv.whole vl) a reg s = storeMem mv a reg s := fun a => by
    have ha : SelectsAll vl (s.access mv a).sh (s.access mv a).m := h
    have hwhole : s.access (mv.whole vl) a = (s.access mv a).whole vl := rfl
    simp only [storeMem, hwhole, ha.accessCheck_whole, ha.storeOperand_whole, ha.advanceChoice_whole]
    rfl
  cases rm with
  | reg n => cases store <;> exact congrArg (guarded mv.ud s) (hreg _ _)
  | mem a =>
    cases store with
    | false => exact congrArg (guarded mv.ud s) (hload a)
    | true => exact congrArg (guarded mv.ud s) (hstore a)

end

end Sys2Proof.Machine
end

section
/-! Family 43_vmovdqa64_evex: the statement about VMOVDQA64 without a mask, settled. -/

namespace Sys2Proof.Proofs

open Machine

/-- Settles O42: without a mask both are the move of one element of the vector length. -/
theorem elementSizeMattersOnlyUnderMask : Obligations.ElementSizeMattersOnlyUnderMask := by
  intro vl st o s haaa
  have hwhole : (evexMove vl ⟨vl.bytes, evexElem true⟩ st o s).whole vl =
      (evexMove vl ⟨vl.bytes, evexElem false⟩ st o s).whole vl := rfl
  rw [exec_evexRow_eq_runMove, exec_evexRow_eq_runMove, ← (selectsAll_evexMove true vl st s haaa).runMove_whole,
    ← (selectsAll_evexMove false vl st s haaa).runMove_whole, hwhole]

end Sys2Proof.Proofs
end

section
/-! SUPPORT. The faults of an instruction: which test raises which exception (R130), the #UD conditions bit by bit (R131 to
R133), and the checks of R39 that fail. -/

namespace Sys2Proof.Machine

/-! ## Which test raises which exception -/

/-- The exceptions the checks of a memory operand raise (R39): #GP, #SS and #PF. -/
def Fault.OfAccess (f : Fault) : Prop := f = .gp ∨ f = .ss ∨ ∃ code a, f = .pf code a

theorem State.accessCheck_fault {s : State} {kind : AccessKind} {a : Access} {f : Fault}
    (h : s.accessCheck kind a = some (.fault f)) : f.OfAccess := by
  simpa [Fault.OfAccess] using State.accessCheck_some h

theorem Stop.out_eq_fault {st : Stop} {f : Fault} : st.out = .fault f ↔ st = .fault f := by
  cases st <;> simp [Stop.out, raise]

theorem loadMem_fault {mv : Move} {d : VReg} {a : Addr} {s : State} {f : Fault} (h : loadMem mv d a s = .fault f) :
    f.OfAccess := by
  unfold loadMem at h
  split at h
  · rename_i st hc
    exact State.accessCheck_fault (hc.trans (congrArg some (Stop.out_eq_fault.1 h)))
  · simp at h

theorem storeMem_fault {mv : Move} {a : Addr} {r : VReg} {s : State} {f : Fault} (h : storeMem mv a r s = .fault f) :
    f.OfAccess := by
  unfold storeMem at h
  split at h
  · rename_i st hc
    exact State.accessCheck_fault (hc.trans (congrArg some (Stop.out_eq_fault.1 h)))
  · simp at h

/-- A fault under the tests of R140 items 2 and 3 is #UD, #NM or the operand's own. -/
theorem guarded_fault {ud : Bool} {s : State} {k : Out} {f : Fault} (h : guarded ud s k = .fault f) :
    (f = .ud ∧ ud = true) ∨ (f = .nm ∧ s.cr0Ts = true) ∨ k = .fault f := by
  unfold guarded at h
  split_ifs at h with hud hm hts
  · exact .inl ⟨by simpa [raise] using h.symm, hud⟩
  · exact .inr (.inl ⟨by simpa [raise] using h.symm, hts⟩)
  · exact .inr (.inr h)

section
variable {mv : Move} {store : Bool} {reg : VReg} {rm : Operand} {s : State}

/-- Every fault of a move: #UD, #NM, or one that its memory operand raises. -/
theorem runMove_fault {f : Fault} (h : runMove mv store reg rm s = .fault f) :
    (f = .ud ∧ mv.ud = true) ∨ (f = .nm ∧ s.cr0Ts = true) ∨ ((∃ a, rm = .mem a) ∧ f.OfAccess) := by
  cases store with
  | false =>
    refine (guarded_fault h).imp_right (Or.imp_right fun hk => ?_)
    cases rm with
    | reg n => simp [regCopy] at hk
    | mem a => exact ⟨⟨a, rfl⟩, loadMem_fault hk⟩
  | true =>
    refine (guarded_fault h).imp_right (Or.imp_right fun hk => ?_)
    cases rm with
    | reg n => simp [regCopy] at hk
    | mem a => exact ⟨⟨a, rfl⟩, storeMem_fault hk⟩

/-- The #UD test of a move is the only one that raises #UD. -/
theorem runMove_ud_iff : runMove mv store reg rm s = .fault .ud ↔ mv.ud = true := by
  refine ⟨fun h => ?_, runMove_ud⟩
  obtain ⟨-, hud⟩ | ⟨hf, -⟩ | ⟨-, hf⟩ := runMove_fault h
  · exact hud
  · simp at hf
  · simp [Fault.OfAccess] at hf

/-- In 64-bit mode CR0.TS is tested right after #UD (R134). -/
theorem runMove_nm_of_ts (hm : s.mode = .mode64) (hud : mv.ud = false) (hts : s.cr0Ts = true) :
    runMove mv store reg rm s = .fault .nm := by
  have hguard : ∀ k, guarded mv.ud s k = .fault .nm := fun k => by simp [guarded, hud, hm, hts, raise]
  cases store with
  | false => exact hguard _
  | true => exact hguard _

/-- A move that raises #NM has CR0.TS = 1. -/
theorem ts_of_runMove_nm (h : runMove mv store reg rm s = .fault .nm) : s.cr0Ts = true := by
  obtain ⟨hf, -⟩ | ⟨-, hts⟩ | ⟨-, hf⟩ := runMove_fault h
  · simp at hf
  · exact hts
  · simp [Fault.OfAccess] at hf

end

/-- Every fault of an instruction: #UD and #NM, and with a memory operand those of its checks. -/
theorem exec_fault {i : Instr} {s : State} {f : Fault} (h : exec i s = .fault f) :
    f = .ud ∨ f = .nm ∨ (operandOf i s ≠ none ∧ f.OfAccess) := by
  obtain ⟨mv, store, reg, rm, hexec, -, -, -, hop⟩ := exec_eq_runMove i s
  obtain ⟨hf, -⟩ | ⟨hf, -⟩ | ⟨⟨a, rfl⟩, hf⟩ := runMove_fault (hexec ▸ h)
  · exact .inl hf
  · exact .inr (.inl hf)
  · exact .inr (.inr ⟨by simp [hop, moveOperand], hf⟩)

/-- R130's table: the error code of each vector, and that only #PF carries a linear address (R137); there is no vector 17
or 19 (R138, R139). -/
theorem Fault.table (f : Fault) :
    (f.vector = 6 ∧ f.errorCode = none ∨ f.vector = 7 ∧ f.errorCode = none ∨
      f.vector = 12 ∧ f.errorCode = some 0 ∨ f.vector = 13 ∧ f.errorCode = some 0 ∨
      f.vector = 14 ∧ f.errorCode.isSome = true) ∧
    (f.linearAddress.isSome = true ↔ f.vector = 14) ∧ f.vector ≠ 17 ∧ f.vector ≠ 19 := by
  cases f <;> simp [Fault.vector, Fault.errorCode, Fault.linearAddress]

/-! ## The #UD conditions, bit by bit -/

theorem extractLsb'_eq_allOnes {w : Nat} (x : BitVec w) (lo n : Nat) :
    x.extractLsb' lo n = BitVec.allOnes n ↔ ∀ j < n, x.getLsbD (lo + j) = true := by
  refine ⟨fun h j hj => ?_, fun h => BitVec.eq_of_getLsbD_eq fun j hj => by simp [hj, h j hj]⟩
  simpa [hj] using congrArg (fun v => v.getLsbD j) h

theorem State.xcr0Avx_eq (s : State) : s.xcr0Avx = (s.xcr0.getLsbD 1 && s.xcr0.getLsbD 2) := by
  rw [Bool.eq_iff_iff, State.xcr0Avx, beq_iff_eq, show 3#2 = BitVec.allOnes 2 from rfl, extractLsb'_eq_allOnes]
  simp only [Nat.forall_lt_succ_right]
  simp

theorem State.xcr0Avx512_eq (s : State) :
    s.xcr0Avx512 = (s.xcr0.getLsbD 5 && s.xcr0.getLsbD 6 && s.xcr0.getLsbD 7) := by
  rw [Bool.eq_iff_iff, State.xcr0Avx512, beq_iff_eq, show 7#3 = BitVec.allOnes 3 from rfl, extractLsb'_eq_allOnes]
  simp only [Nat.forall_lt_succ_right]
  simp

theorem State.realOrV86_iff {s : State} : s.realOrV86 = true ↔ s.mode = .realAddress ∨ s.mode = .virtual8086 := by
  simp [State.realOrV86]

theorem udLeg_iff {pre : List Prefix} {s : State} : udLeg pre s = true ↔
    s.cr0.getLsbD 2 = true ∨ s.cr4.getLsbD 9 = false ∨ s.cfg.hasSse2 = false ∨ Prefix.lock ∈ pre := by
  simp [udLeg, State.cr0Em, State.cr4Osfxsr, or_assoc]

/-- R132 without the conditions on the bytes. -/
theorem udVex_iff {s : State} : udVex false s = true ↔
    s.cr4.getLsbD 18 = false ∨ s.xcr0.getLsbD 1 = false ∨ s.xcr0.getLsbD 2 = false ∨ s.cfg.hasAvx = false ∨
      s.mode = .realAddress ∨ s.mode = .virtual8086 := by
  simp [udVex, State.cr4Osxsave, State.xcr0Avx_eq, State.realOrV86_iff, or_assoc]

/-- R133 without the conditions on the bytes. -/
theorem udEvex_iff {vl : VLen} {s : State} : udEvex vl false false s = true ↔
    s.cr4.getLsbD 18 = false ∨ s.xcr0.getLsbD 1 = false ∨ s.xcr0.getLsbD 2 = false ∨
      s.xcr0.getLsbD 5 = false ∨ s.xcr0.getLsbD 6 = false ∨ s.xcr0.getLsbD 7 = false ∨
      s.cfg.hasAvx512f = false ∨ (vl ≠ .v512 ∧ s.cfg.hasAvx512vl = false) ∨
      s.mode = .realAddress ∨ s.mode = .virtual8086 := by
  simp [udEvex, State.cr4Osxsave, State.xcr0Avx_eq, State.xcr0Avx512_eq, State.realOrV86_iff, or_assoc]

/-- The masking of a well-formed EVEX row is none of R69's bad ones. -/
theorem evexBadMask_eq_false {st : Bool} {o : EvexOps} (hw : o.WellFormed st) :
    (o.z && (o.aaa == 0 || (st && o.rm.isMem))) = false := by
  obtain ⟨-, hz, -⟩ := hw
  rw [Bool.eq_false_iff]
  simp only [ne_eq, Bool.and_eq_true, Bool.or_eq_true, beq_iff_eq]
  rintro ⟨hz1, haaa | ⟨hst, hmem⟩⟩
  · exact (hz hz1).1 haaa
  · simp [(hz hz1).2 hst] at hmem

theorem legMove_ud_eq (o : LegOps) (s : State) : (legMove o s).ud = udLeg o.pre s := rfl

theorem vexMove_ud_eq (vl : VLen) {o : VexOps} (s : State) (hw : o.WellFormed) :
    (vexMove vl o s).ud = udVex false s := by
  obtain ⟨hpre, -⟩ := hw
  rw [vexMove, hpre]

theorem evexMove_ud_eq (vl : VLen) (sh : Shape) {st : Bool} {o : EvexOps} (s : State) (hw : o.WellFormed st) :
    (evexMove vl sh st o s).ud = udEvex vl false false s := by
  have hbad := evexBadMask_eq_false hw
  obtain ⟨hpre, -⟩ := hw
  rw [evexMove, hpre, hbad]

/-! ## Checks of R39 that fail -/

section
variable {s : State} {kind : AccessKind} {a : Access}

/-- A misaligned operand is #GP, unless it is SS-relative and non-canonical too (R31, R140 item 4). -/
theorem State.accessCheck_misaligned (hsel : a.someSelected) (hal : ¬ a.aligned) (hss : a.seg = .ss → a.allCanonical s) :
    s.accessCheck kind a = some (.fault .gp) := by
  have hm : a.misaligned = true := by rwa [← Bool.not_eq_false, Access.misaligned_eq_false]
  cases hc : s.nonCanonical a with
  | false => simp [State.accessCheck, Access.selected_isEmpty hsel, hc, hm]
  | true =>
    have hseg : a.seg ≠ .ss := fun h => by simp [State.nonCanonical_eq_false.2 (hss h)] at hc
    simp [State.accessCheck, Access.selected_isEmpty hsel, hc, hseg]

/-- An aligned operand with a non-canonical byte is #SS through SS and #GP otherwise (R39 step 1). -/
theorem State.accessCheck_nonCanonical (hsel : a.someSelected) (hal : a.aligned) (hcan : ¬ a.allCanonical s) :
    s.accessCheck kind a = some (.fault (if a.seg = .ss then .ss else .gp)) := by
  have hc : s.nonCanonical a = true := by rwa [← Bool.not_eq_false, State.nonCanonical_eq_false]
  by_cases hseg : a.seg = .ss
  · simp [State.accessCheck, Access.selected_isEmpty hsel, hc, Access.misaligned_eq_false.2 hal, hseg]
  · simp [State.accessCheck, Access.selected_isEmpty hsel, hc, hseg]

/-- A page fault carries `Translate`'s code and the element's address (R137, log 7). -/
theorem State.elementCheck_pageFault {la : Word} {code : BitVec 32} (h : s.translate la kind = .pageFault code) :
    s.elementCheck kind la = some (.fault (.pf code la)) := by
  simp only [State.elementCheck, h]

end

end Sys2Proof.Machine
end

section
/-! Family 60_exceptions: the statements about exceptions, settled. -/

namespace Sys2Proof.Proofs

open Machine

/-- Settles O19: a row is a move, which is #UD by its own test only, and that test is R131's. -/
theorem legacyUndefinedConditions : Obligations.LegacyUndefinedConditions := by
  intro st o s
  rw [exec_legRow_eq_runMove, runMove_ud_iff, legMove_ud_eq, udLeg_iff]

/-- Settles O20: the prefixes of a well-formed row are none of R132's, so the conditions on the state are left. -/
theorem vexUndefinedConditions : Obligations.VexUndefinedConditions := by
  intro l st o s hw
  rw [exec_vexRow_eq_runMove, runMove_ud_iff, vexMove_ud_eq _ s ((vexRow_wellFormed l st o).1 hw), udVex_iff]

/-- Settles O21: the prefixes and masking of a well-formed row are none of R133's, so the conditions on the state are
left. -/
theorem evexUndefinedConditions : Obligations.EvexUndefinedConditions := by
  intro w vl st o s hw
  rw [exec_evexRow_eq_runMove, runMove_ud_iff, evexMove_ud_eq _ _ s ((evexRow_wellFormed w vl st o).1 hw), udEvex_iff]

/-- Settles O22: CR0.TS is tested right after #UD, and no check of an operand raises #NM. -/
theorem deviceNotAvailable : Obligations.DeviceNotAvailable := by
  intro i s hm
  obtain ⟨mv, store, reg, rm, hexec, -⟩ := exec_eq_runMove i s
  rw [hexec]
  refine ⟨fun h => ⟨ts_of_runMove_nm h, by simp [h]⟩, fun ⟨hts, hud⟩ => ?_⟩
  rw [Ne, runMove_ud_iff, Bool.not_eq_true] at hud
  exact runMove_nm_of_ts hm hud hts

/-- Settles O24: an operand with a selected element meets the alignment test, and only the canonical test through SS
answers otherwise. -/
theorem misalignedOperandGp : Obligations.MisalignedOperandGp :=
  fun _ _ _ _ hw he ho hsel hal hss => exec_of_accessCheck_some hw he ho (State.accessCheck_misaligned hsel hal hss)

/-- Settles O25: an accessed byte lies in a selected element, so the canonical test is made, and comes first. -/
theorem nonCanonicalOperandFaults : Obligations.NonCanonicalOperandFaults := by
  intro i s kind a hw he ho hal hcan
  have hsel := Access.someSelected_of_not_allCanonical (operandOf_shape ho) hcan
  exact exec_of_accessCheck_some hw he ho (State.accessCheck_nonCanonical hsel hal hcan)

/-- Settles O27: the walk of R39 step 3 stops at the first element that page-faults. -/
theorem pageFaultOnSelectedElement : Obligations.PageFaultOnSelectedElement := by
  intro i s kind a j code hw he ho hal hcan hj hm hfirst hpf
  have htr : s.translateCheck kind a = some (.fault (.pf code (byteAddr a.la (a.sh.elem * j)))) :=
    State.translateCheck_first (Access.mem_selected.2 ⟨hj, hm⟩)
      (fun j' hlt hm' => State.elementCheck_none.2 (Translation.isWriteBack_iff.2 (hfirst j' hlt hm')))
      (State.elementCheck_pageFault hpf)
  have hstop : s.accessCheck kind a = some (.fault (.pf code (byteAddr a.la (a.sh.elem * j)))) := by
    rw [State.accessCheck_of_aligned ⟨j, hj, hm⟩ hal hcan, htr, Option.some_or]
  exact exec_of_accessCheck_some hw he ho hstop

/-- Settles O30: a register copy has no check but the tests before its operands, and every fault has its line of R130. -/
theorem exceptionVectors : Obligations.ExceptionVectors := by
  intro i s f h
  refine ⟨fun ho => ?_, f.table⟩
  obtain rfl | rfl | ⟨hop, -⟩ := exec_fault h
  · exact .inl rfl
  · exact .inr rfl
  · exact absurd ho hop

end Sys2Proof.Proofs
end

section
/-! SUPPORT. An instruction that completes and memory: the canonical form it keeps, the bytes a store leaves, and the bytes a
load finds. -/

namespace Sys2Proof.Machine

/-! ## The canonical form (log 3) -/

/-- A store keeps memory canonical: it is made of byte writes. -/
theorem State.storeOperand_inv {s : State} (hs : s.Inv) (a : Access) (v : Vec) : (s.storeOperand a v).Inv :=
  Memory.writeBytes_wf hs _ _ _ _

/-- A move that completes keeps memory canonical, whichever of the three it was. -/
theorem runMove_next_inv {mv : Move} {store : Bool} {reg : VReg} {rm : Operand} {s t : State}
    (h : runMove mv store reg rm s = .next t) (hs : s.Inv) : t.Inv := by
  obtain ⟨_, d, r, -, -, -, rfl⟩ | ⟨a, -, -, -, rfl⟩ | ⟨a, -, -, -, rfl⟩ := runMove_next h
  · exact hs
  · rw [State.advanceChoice_eq]; exact hs
  · rw [State.advanceChoice_eq]; exact State.storeOperand_inv hs _ _

/-- An instruction that completes keeps memory canonical. -/
theorem exec_next_inv {i : Instr} {s t : State} (h : exec i s = .next t) (hs : s.Inv) : t.Inv := by
  obtain ⟨mv, store, reg, rm, hexec, -⟩ := exec_eq_runMove i s
  exact runMove_next_inv (hexec ▸ h) hs

/-! ## What a store leaves and a load finds, byte by byte (R35, R36) -/

/-- Every instruction is a move whose operand is at most as long as a vector register and whose result holds the source's
bytes wherever a memory operand would be accessed, in every encoding class. -/
theorem exec_eq_runMove_bytes (i : Instr) (s : State) : ∃ mv store reg rm,
    exec i s = runMove mv store reg rm s ∧ destOf i = destReg store reg rm ∧
      operandOf i s = moveOperand mv store rm s ∧ mv.sh.bytes ≤ 64 ∧
      ∀ ad src old q, (s.access mv ad).reaches q → vecByte (mv.result src old) q = vecByte src q := by
  obtain ⟨st, o, rfl⟩ | ⟨l, st, o, rfl⟩ | ⟨w, vl, st, o, rfl⟩ := Instr.row_cases i
  · refine ⟨_, _, _, _, exec_legRow_eq_runMove st o s, destOf_legRow st o, operandOf_legRow st o s,
      VLen.v128.bytes_bounds.2, fun ad src old q hq => ?_⟩
    have hlt := reaches_legMove_iff.1 hq
    exact result_leg_low o s src old (by omega)
  · refine ⟨_, _, _, _, exec_vexRow_eq_runMove l st o s, destOf_vexRow l st o, operandOf_vexRow l st o s,
      (vexLen l).bytes_bounds.2, fun ad src old q hq => ?_⟩
    rw [vecByte_result_vex, if_pos (reaches_vexMove_iff.1 hq)]
  · refine ⟨_, _, _, _, exec_evexRow_eq_runMove w vl st o s, destOf_evexRow w vl st o, operandOf_evexRow w vl st o s,
      vl.bytes_bounds.2, fun ad src old q hq => ?_⟩
    obtain ⟨hlt, hsel⟩ := reaches_evexMove_iff.1 hq
    rw [vecByte_result_evex, if_pos hlt, if_pos hsel]

/-- A memory operand is at most as long as a vector register. -/
theorem operandOf_bytes_le {i : Instr} {s : State} {kind : AccessKind} {a : Access}
    (h : operandOf i s = some (kind, a)) : a.sh.bytes ≤ 64 := by
  obtain ⟨mv, store, reg, rm, -, -, hop, hle, -⟩ := exec_eq_runMove_bytes i s
  obtain ⟨ad, -, -, rfl⟩ := moveOperand_eq_some (hop ▸ h)
  exact hle

/-- A store that completes leaves in memory what storing its source register does. -/
theorem exec_next_stored {i : Instr} {s t : State} {a : Access} {r : VReg} (h : exec i s = .next t)
    (ho : operandOf i s = some (.write, a)) (hr : srcOf i = some r) : t.mem = (s.storeOperand a (s.vec r)).mem := by
  obtain ⟨mv, store, reg, rm, hexec, -, -, hsrc, hop⟩ := exec_eq_runMove i s
  obtain ⟨ad, rfl, -, rfl⟩ := moveOperand_eq_some (hop ▸ ho)
  obtain ⟨_, _, _, hrm, -⟩ | ⟨_, -, rfl, -⟩ | ⟨ad', hrm, rfl, -, rfl⟩ := runMove_next (hexec ▸ h)
  · simp at hrm
  · simp [hop, moveOperand, rowKind] at ho
  · obtain rfl := Operand.mem.inj hrm
    obtain rfl : reg = r := Option.some.inj (hsrc.symm.trans hr)
    simp

/-- A load that completes leaves its result over the loaded operand in its destination. -/
theorem runMove_next_loaded {mv : Move} {store : Bool} {reg d : VReg} {rm : Operand} {s t : State} {a : Access}
    (h : runMove mv store reg rm s = .next t) (ho : moveOperand mv store rm s = some (.read, a))
    (hd : destReg store reg rm = some d) : t.vec d = mv.result (s.loadOperand a) (s.vec d) := by
  obtain ⟨ad, rfl, -, rfl⟩ := moveOperand_eq_some ho
  obtain ⟨_, _, _, hrm, -⟩ | ⟨ad', hrm, rfl, -, rfl⟩ | ⟨_, -, rfl, -⟩ := runMove_next h
  · simp at hrm
  · obtain rfl := Operand.mem.inj hrm
    obtain rfl : reg = d := Option.some.inj hd
    simp
  · simp [moveOperand, rowKind] at ho

/-- A load that completes has in its destination every byte it reads, whatever the encoding class. -/
theorem exec_next_loaded {i : Instr} {s t : State} {a : Access} {d : VReg} (h : exec i s = .next t)
    (ho : operandOf i s = some (.read, a)) (hd : destOf i = some d) {q : Nat} (hq : a.reaches q) :
    vecByte (t.vec d) q = s.byteAt (s.bytePa .read a.la q).toNat := by
  obtain ⟨mv, store, reg, rm, hexec, hdst, hop, hle, hres⟩ := exec_eq_runMove_bytes i s
  rw [runMove_next_loaded (hexec ▸ h) (hop ▸ ho) (hdst ▸ hd)]
  obtain ⟨ad, -, -, rfl⟩ := moveOperand_eq_some (hop ▸ ho)
  rw [hres ad _ _ q hq, State.vecByte_loadOperand s hle hq]

/-- An instruction that completes keeps where each byte of an operand lies. -/
theorem exec_next_bytePa {i : Instr} {s t : State} (h : exec i s = .next t) (kind : AccessKind) (la : Word) (k : Nat) :
    t.bytePa kind la k = s.bytePa kind la k := by
  rw [exec_next_frame h]; rfl

end Sys2Proof.Machine
end

section
/-! SUPPORT. What the launch and the load leave: the control bits (R161), the mode, and the pages of the program (R166). -/

namespace Sys2Proof.Machine

/-! ## The launch -/

@[simp] theorem State.boot_cr0Em (s : State) : s.boot.cr0Em = false := by simp [State.cr0Em, State.boot]

@[simp] theorem State.boot_cr0Ts (s : State) : s.boot.cr0Ts = false := by simp [State.cr0Ts, State.boot]

@[simp] theorem State.boot_cr4Osfxsr (s : State) : s.boot.cr4Osfxsr = true := by simp [State.cr4Osfxsr, State.boot]

@[simp] theorem State.boot_cr4Osxsave (s : State) : s.boot.cr4Osxsave = true := by simp [State.cr4Osxsave, State.boot]

@[simp] theorem State.boot_xcr0Avx (s : State) : s.boot.xcr0Avx = true := by simp [State.xcr0Avx_eq, State.boot]

@[simp] theorem State.boot_xcr0Avx512 (s : State) : s.boot.xcr0Avx512 = true := by
  simp [State.xcr0Avx512_eq, State.boot]

/-- 64-bit mode is IA32_EFER.LMA with the code segment's L bit, whatever the flags (R18). -/
theorem State.mode_eq_mode64_iff {s : State} : s.mode = .mode64 ↔ s.eferLma = true ∧ s.csL = true := by
  unfold State.mode
  split_ifs <;> simp_all

theorem State.launched_mode (s : State) : s.launched.mode = .mode64 := by
  have hmode : (if s.mode = .mode64 then s else s.boot).mode = .mode64 := by
    split_ifs with h
    · exact h
    · exact s.boot_mode
  obtain ⟨hlma, hcsL⟩ := State.mode_eq_mode64_iff.1 hmode
  exact State.mode_eq_mode64_iff.2 ⟨hlma, hcsL⟩

theorem State.launched_flagTf (s : State) : s.launched.flagTf = false := by
  simp [State.flagTf, State.launched]

/-! ## The load -/

/-- The load keeps the mode's control bits, the flags and `rip` of the launch. -/
theorem State.load_launched (s : State) (n : Nat) (bs : List Byte) :
    (s.load n bs).efer = s.launched.efer ∧ (s.load n bs).csL = s.launched.csL ∧
      (s.load n bs).rflags = s.launched.rflags ∧ (s.load n bs).rip = s.launched.rip := by
  obtain ⟨p, hp⟩ := s.ready_eq bs.length
  simp only [State.load, hp, and_self]

theorem State.load_mode (s : State) (n : Nat) (bs : List Byte) : (s.load n bs).mode = .mode64 := by
  obtain ⟨hefer, hcsL, -, -⟩ := s.load_launched n bs
  have hmode := s.launched_mode
  rw [State.mode_eq_mode64_iff, State.eferLma] at hmode ⊢
  rwa [hefer, hcsL]

/-- At most 4096 bytes lie in the pages of the first and the last. -/
theorem byteAddr_page_first_or_last {a : Word} {n k : Nat} (hn : n ≤ 4096) (hw : a.toNat + n ≤ 2 ^ 64) (hk : k < n) :
    (byteAddr a k).extractLsb' 12 52 = a.extractLsb' 12 52 ∨
      (byteAddr a k).extractLsb' 12 52 = (byteAddr a (n - 1)).extractLsb' 12 52 := by
  simp only [← BitVec.toNat_inj, toNat_page, toNat_byteAddr]
  omega

/-- Fetches and reads of the bytes a machine was made ready for reach one byte of write-back memory. -/
theorem State.ready_translate (s : State) {n k : Nat} (hn : n ≤ 4096) (hw : s.rip.toNat + n ≤ 2 ^ 64) (hk : k < n) :
    ∃ pa, ∀ kind, kind ≠ .write → (s.ready n).translate (byteAddr s.rip k) kind = .ok pa .writeBack := by
  by_cases hlast : (byteAddr s.rip k).extractLsb' 12 52 = (byteAddr s.rip (n - 1)).extractLsb' 12 52
  · exact ⟨_, fun kind hkind => (State.mapCode_translate _ _ _ hkind).trans (if_pos hlast)⟩
  · have hfirst := (byteAddr_page_first_or_last hn hw hk).resolve_right hlast
    exact ⟨_, fun kind hkind => (State.mapCode_translate _ _ _ hkind).trans
      ((if_neg hlast).trans ((State.mapCode_translate _ _ _ hkind).trans (if_pos hfirst)))⟩

theorem State.load_translate (s : State) (n : Nat) (bs : List Byte) (a : Word) (kind : AccessKind) :
    (s.load n bs).translate a kind = (s.ready bs.length).translate a kind := by
  simp only [State.translate, State.load]

/-- A byte of the load is read back where it was placed: the places are distinct. -/
theorem State.load_byteAt {s : State} (hs : s.Inv) (n : Nat) {bs : List Byte} (hn : bs.length ≤ 4096) {k : Nat}
    (hk : k < bs.length) :
    some ((s.load n bs).byteAt ((s.ready bs.length).bytePa .fetch s.rip k).toNat) = bs[k]? :=
  (Memory.read_place hs _ s.rip bs fun _ hi _ hj hne =>
    State.bytePa_ne (s.ready bs.length) .fetch s.rip (hi.trans_le hn) (hj.trans_le hn) hne).2 k hk

/-- A byte of the load is fetched: its page is shared by fetches and reads (R166 (c)). -/
theorem State.load_fetchByte {s : State} (hs : s.Inv) (n : Nat) {bs : List Byte} (hn : bs.length ≤ 4096)
    (hw : s.rip.toNat + bs.length ≤ 2 ^ 64) {k : Nat} (hk : k < bs.length) :
    (s.load n bs).fetchByte (s.rip.toNat + k) = bs[k]? := by
  obtain ⟨pa, hpa⟩ := s.ready_translate hn hw hk
  have htr : ∀ kind, kind ≠ .write →
      (s.load n bs).translate (BitVec.ofNat 64 (s.rip.toNat + k)) kind = .ok pa .writeBack := fun kind hkind => by
    rw [ofNat_toNat_add, State.load_translate, hpa kind hkind]
  have hplace : (s.ready bs.length).bytePa .fetch s.rip k = pa := State.physAddr_of_ok (hpa .fetch nofun)
  have haddr : s.rip.toNat + k < 2 ^ 64 := by omega
  rw [State.fetchByte_of_translate haddr (htr .fetch nofun) (htr .read nofun), ← hplace, State.load_byteAt hs n hn hk]

end Sys2Proof.Machine
end

section
/-! Family 70_reset_and_hazards: the statements about reset, launch, memory's form and loads after stores, settled. -/

namespace Sys2Proof.Proofs

open Machine

/-- Settles O51: a step that completes is one instruction's `exec`, and of the three moves only a store writes memory, byte
by byte. -/
theorem stepKeepsMemoryCanonical : Obligations.StepKeepsMemoryCanonical := by
  intro s t hs h
  obtain ⟨-, -, -, i, -, hexec, -⟩ := step_next h
  exact exec_next_inv hexec hs

/-- Settles O44: a loaded byte is the byte of memory after the store, which is the stored one where the store wrote and the
earlier one elsewhere. -/
theorem loadReturnsStoredBytes : Obligations.LoadReturnsStoredBytes := by
  intro i j s t u a b r d hs hoi hsrc hi hoj hdst hj q hq
  rw [exec_next_loaded hj hoj hdst hq, exec_next_bytePa hi]
  refine ⟨fun p hp heq => ?_, fun hne => ?_⟩
  · have hpage : a.sh.bytes ≤ 4096 := (operandOf_bytes_le hoi).trans (by decide)
    rw [heq, State.byteAt, exec_next_stored hi hoi hsrc]
    exact State.byteAt_storeOperand hs hpage _ hp
  · obtain ⟨-, -, hkept, -⟩ := execChangesOnlyDestination i s t hs hi
    refine hkept _ fun a' ha' p hp heq => ?_
    obtain rfl : a = a' := by simpa [hoi] using ha'
    exact hne p hp (BitVec.eq_of_toNat_eq heq)

/-- Settles O59: the launch gives mode and TF, and a byte given is fetched where it was placed, in a page that fetches and
reads share. -/
theorem loadedProgramIsReady : Obligations.LoadedProgramIsReady := by
  intro s n bs hs _ hn hw
  obtain ⟨-, -, hrflags, hrip⟩ := s.load_launched n bs
  refine ⟨s.load_mode n bs, ?_, ?_, fun k hk => State.load_fetchByte hs n hn hw hk⟩
  · rw [hrflags]; exact s.launched_flagTf
  · rw [hrip, s.launched_rip]

/-- Settles O1: the reset state holds the values; of the general registers it sets RDX only. -/
theorem resetLeavesSpecValues : Obligations.ResetLeavesSpecValues := by
  refine ⟨rfl, rfl, rfl, rfl, rfl, rfl, rfl, fun i hi => ?_, fun n => ?_, fun n => ?_, by decide⟩
  · have hne : 2 ≠ i.toNat := fun e => hi (BitVec.eq_of_toNat_eq e.symm)
    simp [State.gpr, State.reset, hne]
  · simp [State.vec, State.reset]
  · simp [State.opmask, State.reset]

/-- Settles O3: `boot` sets each bit of R161 and clears EM and TS. -/
theorem bootEnablesEveryClass : Obligations.BootEnablesEveryClass := by
  intro s
  have hmode := s.boot_mode
  refine ⟨fun hsse => ?_, fun havx => ?_, fun vl hf hvl => ?_⟩
  · exact ⟨hmode, s.boot_cr0Em, s.boot_cr4Osfxsr, s.boot_cr0Ts, hsse⟩
  · exact ⟨hmode, s.boot_cr4Osxsave, s.boot_xcr0Avx, s.boot_cr0Ts, havx⟩
  · exact ⟨hmode, s.boot_cr4Osxsave, s.boot_xcr0Avx, s.boot_xcr0Avx512, s.boot_cr0Ts, hf, hvl⟩

/-- Settles O4: memory is empty at reset. -/
theorem resetMemoryCanonical : Obligations.ResetMemoryCanonical := Memory.wf_nil

end Sys2Proof.Proofs
end
